-- ==== Sys2Proof/Word.lean ====
section
/-! DEFINITION. The two widths of the block: a byte of data and a 16-bit op-word or result word. -/

namespace Sys2Proof

/-- `Byte` is an unsigned integer in `0 .. 255`, 8 bits, bit 0 least significant (00_scope.md R9). -/
abbrev Byte := BitVec 8

/-- An op-word (30_encoding.md R80) or a result word (R85): exactly 16 bits. -/
abbrev Word := BitVec 16

end Sys2Proof
end

