-- ==== Sys2Proof/Syntax.lean ====
section
/-! DEFINITION. The operations as syntax: the ten rows of the opcode map (30_encoding.md R86), the agents that
issue them (R83), and the ways an op-word can be illegal (R87). -/

namespace Sys2Proof

/-- Who issues an operation (00_scope.md, glossary; 30_encoding.md R83). The names are the spec's capitals in
lower case. -/
inductive Agent where
  /-- P, the producer domain: the interrupt context. -/
  | p
  /-- Q, the consumer domain: the main loop. -/
  | q
  /-- E, the environment: the serial peripheral and whatever drives it. -/
  | e
  /-- S, the startup code, which exists only until `INIT` ends. -/
  | s
  /-- A further agent, of which the model has none: whatever it issues is refused (60_exceptions.md R199). -/
  | further (id : Nat)
  deriving DecidableEq, Repr

/-- The operations of the block, one constructor for each row of the opcode map (30_encoding.md R86). -/
inductive Instr where
  /-- `TRY_PUSH b`, 40_ringbuffer.md R104, R109. -/
  | tryPush (b : Byte)
  /-- `TRY_POP`, 40_ringbuffer.md R105. -/
  | tryPop
  /-- `IS_EMPTY`, 40_ringbuffer.md R106. -/
  | isEmpty
  /-- `RX_IRQ`, 41_receiver.md R125. -/
  | rxIrq
  /-- `RX_ARRIVE b`, 41_receiver.md R120. -/
  | rxArrive (b : Byte)
  /-- `READ_BYTE`, 42_linereader.md R135. -/
  | readByte
  /-- `DATA_AVAILABLE`, 42_linereader.md R136. -/
  | dataAvailable
  /-- `CI_ITER`, 43_command_interpreter.md R148. -/
  | ciIter
  /-- `CI_STEP c`, 43_command_interpreter.md R149. -/
  | ciStep (c : Byte)
  /-- `INIT`, 70_reset_and_hazards.md R208. -/
  | init
  deriving DecidableEq, Repr

/-- Why an op-word is illegal (30_encoding.md R87). -/
inductive DecodeError where
  /-- `opc` is 0x0 or 0xB to 0xF. -/
  | reservedOpcode
  /-- Bits 11:8 are not zero. -/
  | zeroFieldNotZero
  /-- The format is OP0 and `imm8` is not zero. -/
  | operandNotZero
  deriving DecidableEq, Repr

/-- A request as the port carries it: an operation and the identity of its issuer, written `P:0x1041` (R83). -/
structure Request where
  agent : Agent
  op : Instr
  deriving DecidableEq, Repr

end Sys2Proof
end

