-- ==== Sys2Proof/Decode.lean ====
section
/-! DEFINITION. The op-word: its fields and formats, the opcode map, the decoder, and the encoder written from the
same map (30_encoding.md R80 to R88). -/

namespace Sys2Proof

/-! ## Fields (R80) -/

/-- `opc`, bits 15:12. -/
def opcField (w : Word) : BitVec 4 := w.extractLsb' 12 4
/-- `zero`, bits 11:8. -/
def zeroField (w : Word) : BitVec 4 := w.extractLsb' 8 4
/-- `imm8`, bits 7:0, unsigned, not extended, not scaled (R84). -/
def immField (w : Word) : Byte := w.extractLsb' 0 8

/-! ## The decoder (R86, R87) -/

/-- Format OPB: `zero` must be 0 and `imm8` is the operand (R81). -/
def decodeOpb (w : Word) (op : Byte → Instr) : Except DecodeError Instr :=
  if zeroField w = 0#4 then .ok (op (immField w)) else .error .zeroFieldNotZero

/-- Format OP0: `zero` and `imm8` must be 0 (R82). -/
def decodeOp0 (w : Word) (op : Instr) : Except DecodeError Instr :=
  if zeroField w = 0#4 then
    if immField w = 0#8 then .ok op else .error .operandNotZero
  else .error .zeroFieldNotZero

/-- Decoding is a pure function of the 16 bits (R88); a word that matches no row of R86 is rejected (R87). -/
def decode (w : Word) : Except DecodeError Instr :=
  match (opcField w).toNat with
  | 0x1 => decodeOpb w .tryPush
  | 0x2 => decodeOp0 w .tryPop
  | 0x3 => decodeOp0 w .isEmpty
  | 0x4 => decodeOp0 w .rxIrq
  | 0x5 => decodeOpb w .rxArrive
  | 0x6 => decodeOp0 w .readByte
  | 0x7 => decodeOp0 w .dataAvailable
  | 0x8 => decodeOp0 w .ciIter
  | 0x9 => decodeOpb w .ciStep
  | 0xA => decodeOp0 w .init
  | _ => .error .reservedOpcode

/-- The decoder on a word given as a number of `nbits` bits. An op-word has exactly 16 bits (R80), and every bit of it
above `nbits` is 0; a wider word is no op-word. -/
def decodeTableWord (nbits w : Nat) : Option Instr :=
  if nbits ≤ 16 ∧ w < 2 ^ nbits then
    match decode (BitVec.ofNat 16 w) with
    | .ok i => some i
    | .error _ => none
  else none

/-! ## The encoder -/

/-- The opcode of an operation (R86, column `opc`). -/
def Instr.opc (i : Instr) : BitVec 4 :=
  match i with
  | .tryPush _ => 0x1#4
  | .tryPop => 0x2#4
  | .isEmpty => 0x3#4
  | .rxIrq => 0x4#4
  | .rxArrive _ => 0x5#4
  | .readByte => 0x6#4
  | .dataAvailable => 0x7#4
  | .ciIter => 0x8#4
  | .ciStep _ => 0x9#4
  | .init => 0xA#4

/-- The operand byte: `imm8` of format OPB, `0x00` of format OP0 (R81, R82). -/
def Instr.imm8 (i : Instr) : Byte :=
  match i with
  | .tryPush b => b
  | .rxArrive b => b
  | .ciStep c => c
  | .tryPop => 0#8
  | .isEmpty => 0#8
  | .rxIrq => 0#8
  | .readByte => 0#8
  | .dataAvailable => 0#8
  | .ciIter => 0#8
  | .init => 0#8

/-- The op-word `{opc, zero, imm8}` of an operation (R80). -/
def encode (i : Instr) : Word := i.opc ++ (0#4 ++ i.imm8)

/-! ## The opcode map as data (R86) -/

/-- One row of the opcode map: a word `w` selects it exactly when `w &&& mask = pattern`. -/
structure OpRow where
  mnemonic : String
  pattern : Word
  mask : Word
  deriving DecidableEq, Repr

/-- The map of R86, row for row. -/
def opTable : List OpRow :=
  [⟨"TRY_PUSH", 0x1000#16, 0xFF00#16⟩, ⟨"TRY_POP", 0x2000#16, 0xFFFF#16⟩, ⟨"IS_EMPTY", 0x3000#16, 0xFFFF#16⟩,
   ⟨"RX_IRQ", 0x4000#16, 0xFFFF#16⟩, ⟨"RX_ARRIVE", 0x5000#16, 0xFF00#16⟩, ⟨"READ_BYTE", 0x6000#16, 0xFFFF#16⟩,
   ⟨"DATA_AVAILABLE", 0x7000#16, 0xFFFF#16⟩, ⟨"CI_ITER", 0x8000#16, 0xFFFF#16⟩, ⟨"CI_STEP", 0x9000#16, 0xFF00#16⟩,
   ⟨"INIT", 0xA000#16, 0xFFFF#16⟩]

/-- The row of R86 that a word selects. -/
def OpRow.selects (r : OpRow) (w : Word) : Bool := w &&& r.mask == r.pattern

/-- The mnemonic of an operation (R89). -/
def Instr.mnemonic (i : Instr) : String :=
  match i with
  | .tryPush _ => "TRY_PUSH"
  | .tryPop => "TRY_POP"
  | .isEmpty => "IS_EMPTY"
  | .rxIrq => "RX_IRQ"
  | .rxArrive _ => "RX_ARRIVE"
  | .readByte => "READ_BYTE"
  | .dataAvailable => "DATA_AVAILABLE"
  | .ciIter => "CI_ITER"
  | .ciStep _ => "CI_STEP"
  | .init => "INIT"

end Sys2Proof
end

