-- ==== Sys2Proof/Config.lean ====
section
/-! DEFINITION. The parameters of rule R8, the byte strings the spec fixes, and the free values: what an
implementation or the environment settles and the spec does not. -/

namespace Sys2Proof

/-- What a read of the other side's pointer may return (20_memory.md R58). -/
inductive Vis where
  | fresh      -- always the current value
  | monotone   -- any value held since this reader's previous read, never an older one
  deriving DecidableEq, Repr

/-- How producer and consumer steps interleave (20_memory.md R61). -/
inductive Sched where
  | preempt    -- an operation of P is atomic with respect to Q
  | free       -- the micro-steps of P, Q and E interleave in any order
  deriving DecidableEq, Repr

/-- A byte arriving while `rx_ready` is still set (41_receiver.md R122). -/
inductive Overrun where
  | excluded        -- `RX_OVERRUN = Excluded`: the arrival is refused
  | openBehaviour   -- `RX_OVERRUN = OPEN`: the behaviour is an argument of the model (the free values below)
  deriving DecidableEq, Repr

/-- The parameters of the model (00_scope.md R6, R7, R8), every one fixed for one machine. -/
structure Config where
  /-- `C`, the number of slots of `storage` (R6). -/
  C : Nat
  /-- `N`, the number of cells of the line buffer `chars` (R7). -/
  N : Nat
  /-- `LEGACY_OVERWRITE`: the source repository's unchecked push (40_ringbuffer.md R109). -/
  legacyOverwrite : Bool
  /-- `VIS` (R58). -/
  vis : Vis
  /-- `SCHED` (R61). -/
  sched : Sched
  /-- `RX_OVERRUN` (R122). -/
  rxOverrun : Overrun
  /-- `PIN_LED`, an opaque pin identifier (43_command_interpreter.md R156). -/
  pinLed : Nat
  /-- `MSG_HELP` (R155). -/
  msgHelp : List Byte
  /-- `MSG_LED_ON` (R156). -/
  msgLedOn : List Byte
  /-- `MSG_LED_OFF` (R157). -/
  msgLedOff : List Byte
  /-- `MSG_TOGGLE` (R158). -/
  msgToggle : List Byte
  /-- `MSG_STATUS_ON` (R159). -/
  msgStatusOn : List Byte
  /-- `MSG_STATUS_OFF` (R159). -/
  msgStatusOff : List Byte
  /-- `MSG_BANNER`, may be empty (R147). -/
  msgBanner : List Byte
  deriving DecidableEq, Repr

/-- `W = max(1, ceil(log2 C))`, the width in bits of `head` and `tail` (00_scope.md R8, 10_state.md R23). -/
def Config.W (c : Config) : Nat := max 1 (Nat.log2 (c.C - 1) + 1)

/-! ## Free values: constants with no body, of which no proof can know a value -/

/-- The draw of a cross-domain pointer read (R58; 93_implementation_defined.md U2), by draw number. -/
opaque Config.freeDraw : Nat → Nat
/-- Which agent the scheduler lets act when no schedule line says so (R61; U3): 0 P, 1 Q, 2 E, other: none. -/
opaque Config.freeAgent : Nat → Nat
/-- The byte the environment delivers when no schedule line says so (R123: "deliver any byte value"). -/
opaque Config.freeArrival : Nat → Byte
/-- What a slot of `storage` never written since process start holds (U1), by slot. -/
opaque Config.storageAtStart : Nat → Byte
/-- What a cell of `chars` never written since process start holds (U12), by cell. -/
opaque Config.charsAtStart : Nat → Byte
/-- `rx_data` at process start (10_state.md R28; U15). -/
opaque Config.rxDataAtStart : Byte
/-- `rx_ready` at process start (R28; U15). -/
opaque Config.rxReadyAtStart : Bool
/-- The level of the output pin at process start (R42; U10; D27). -/
opaque Config.pinAtStart : Bool
/-- `p_byte` at process start (R31; U14). -/
opaque Config.pByteAtStart : Byte
/-- `p_tail_seen` at process start (R31; U14), before it is brought into `0 .. C-1`. -/
opaque Config.pTailSeenAtStart : Nat
/-- `p_ok` at process start (R31; U14). -/
opaque Config.pOkAtStart : Bool
/-- `p_isr` at process start (R31; U14). -/
opaque Config.pIsrAtStart : Bool
/-- `q_head_seen` at process start (R33; U14), before it is brought into `0 .. C-1`. -/
opaque Config.qHeadSeenAtStart : Nat
/-- `q_byte` at process start (R33; U14). -/
opaque Config.qByteAtStart : Byte
/-- `RX_OVERRUN = OPEN` (R122): the byte left in `rx_data`, from the draw number, the old byte and the new one. -/
opaque Config.overrunData : Nat → Byte → Byte → Byte
/-- `RX_OVERRUN = OPEN`: the level `rx_ready` is left at. -/
opaque Config.overrunReady : Nat → Bool
/-- `RX_OVERRUN = OPEN`: whether the arrival leaves an event (false: the event is lost). -/
opaque Config.overrunRecorded : Nat → Bool
/-- `RX_OVERRUN = OPEN`: whether a further flag is raised. -/
opaque Config.overrunFlag : Nat → Bool
/-- The OPEN message texts (R147, R155 to R159; 92_eei_decisions.md D24, D25). -/
opaque Config.textHelp : List Byte
opaque Config.textLedOn : List Byte
opaque Config.textLedOff : List Byte
opaque Config.textToggle : List Byte
opaque Config.textStatusOn : List Byte
opaque Config.textStatusOff : List Byte
opaque Config.textBanner : List Byte

/-- The defaults of rules R6, R7 and R8, and the OPEN texts left free. The two status texts must differ
(93_implementation_defined.md U11), so the second free text is lengthened where the two draws agree. -/
def Config.default : Config where
  C := 64
  N := 32
  legacyOverwrite := false
  vis := .monotone
  sched := .preempt
  rxOverrun := .excluded
  pinLed := 0
  msgHelp := Config.textHelp
  msgLedOn := Config.textLedOn
  msgLedOff := Config.textLedOff
  msgToggle := Config.textToggle
  msgStatusOn := Config.textStatusOn
  msgStatusOff :=
    if Config.textStatusOff = Config.textStatusOn then 0#8 :: Config.textStatusOff else Config.textStatusOff
  msgBanner := Config.textBanner

/-! ## The byte strings the spec fixes (30_encoding.md R91, R92, R93) -/

/-- CR ends a command line (R91). -/
def Text.cr : Byte := 0x0D#8
/-- BACKSPACE is an editing key (R91). -/
def Text.backspace : Byte := 0x08#8
/-- DEL is an editing key (R91). -/
def Text.del : Byte := 0x7F#8
/-- The line ending `"\r\n"` (R92). -/
def Text.crlf : List Byte := [0x0D#8, 0x0A#8]
/-- The prompt `"> "` (R92). -/
def Text.prompt : List Byte := [0x3E#8, 0x20#8]
/-- Erase on screen, `"\b \b"` (R92). -/
def Text.erase : List Byte := [0x08#8, 0x20#8, 0x08#8]
/-- `"Unknown command: "` (R92). -/
def Text.unknownCommand : List Byte :=
  [0x55#8, 0x6E#8, 0x6B#8, 0x6E#8, 0x6F#8, 0x77#8, 0x6E#8, 0x20#8, 0x63#8, 0x6F#8, 0x6D#8, 0x6D#8, 0x61#8, 0x6E#8,
   0x64#8, 0x3A#8, 0x20#8]
/-- `"\r\nType HELP for commands\r\n"` (R92). -/
def Text.hint : List Byte :=
  [0x0D#8, 0x0A#8, 0x54#8, 0x79#8, 0x70#8, 0x65#8, 0x20#8, 0x48#8, 0x45#8, 0x4C#8, 0x50#8, 0x20#8, 0x66#8, 0x6F#8,
   0x72#8, 0x20#8, 0x63#8, 0x6F#8, 0x6D#8, 0x6D#8, 0x61#8, 0x6E#8, 0x64#8, 0x73#8, 0x0D#8, 0x0A#8]
/-- The command string `HELP` (R93). -/
def Text.help : List Byte := [0x48#8, 0x45#8, 0x4C#8, 0x50#8]
/-- The command string `LED ON` (R93). -/
def Text.ledOn : List Byte := [0x4C#8, 0x45#8, 0x44#8, 0x20#8, 0x4F#8, 0x4E#8]
/-- The command string `LED OFF` (R93). -/
def Text.ledOff : List Byte := [0x4C#8, 0x45#8, 0x44#8, 0x20#8, 0x4F#8, 0x46#8, 0x46#8]
/-- The command string `TOGGLE` (R93). -/
def Text.toggle : List Byte := [0x54#8, 0x4F#8, 0x47#8, 0x47#8, 0x4C#8, 0x45#8]
/-- The command string `STATUS` (R93). -/
def Text.status : List Byte := [0x53#8, 0x54#8, 0x41#8, 0x54#8, 0x55#8, 0x53#8]

end Sys2Proof
end

