-- ==== Sys2Proof/Machine/State.lean ====
section
/-! DEFINITION. The state of the block and of its boundary (10_state.md), why a request is refused, and the state at
process start (70_reset_and_hazards.md R205). -/

namespace Sys2Proof.Machine

/-! ## The parts of the state -/

/-- An array of bytes as plain data: the cells written since process start, by index, strictly rising. A cell that is
not listed has not been written (the `--` of 95_test_vectors.md). -/
abbrev Memory := List Host.Cell

/-- Whether the startup code still runs (R194, R205, R210): before the end of `INIT`, neither context is active. -/
inductive Life where
  | startup
  | active
  deriving DecidableEq, Repr

/-- `p_phase` (R30). -/
inductive PPhase where
  | idle      -- `P_IDLE`
  | fetch     -- `P_FETCH`
  | sample    -- `P_SAMPLE`
  | write     -- `P_WRITE`
  | publish   -- `P_PUBLISH`
  | ret       -- `P_RET`
  deriving DecidableEq, Repr

/-- `q_phase` (R32). -/
inductive QPhase where
  | idle      -- `Q_IDLE`
  | sample    -- `Q_SAMPLE`
  | read      -- `Q_READ`
  | publish   -- `Q_PUBLISH`
  deriving DecidableEq, Repr

/-- `q_op` (R33). `ciStart` is the interpreter's start (43_command_interpreter.md R147), which has no op-word. -/
inductive QOp where
  | none
  | tryPop
  | isEmpty
  | readByte
  | dataAvailable
  | ciIter
  | ciStep
  | ciStart
  deriving DecidableEq, Repr

/-- The entries of the CommandTable (43_command_interpreter.md R146). -/
inductive Command where
  | help
  | ledOn
  | ledOff
  | toggle
  | status
  deriving DecidableEq, Repr

/-- What the interpreter still has to do for the byte in hand: "the list of bytes still to be transmitted and the
command effect still to run" (R33), in the order of the pseudocode of R147 and R150 to R153. -/
inductive CiAct where
  | transmit (b : Byte)
  | effect (c : Command)
  | unknown (line : List Byte)
  | resetLength
  | append (c : Byte)
  | erase
  | drop (c : Byte)
  deriving DecidableEq, Repr

/-- The events of the history (R46). -/
inductive Event where
  | arrive (b : Byte)
  | isrRead (b : Byte)
  | pushOk (b : Byte) (i : Nat)
  | dataLoss (b : Byte)
  | popSome (b : Byte) (i : Nat)
  | popNone
  | tx (b : Byte)
  | setOutput (v : Bool)
  | inputTruncated (b : Byte)
  | unknownCommand (line : List Byte)
  deriving DecidableEq, Repr

/-- A line of a schedule (30_encoding.md R89): what acts next. -/
inductive Turn where
  /-- `<agent>: <operation>`: the op-word is issued and the operation's micro-steps follow without a break, until it
  returns or, waiting for a byte, has polled once. -/
  | issue (a : Agent) (w : Word)
  /-- The op-word is issued and the agent leaves idle; the micro-steps are lines of their own. An operation of one
  micro-step happens whole, and IS_EMPTY by P samples. -/
  | start (a : Agent) (w : Word)
  /-- `<agent>: <operation>.<step>`: the next micro-step of the operation in progress. -/
  | micro (a : Agent)
  /-- The rest of the operation in progress, without a break, until it returns or has polled once more. -/
  | resume (a : Agent)
  /-- `Q: (interpreter start)` (43_command_interpreter.md R147). -/
  | interpreterStart
  /-- Nothing happens: an agent spins (a `transmit` waits, 60_exceptions.md R195) or has nothing to do. -/
  | wait
  deriving DecidableEq, Repr

/-! ## Why a step stops -/

/-- The block has no failure state: "No condition of this hardware is a trap" (60_exceptions.md R175), and there is no
fault outcome (00_scope.md R14; 93_implementation_defined.md, end of part 1). So there is no fault to name. -/
inductive Fault where
  deriving DecidableEq, Repr

/-- A request outside what the spec gives a meaning to (00_scope.md R14): the run is marked refused and no rule applies
after it. Every one is the spec's own refusal. All but `overrunExcluded` are safe; that one assumes something of the
environment, so it is unsafe. -/
inductive Refusal where
  /-- Raised by an arm of `exec` that has no meaning yet (there is none). Safe. -/
  | notModelled (mnemonic : String)
  /-- Raised by a schedule line whose op-word matches no row of the opcode map (30_encoding.md R87). Safe. -/
  | illegalOpWord (why : DecodeError)
  /-- Raised by every operation issued by an agent it is not given to (60_exceptions.md R193). Safe. -/
  | wrongAgent
  /-- Raised by every operation issued by an agent beyond P, Q, E and S (60_exceptions.md R199). Safe. -/
  | furtherAgent
  /-- Raised by every operation but `INIT` before `INIT` has completed (70_reset_and_hazards.md R210). Safe. -/
  | beforeInit
  /-- Raised by a second `INIT` (R207) and by a second start of the interpreter (60_exceptions.md R194). Safe. -/
  | alreadyStarted
  /-- Raised by an operation issued to an agent that is mid-operation (93_implementation_defined.md U17). Safe. -/
  | agentBusy
  /-- Raised by `RX_IRQ` when the dispatch condition does not hold (41_receiver.md R124, R125). Safe. -/
  | noPendingByte
  /-- Raised by `RX_ARRIVE` while `rx_ready` is set, under `RX_OVERRUN = Excluded` (41_receiver.md R122). UNSAFE: a real
  peripheral can be overrun. -/
  | overrunExcluded
  /-- Raised by every step of Q inside an operation of P, under `SCHED = Preempt` (20_memory.md R61). Safe. -/
  | notSchedulable
  /-- Raised by a micro-step line of an agent that has no operation in progress. Safe. -/
  | nothingInProgress
  /-- Raised by every operation when `C < 2` or `N < 1` (93_implementation_defined.md U18). Safe. -/
  | badParameters
  /-- Raised by every operation when a pointer is outside `0 .. C-1`, or `length` outside `0 .. N-1`: no rule forms such
  an index, and a type that admits one refuses it (20_memory.md R51). Safe. -/
  | indexOutOfRange
  deriving DecidableEq, Repr

/-! ## The state -/

/-- The state of the machine: the block (10_state.md R20 to R33), the attached client (R37, R38), the collaborators'
state at the boundary (R42), the ghost state of the spec (R45, R46), and the port at which requests are issued. -/
structure State where
  /-- The parameters of the machine (00_scope.md R8). No operation writes them. -/
  cfg : Config
  /-- Whether `INIT` has completed (R194, R210). -/
  life : Life
  /-- `storage[0..C-1]` (R20). -/
  storage : Memory
  /-- `head`, the next write index (R23). -/
  head : Nat
  /-- `tail`, the next read index (R24). -/
  tail : Nat
  /-- `rx_data` (R28). -/
  rxData : Byte
  /-- `rx_ready`, the pending flag and the pending interrupt (R28, R44). -/
  rxReady : Bool
  /-- `rx_ie`, the enable of the byte-ready interrupt (R29). -/
  rxIe : Bool
  /-- The further flag an overrun may raise under `RX_OVERRUN = OPEN` (41_receiver.md R122); nothing reads it. -/
  rxFurther : Bool
  /-- `p_phase` (R30). -/
  pPhase : PPhase
  /-- `p_byte` (R31). -/
  pByte : Byte
  /-- `p_tail_seen` (R31). -/
  pTailSeen : Nat
  /-- `p_ok` (R31). -/
  pOk : Bool
  /-- `p_isr` (R31). -/
  pIsr : Bool
  /-- `q_phase` (R32). -/
  qPhase : QPhase
  /-- `q_head_seen` (R33). -/
  qHeadSeen : Nat
  /-- `q_byte` (R33). -/
  qByte : Byte
  /-- `q_op` (R33). -/
  qOp : QOp
  /-- The part of `q_op` that lists the bytes still to be transmitted and the effect still to run (R33). -/
  qWork : List CiAct
  /-- `chars[0..N-1]` (R37). -/
  chars : Memory
  /-- `length` (R38). -/
  length : Nat
  /-- Whether Q has entered the interpreter's main loop (60_exceptions.md R194, 70_reset_and_hazards.md R212). -/
  interpStarted : Bool
  /-- `pin` (R42). -/
  pin : Bool
  /-- `tx_out` (R42). -/
  txOut : List Byte
  /-- `pushes` (R45). -/
  pushes : Nat
  /-- `pops` (R45). -/
  pops : Nat
  /-- `seen_tail_n` (R45). -/
  seenTailN : Nat
  /-- `seen_head_n` (R45). -/
  seenHeadN : Nat
  /-- `history` (R46), oldest event first. -/
  history : List Event
  /-- The identity issued beside the op-word that is being executed (30_encoding.md R83). -/
  issuer : Agent
  /-- The schedule lines still to come, next line first (R89). -/
  schedule : List Turn
  /-- The result words delivered at the port, oldest first, each with the agent it was delivered to (R85). -/
  results : List (Agent × Word)
  /-- The MODEL's own counter of free draws; the free values of Config are applied to it. -/
  draw : Nat
  deriving DecidableEq, Repr

/-- The state at process start, before `INIT` (R205), of a machine with parameters `c`. -/
def State.processStart (c : Config) : State where
  cfg := c
  life := .startup
  storage := []
  head := 0
  tail := 0
  rxData := Config.rxDataAtStart
  rxReady := Config.rxReadyAtStart
  rxIe := false
  rxFurther := false
  pPhase := .idle
  pByte := Config.pByteAtStart
  pTailSeen := Config.pTailSeenAtStart % c.C
  pOk := Config.pOkAtStart
  pIsr := Config.pIsrAtStart
  qPhase := .idle
  qHeadSeen := Config.qHeadSeenAtStart % c.C
  qByte := Config.qByteAtStart
  qOp := .none
  qWork := []
  chars := []
  length := 0
  interpStarted := false
  pin := Config.pinAtStart
  txOut := []
  pushes := 0
  pops := 0
  seenTailN := 0
  seenHeadN := 0
  history := []
  issuer := .s
  schedule := []
  results := []
  draw := 0

/-- The machine right after reset: process start (the one kind of reset, R207) with the default parameters (R6, R7,
R8). -/
def State.reset : State := State.processStart Config.default

end Sys2Proof.Machine
end

