-- ==== Sys2Proof/Machine/Flags.lean ====
section
/-! DEFINITION. The arithmetic on pointers and the predicates computed from them: the block stores no flag but
`rx_ready` (10_state.md R34 to R36, R44; 40_ringbuffer.md R100 to R102). -/

namespace Sys2Proof.Machine

/-- `next(i) = (i + 1) mod C`, the only arithmetic on a pointer (R100). -/
def nextIndex (c : Config) (i : Nat) : Nat := (i + 1) % c.C

/-- `empty`: `head == tail`, to an observer that sees both pointers at once (R34). -/
def isEmptyNow (s : State) : Bool := s.head == s.tail

/-- `full`: `(head + 1) mod C == tail` (R35). -/
def isFullNow (s : State) : Bool := nextIndex s.cfg s.head == s.tail

/-- `live = (head + C - tail) mod C`, the number of live bytes (R36, R101). -/
def liveCount (s : State) : Nat := (s.head + s.cfg.C - s.tail) % s.cfg.C

/-- The pending, enabled request: `rx_ready and rx_ie` (R44; 60_exceptions.md R184). -/
def rxRequest (s : State) : Bool := s.rxReady && s.rxIe

/-- The dispatch condition of the handler: `rx_ready and rx_ie and p_phase == P_IDLE` (41_receiver.md R124). -/
def dispatchDue (s : State) : Bool := rxRequest s && s.pPhase == .idle

/-- The signal `rx_rd` (30_encoding.md R94): P's next micro-step is the one that reads `rx_data`. -/
def rxRd (s : State) : Bool := s.pPhase == .fetch

/-- The signal `empty_q` (R95): the buffer is empty as Q sees it. -/
def emptyQ (s : State) : Bool := s.qHeadSeen == s.tail

/-- The optional numeric codes of the recorded conditions (60_exceptions.md R180); `UnboundedWait`, code 4, has no
event. -/
def conditionCode (e : Event) : Option Nat :=
  match e with
  | .dataLoss _ => some 1
  | .inputTruncated _ => some 2
  | .unknownCommand _ => some 3
  | .arrive _ => none
  | .isrRead _ => none
  | .pushOk _ _ => none
  | .popSome _ _ => none
  | .popNone => none
  | .tx _ => none
  | .setOutput _ => none

end Sys2Proof.Machine
end

