-- ==== Sys2Proof/Machine/Operands.lean ====
section
/-! DEFINITION. Result assembly (30_encoding.md R85). The only operand, `imm8`, is assembled by the decoder (R84). -/

namespace Sys2Proof.Machine

/-- A `Bool` result: `0x0000` or `0x0001` (R85). -/
def boolWord (v : Bool) : Word := if v then 0x0001#16 else 0x0000#16

/-- An `Option Byte` result: `0x0000` for `None`, `0x0100 + b` for `Some(b)` (R85). -/
def optionByteWord (r : Option Byte) : Word :=
  match r with
  | none => 0x0000#16
  | some b => 0x0100#16 + b.setWidth 16

/-- A `Byte` result: `zext_16(b)` (R85). -/
def byteWord (b : Byte) : Word := b.setWidth 16

/-- The signal `pop_valid` (30_encoding.md R95): bit 8 of the result word of a pop. -/
def popValid (w : Word) : Bool := w.getLsbD 8

/-- The signal `pop_data` (R95): bits 7:0 of the result word of a pop. -/
def popData (w : Word) : Byte := w.extractLsb' 0 8

end Sys2Proof.Machine
end

