-- ==== Sys2Proof/WellFormed.lean ====
section
/-! DEFINITION. Which requests and which parameters the spec gives a meaning to. -/

namespace Sys2Proof

/-- Which agent may issue which operation (30_encoding.md R83; 60_exceptions.md R193). -/
def Instr.issuableBy (i : Instr) (a : Agent) : Bool :=
  match i with
  | .tryPush _ => a == .p
  | .tryPop => a == .q
  | .isEmpty => a == .q || a == .p
  | .rxIrq => a == .p
  | .rxArrive _ => a == .e
  | .readByte => a == .q
  | .dataAvailable => a == .q
  | .ciIter => a == .q
  | .ciStep _ => a == .q
  | .init => a == .s

/-- A request is well formed when its issuer is one the operation is given to (R83). -/
def Request.wf (r : Request) : Bool := r.op.issuableBy r.agent

/-- `C >= 2` and `N >= 1` (00_scope.md R6, R7): for other sizes the model is not defined (U18). -/
def Config.wf (c : Config) : Bool := decide (2 ≤ c.C) && decide (1 ≤ c.N)

/-- The two status texts differ (43_command_interpreter.md R159; 93_implementation_defined.md U11). -/
def Config.textsDiffer (c : Config) : Bool := c.msgStatusOn != c.msgStatusOff

end Sys2Proof
end

