-- ==== Sys2Proof/Machine/Ops.lean ====
section
/-! DEFINITION. The named operations the meanings are written over: the byte arrays, the pointer reads that cross the
domains, the data register, the collaborators, the history, the entry to the handler and the return from it, and what
must hold for an operation to be admitted. -/

namespace Sys2Proof.Machine

/-! ## Byte arrays -/

/-- The byte at index `i`, where one has been written since process start. -/
def memGet (m : Memory) (i : Nat) : Option Byte :=
  match m with
  | [] => none
  | (k, b) :: rest => if i = k then some b else memGet rest i

/-- The array with `b` written at index `i`. -/
def memPut (m : Memory) (i : Nat) (b : Byte) : Memory :=
  match m with
  | [] => [(i, b)]
  | (k, d) :: rest =>
    if i < k then (i, b) :: (k, d) :: rest
    else if i = k then (i, b) :: rest
    else (k, d) :: memPut rest i b

/-- Every index of `m` is at least `lo`, and indices rise strictly. -/
def memSortedFrom (lo : Nat) (m : Memory) : Bool :=
  match m with
  | [] => true
  | (k, _) :: rest => decide (lo ≤ k) && memSortedFrom (k + 1) rest

/-- The canonical form: indices strictly rising. An unlisted cell reads as no written byte, so no entry equals what an
unlisted cell reads as. -/
def memWf (m : Memory) : Bool := memSortedFrom 0 m

/-- Every index of `m` is below `n`. -/
def memBelow (n : Nat) (m : Memory) : Bool := m.all fun cell => decide (cell.1 < n)

/-- `storage[i]`, as a read returns it: a slot never written since process start holds a free value (10_state.md R20;
93_implementation_defined.md U1). -/
def slotByte (s : State) (i : Nat) : Byte := (memGet s.storage i).getD (Config.storageAtStart i)

/-- `chars[i]`, as a read returns it (R37; U12). -/
def charByte (s : State) (i : Nat) : Byte := (memGet s.chars i).getD (Config.charsAtStart i)

/-- `storage[i] <- b` (R11, R20). -/
def putSlot (i : Nat) (b : Byte) (s : State) : State := { s with storage := memPut s.storage i b }

/-- `chars[i] <- b` (R37). -/
def putChar (i : Nat) (b : Byte) (s : State) : State := { s with chars := memPut s.chars i b }

/-- `chars[0 .. length)`, the line in progress (R39). -/
def currentLine (s : State) : List Byte := (List.range s.length).map (charByte s)

/-! ## History, results, collaborators -/

/-- `record e` (00_scope.md R13): the event is appended to the history, and nothing else happens. -/
def record (e : Event) (s : State) : State := { s with history := s.history ++ [e] }

/-- `return v` to the issuer of the op-word: the result word is delivered to agent `a` (R13; 30_encoding.md R85). -/
def deliver (a : Agent) (w : Word) (s : State) : State := { s with results := s.results ++ [(a, w)] }

/-- `transmit(b)` (60_exceptions.md R195): the byte is appended to the outbound stream. Its waiting steps are lines of
their own (`Turn.wait`). -/
def transmit (b : Byte) (s : State) : State := record (.tx b) { s with txOut := s.txOut ++ [b] }

/-- `set_output(p, v)` (R196). Only one pin is ever used. -/
def setOutput (_p : Nat) (v : Bool) (s : State) : State := record (.setOutput v) { s with pin := v }

/-- `get_output(p)` (R196). -/
def getOutput (_p : Nat) (s : State) : Bool := s.pin

/-- A read of the data register: it returns the byte and clears the ready flag, in one step (20_memory.md R53, R54). -/
def readRxData (s : State) : Byte × State := (s.rxData, { s with rxReady := false })

/-! ## Pointer reads across the domains (R58) -/

/-- The value number a `Monotone` read returns, from a free draw `d`: any number from `lo` (the one last seen) to `hi`
(the current one). -/
def pickNumber (lo hi d : Nat) : Nat := if hi ≤ lo then hi else lo + d % (hi - lo + 1)

/-- `ReadTailFromP()`: the value, and the state in which P has seen it. -/
def readTailFromP (s : State) : Nat × State :=
  match s.cfg.vis with
  | .fresh => (s.tail, { s with seenTailN := s.pops })
  | .monotone =>
    let n := pickNumber s.seenTailN s.pops (Config.freeDraw s.draw)
    (n % s.cfg.C, { s with seenTailN := n, draw := s.draw + 1 })

/-- `ReadHeadFromQ()`: the value, and the state in which Q has seen it. -/
def readHeadFromQ (s : State) : Nat × State :=
  match s.cfg.vis with
  | .fresh => (s.head, { s with seenHeadN := s.pushes })
  | .monotone =>
    let n := pickNumber s.seenHeadN s.pushes (Config.freeDraw s.draw)
    (n % s.cfg.C, { s with seenHeadN := n, draw := s.draw + 1 })

/-! ## The interrupt: entry and return -/

/-- Entry to the handler (60_exceptions.md R188; 41_receiver.md R124): `p_phase` leaves `P_IDLE` for `P_FETCH` and
`p_isr` is set. Nothing of Q is saved: Q is frozen. -/
def enterHandler (s : State) : State := { s with pPhase := .fetch, pIsr := true }

/-- Return from the handler (R190; R125 step 3): the push result is dropped, and there is nothing to restore. -/
def leaveHandler (s : State) : State := { s with pPhase := .idle }

/-! ## Admission of an operation -/

/-- Both pointers are in `0 .. C-1`, and `length` in `0 .. N-1` (10_state.md R26, R38). -/
def indicesLegal (s : State) : Bool :=
  decide (s.head < s.cfg.C) && decide (s.tail < s.cfg.C) && decide (s.length < s.cfg.N)

/-- `k` where the parameters and the indices are ones the spec gives a meaning to (U18; 20_memory.md R51). -/
def withLegalShape (s : State) (k : Host.Outcome State Fault Refusal) : Host.Outcome State Fault Refusal :=
  if s.cfg.wf = false then .refused .badParameters
  else if indicesLegal s = false then .refused .indexOutOfRange
  else k

/-- `k` where the issuer is one that `allowed` admits (60_exceptions.md R193, R199). -/
def withIssuer (allowed : List Agent) (s : State) (k : Host.Outcome State Fault Refusal) :
    Host.Outcome State Fault Refusal :=
  match s.issuer with
  | .further _ => .refused .furtherAgent
  | .p => if allowed.contains .p then k else .refused .wrongAgent
  | .q => if allowed.contains .q then k else .refused .wrongAgent
  | .e => if allowed.contains .e then k else .refused .wrongAgent
  | .s => if allowed.contains .s then k else .refused .wrongAgent

/-- `k` where `INIT` has completed (70_reset_and_hazards.md R210). -/
def afterInit (s : State) (k : Host.Outcome State Fault Refusal) : Host.Outcome State Fault Refusal :=
  match s.life with
  | .startup => .refused .beforeInit
  | .active => k

/-- Whether P has an operation in progress. -/
def pBusy (s : State) : Bool := s.pPhase != .idle

/-- Whether Q has an operation in progress. -/
def qBusy (s : State) : Bool := s.qOp != .none || s.qPhase != .idle

/-- `k` where the scheduler lets Q act: under `SCHED = Preempt`, Q takes no step inside an operation of P
(20_memory.md R61; 60_exceptions.md R186). -/
def whenQMayRun (s : State) (k : Host.Outcome State Fault Refusal) : Host.Outcome State Fault Refusal :=
  if s.cfg.sched = .preempt ∧ pBusy s = true then .refused .notSchedulable else k

/-- `k` where P is idle: an operation of P starts from `P_IDLE` only (41_receiver.md R129, R131). -/
def whenPIdle (s : State) (k : Host.Outcome State Fault Refusal) : Host.Outcome State Fault Refusal :=
  if pBusy s = true then .refused .agentBusy else k

/-- `k` where Q may act and is idle (93_implementation_defined.md U17). -/
def whenQIdle (s : State) (k : Host.Outcome State Fault Refusal) : Host.Outcome State Fault Refusal :=
  whenQMayRun s (if qBusy s = true then .refused .agentBusy else k)

/-- What an operation issued by P needs: P is its issuer, `INIT` has completed, P is idle. -/
def admitP (s : State) (k : Host.Outcome State Fault Refusal) : Host.Outcome State Fault Refusal :=
  withLegalShape s (withIssuer [.p] s (afterInit s (whenPIdle s k)))

/-- What an operation issued by Q needs: Q is its issuer, `INIT` has completed, Q may act and is idle. -/
def admitQ (s : State) (k : Host.Outcome State Fault Refusal) : Host.Outcome State Fault Refusal :=
  withLegalShape s (withIssuer [.q] s (afterInit s (whenQIdle s k)))

/-- `f` applied to the next state, where there is one. -/
def thenRun (o : Host.Outcome State Fault Refusal) (f : State → State) : Host.Outcome State Fault Refusal :=
  match o with
  | .next s => .next (f s)
  | .fault r => .fault r
  | .refused r => .refused r

end Sys2Proof.Machine
end

