-- ==== Sys2Proof/Machine/Interpreter.lean ====
section
/-! DEFINITION. The CommandInterpreter's transition table, as the list of what Q does for one byte, and its start
(43_command_interpreter.md R145 to R161). -/

namespace Sys2Proof.Machine

/-- The CommandTable (R146): exact command string to command. -/
def commandTable : List (List Byte × Command) :=
  [(Text.help, .help), (Text.ledOn, .ledOn), (Text.ledOff, .ledOff), (Text.toggle, .toggle), (Text.status, .status)]

/-- Lookup by exact, case-sensitive equality over the whole line (R154). -/
def lookupCommand (line : List Byte) : Option Command :=
  (commandTable.find? fun entry => entry.1 == line).map Prod.snd

/-- The message of a command (R155 to R159); that of `STATUS` depends on the level `v` of the pin. -/
def messageOf (c : Config) (v : Bool) (cmd : Command) : List Byte :=
  match cmd with
  | .help => c.msgHelp
  | .ledOn => c.msgLedOn
  | .ledOff => c.msgLedOff
  | .toggle => c.msgToggle
  | .status => if v then c.msgStatusOn else c.msgStatusOff

/-- `emit(s)`: `transmit` of each byte of `s` in order (00_scope.md R13). -/
def emitActs (bytes : List Byte) : List CiAct := bytes.map .transmit

/-- Step 3 of row CR (R150): the effect and message of the entry the line equals, or the report of an unknown command,
or nothing for the empty line (R161). -/
def dispatchActs (s : State) (line : List Byte) : List CiAct :=
  match lookupCommand line with
  | some cmd => .effect cmd :: emitActs (messageOf s.cfg (getOutput s.cfg.pinLed s) cmd)
  | none =>
    if s.length > 0 then .unknown line :: emitActs (Text.unknownCommand ++ line ++ Text.hint) else []

/-- Row CR (R150). -/
def rowCr (s : State) : List CiAct :=
  emitActs Text.crlf ++ dispatchActs s (currentLine s) ++ .resetLength :: emitActs Text.prompt

/-- Row ERASE (R151): the three bytes are transmitted whether or not a character was removed. -/
def rowErase : List CiAct := .erase :: emitActs Text.erase

/-- Row APPEND (R152). -/
def rowAppend (c : Byte) : List CiAct := [.append c, .transmit c]

/-- Row DROP (R153). -/
def rowDrop (c : Byte) : List CiAct := [.drop c]

/-- The transition table applied to a byte: the rows are tested in this order (R149). -/
def ciRow (c : Byte) (s : State) : List CiAct :=
  if c = Text.cr then rowCr s
  else if c = Text.del ∨ c = Text.backspace then rowErase
  else if s.length < s.cfg.N - 1 then rowAppend c
  else rowDrop c

/-- The effect of a command on the pin (R155 to R159). -/
def runEffect (cmd : Command) (s : State) : State :=
  match cmd with
  | .help => s
  | .ledOn => setOutput s.cfg.pinLed true s
  | .ledOff => setOutput s.cfg.pinLed false s
  | .toggle => setOutput s.cfg.pinLed (!getOutput s.cfg.pinLed s) s
  | .status => s

/-- `chars[length] <- c; length <- length + 1; chars[length] <- 0x00` (R152 steps 1 to 3). -/
def appendChar (c : Byte) (s : State) : State :=
  let s1 := { putChar s.length c s with length := s.length + 1 }
  putChar s1.length 0#8 s1

/-- `if length > 0 then length <- length - 1` (R151 step 1; 40_ringbuffer.md R103). -/
def eraseChar (s : State) : State := { s with length := if s.length > 0 then s.length - 1 else s.length }

/-- One of the things Q does for the byte in hand. -/
def doAct (a : CiAct) (s : State) : State :=
  match a with
  | .transmit b => transmit b s
  | .effect cmd => runEffect cmd s
  | .unknown line => record (.unknownCommand line) s
  | .resetLength => { s with length := 0 }
  | .append c => appendChar c s
  | .erase => eraseChar s
  | .drop c => record (.inputTruncated c) s

/-- All of them in order. -/
def doActs (acts : List CiAct) (s : State) : State :=
  match acts with
  | [] => s
  | a :: rest => doActs rest (doAct a s)

/-- Q turns to the interpreter's work for the byte `c`. -/
def beginRow (c : Byte) (s : State) : State := { s with qPhase := .idle, qWork := ciRow c s }

end Sys2Proof.Machine
end

