-- ==== Sys2Proof/Machine/Consumer.lean ====
section
/-! DEFINITION. The micro-steps of Q: `try_pop` and `is_empty` as Q's own code runs them (40_ringbuffer.md R105, R106),
the poll loop of `read_byte` (42_linereader.md R135), and the interpreter's work (43_command_interpreter.md R148,
R149). -/

namespace Sys2Proof.Machine

/-- Q's operation is over. -/
def qDone (s : State) : State := { s with qPhase := .idle, qOp := .none, qWork := [] }

/-- Step 1 of `try_pop` and `is_empty`: Q samples `head` (R105, R106). -/
def sampleHead (s : State) : State :=
  let r := readHeadFromQ s
  { r.2 with qHeadSeen := r.1 }

/-- `Q_SAMPLE`: the sample, after which the operation works from its copy and does not look at `head` again (10_state.md
R43). -/
def qSample (s : State) : State :=
  match s.qOp with
  | .tryPop => { sampleHead s with qPhase := .read }
  | .isEmpty => { sampleHead s with qPhase := .read }
  | .readByte => { sampleHead s with qPhase := .read }
  | .dataAvailable => { sampleHead s with qPhase := .read }
  | .ciIter => { sampleHead s with qPhase := .read }
  | .none => qDone s
  | .ciStep => qDone s
  | .ciStart => qDone s

/-- The pop saw no byte: `try_pop` returns `None` (R105 step 2); `read_byte`, which the main loop too waits in, goes back
to its step 1 (R135). -/
def popEmpty (s : State) : State :=
  match s.qOp with
  | .tryPop => qDone (deliver .q (optionByteWord none) (record .popNone s))
  | .readByte => { record .popNone s with qPhase := .sample }
  | .ciIter => { record .popNone s with qPhase := .sample }
  | .none => qDone s
  | .isEmpty => qDone s
  | .dataAvailable => qDone s
  | .ciStep => qDone s
  | .ciStart => qDone s

/-- The slot read of a pop (R105 step 3), or its return where the sample showed no byte (R105 step 2). -/
def popRead (s : State) : State :=
  if s.qHeadSeen = s.tail then popEmpty s else { s with qByte := slotByte s s.tail, qPhase := .publish }

/-- `Q_READ`: `head` has been sampled. The test of the sample is made here, in the micro-step after it, so that a handler
run may fall between Q's sample and Q's return (20_memory.md R68; 95_test_vectors.md V23); it reads only what Q alone
writes. -/
def qRead (s : State) : State :=
  match s.qOp with
  | .tryPop => popRead s
  | .readByte => popRead s
  | .ciIter => popRead s
  | .isEmpty => qDone (deliver .q (boolWord (s.qHeadSeen == s.tail)) s)
  | .dataAvailable => qDone (deliver .q (boolWord (!(s.qHeadSeen == s.tail))) s)
  | .none => qDone s
  | .ciStep => qDone s
  | .ciStart => qDone s

/-- The byte popped goes to whoever asked for it (R105 step 5, R135 step 3, R148 step 2). -/
def popReturn (s : State) : State :=
  match s.qOp with
  | .tryPop => qDone (deliver .q (optionByteWord (some s.qByte)) s)
  | .readByte => qDone (deliver .q (byteWord s.qByte) s)
  | .ciIter => beginRow s.qByte s
  | .none => qDone s
  | .isEmpty => qDone s
  | .dataAvailable => qDone s
  | .ciStep => qDone s
  | .ciStart => qDone s

/-- `Q_PUBLISH` (R105 step 4): the advance of `tail`, after the slot read (70_reset_and_hazards.md R221). -/
def qPublish (s : State) : State :=
  popReturn (record (.popSome s.qByte s.tail)
    { s with tail := nextIndex s.cfg s.tail, pops := s.pops + 1 })

/-- One thing of the interpreter's work; when none is left, the operation returns. -/
def qWorkStep (s : State) : State :=
  match s.qWork with
  | [] => qDone s
  | a :: rest => { doAct a s with qWork := rest }

/-- One micro-step of Q. -/
def qStep (s : State) : State :=
  match s.qPhase with
  | .sample => qSample s
  | .read => qRead s
  | .publish => qPublish s
  | .idle => qWorkStep s

/-- All of the interpreter's work without a break, where that is what Q is doing. -/
def finishWork (s : State) : State :=
  match s.qPhase with
  | .idle => qDone (doActs s.qWork s)
  | .sample => s
  | .read => s
  | .publish => s

/-- The rest of one pass of `try_pop` or `is_empty` after its sample, without a break. -/
def finishRead (s : State) : State :=
  match (qRead s).qPhase with
  | .publish => qPublish (qRead s)
  | .idle => qRead s
  | .sample => qRead s
  | .read => qRead s

/-- The rest of one pass of `try_pop` or `is_empty` without a break, up to its return. -/
def finishPop (s : State) : State :=
  match s.qPhase with
  | .idle => s
  | .sample =>
    match (qSample s).qPhase with
    | .read => finishRead (qSample s)
    | .idle => qSample s
    | .sample => qSample s
    | .publish => qSample s
  | .read => finishRead s
  | .publish => qPublish s

/-- The rest of Q's operation without a break, until it returns or has polled an empty buffer once (R135, R179). -/
def qFinish (s : State) : State := finishWork (finishPop s)

end Sys2Proof.Machine
end

