-- ==== Sys2Proof/Machine/Client.lean ====
section
/-! DEFINITION. The meanings of CI_ITER and CI_STEP, and the interpreter's start (43_command_interpreter.md R147, R148,
R149). -/

namespace Sys2Proof.Machine

/-- The issue of CI_ITER. -/
def beginCiIter (s : State) : Host.Outcome State Fault Refusal :=
  admitQ s (.next { s with qOp := .ciIter, qPhase := .sample })

/-- CI_ITER (R148): one iteration of the main loop. Where no byte is seen Q has polled once and is still waiting. -/
def execCiIter (s : State) : Host.Outcome State Fault Refusal := thenRun (beginCiIter s) qFinish

/-- The issue of CI_STEP. -/
def beginCiStep (c : Byte) (s : State) : Host.Outcome State Fault Refusal :=
  admitQ s (.next (beginRow c { s with qOp := .ciStep }))

/-- CI_STEP `c` (R149): the transition table applied to one byte. -/
def execCiStep (c : Byte) (s : State) : Host.Outcome State Fault Refusal := thenRun (beginCiStep c s) qFinish

/-- The interpreter's start (R147; 70_reset_and_hazards.md R212): `length <- 0`, then `emit(MSG_BANNER)`, once in a run.
It has no op-word: it is Q's own first step into the main loop. -/
def beginInterpreter (s : State) : Host.Outcome State Fault Refusal :=
  withLegalShape s (afterInit s (whenQIdle s (
    if s.interpStarted then .refused .alreadyStarted
    else .next { s with length := 0, interpStarted := true, qOp := .ciStart, qWork := emitActs s.cfg.msgBanner })))

end Sys2Proof.Machine
end

