-- ==== Sys2Proof/Machine/LineReader.lean ====
section
/-! DEFINITION. The meanings of READ_BYTE and DATA_AVAILABLE (42_linereader.md R135, R136). -/

namespace Sys2Proof.Machine

/-- The issue of READ_BYTE. -/
def beginReadByte (s : State) : Host.Outcome State Fault Refusal :=
  admitQ s (.next { s with qOp := .readByte, qPhase := .sample })

/-- READ_BYTE (R135). Where a byte is seen it returns; where none is, Q has polled once and is still waiting: the next
poll is a step of its own (R179). -/
def execReadByte (s : State) : Host.Outcome State Fault Refusal := thenRun (beginReadByte s) qFinish

/-- The issue of DATA_AVAILABLE. -/
def beginDataAvailable (s : State) : Host.Outcome State Fault Refusal :=
  admitQ s (.next { s with qOp := .dataAvailable, qPhase := .sample })

/-- DATA_AVAILABLE (R136): `not is_empty()`, issued by Q. -/
def execDataAvailable (s : State) : Host.Outcome State Fault Refusal := thenRun (beginDataAvailable s) qFinish

end Sys2Proof.Machine
end

