-- ==== Sys2Proof/Machine/Producer.lean ====
section
/-! DEFINITION. The micro-steps of P: the Receiver as a state machine, with `try_push` inside it (41_receiver.md R126;
40_ringbuffer.md R104, R109). -/

namespace Sys2Proof.Machine

/-- `P_FETCH` (R125 step 1): the one read of `rx_data`, which clears `rx_ready`. -/
def pFetch (s : State) : State :=
  let r := readRxData s
  record (.isrRead r.1) { r.2 with pByte := r.1, pPhase := .sample }

/-- `P_SAMPLE` (R104 step 1): the sample of `tail` and the full test. In the legacy form there is neither (R109,
R126). -/
def pSample (s : State) : State :=
  if s.cfg.legacyOverwrite then { s with pPhase := .write }
  else
    let r := readTailFromP s
    if nextIndex s.cfg s.head = r.1 then
      record (.dataLoss s.pByte) { r.2 with pTailSeen := r.1, pOk := false, pPhase := .ret }
    else { r.2 with pTailSeen := r.1, pPhase := .write }

/-- `P_WRITE` (R104 step 3): the slot write. -/
def pWrite (s : State) : State := { putSlot s.head s.pByte s with pPhase := .publish }

/-- `P_PUBLISH` (R104 step 4): the advance of `head`, after the slot write (70_reset_and_hazards.md R220). -/
def pPublish (s : State) : State :=
  record (.pushOk s.pByte s.head)
    { s with head := nextIndex s.cfg s.head, pushes := s.pushes + 1, pOk := true, pPhase := .ret }

/-- `P_RET` (R126): the handler drops the push result (R128); a direct push returns it to its issuer, and
so does IS_EMPTY by P its answer (40_ringbuffer.md R106). -/
def pReturn (s : State) : State :=
  if s.pIsr then leaveHandler s else deliver .p (boolWord s.pOk) { s with pPhase := .idle }

/-- One transition of P by the table of R126. From `P_IDLE` P moves only when an operation is begun. -/
def pStep (s : State) : State :=
  match s.pPhase with
  | .idle => s
  | .fetch => pFetch s
  | .sample => pSample s
  | .write => pWrite s
  | .publish => pPublish s
  | .ret => pReturn s

/-- The rest of P's operation without a break: "the handler always reaches `P_IDLE` again in at most five
transitions" (R126), and `pStep` changes nothing in `P_IDLE`. -/
def pFinish (s : State) : State := pStep (pStep (pStep (pStep (pStep s))))

/-- The signal `push_drop` (30_encoding.md R94): P's next micro-step is the one that rejects its byte. -/
def pushDrop (s : State) : Bool := s.pPhase == .sample && (pSample s).pPhase == .ret

end Sys2Proof.Machine
end

