-- ==== Sys2Proof/Machine/Receiver.lean ====
section
/-! DEFINITION. The meanings of RX_ARRIVE and RX_IRQ (41_receiver.md R120, R122, R124, R125). -/

namespace Sys2Proof.Machine

/-- The arrival of a byte: one micro-step (R120). -/
def arriveByte (b : Byte) (s : State) : State := record (.arrive b) { s with rxData := b, rxReady := true }

/-- An arrival while `rx_ready` is set, under `RX_OVERRUN = OPEN`: which byte survives, the level of the flag, whether
an event is left and whether a further flag is raised are free (R122). DESIGN CHOICE (log entry 14): the rule says of a
further flag only that one may be set; that, once raised, it stays raised (`||` here, and no step lowers it) and that
nothing but these parts and the history is touched is the model's choice. -/
def overrunByte (b : Byte) (s : State) : State :=
  let s1 := { s with
    rxData := Config.overrunData s.draw s.rxData b
    rxReady := Config.overrunReady s.draw
    rxFurther := s.rxFurther || Config.overrunFlag s.draw
    draw := s.draw + 1 }
  if Config.overrunRecorded s.draw then record (.arrive b) s1 else s1

/-- RX_ARRIVE `b` (R120; R122 where `rx_ready` is already set). E may act at any moment, whatever P and Q are doing. -/
def execRxArrive (b : Byte) (s : State) : Host.Outcome State Fault Refusal :=
  withLegalShape s (withIssuer [.e] s (afterInit s (
    if s.rxReady then
      match s.cfg.rxOverrun with
      | .excluded => .refused .overrunExcluded
      | .openBehaviour => .next (overrunByte b s)
    else .next (arriveByte b s))))

/-- The dispatch of the handler (R124), by the hardware or by the issue of RX_IRQ, which "stands for 'the runtime
invokes the handler now'" (R125). -/
def beginRxIrq (s : State) : Host.Outcome State Fault Refusal :=
  admitP s (if dispatchDue s then .next (enterHandler s) else .refused .noPendingByte)

/-- RX_IRQ (R125): a whole handler invocation, from its dispatch to its return. -/
def execRxIrq (s : State) : Host.Outcome State Fault Refusal := thenRun (beginRxIrq s) pFinish

end Sys2Proof.Machine
end

