-- ==== Sys2Proof/Machine/RingBuffer.lean ====
section
/-! DEFINITION. The meanings of TRY_PUSH, TRY_POP and IS_EMPTY (40_ringbuffer.md R104, R105, R106, R109). -/

namespace Sys2Proof.Machine

/-- The issue of TRY_PUSH (41_receiver.md R126, third row). -/
def beginTryPush (b : Byte) (s : State) : Host.Outcome State Fault Refusal :=
  admitP s (.next { s with pByte := b, pIsr := false, pPhase := .sample })

/-- TRY_PUSH `b` (R104; R109 when `LEGACY_OVERWRITE`). -/
def execTryPush (b : Byte) (s : State) : Host.Outcome State Fault Refusal := thenRun (beginTryPush b s) pFinish

/-- The issue of TRY_POP. -/
def beginTryPop (s : State) : Host.Outcome State Fault Refusal :=
  admitQ s (.next { s with qOp := .tryPop, qPhase := .sample })

/-- TRY_POP (R105). -/
def execTryPop (s : State) : Host.Outcome State Fault Refusal := thenRun (beginTryPop s) qFinish

/-- IS_EMPTY issued by P (R106): P samples `tail`, and the answer is known but not yet returned (`P_RET`, 10_state.md
R30). The return is the one a direct push makes, so the answer waits in `p_ok`. -/
def isEmptyByP (s : State) : State :=
  let r := readTailFromP s
  { r.2 with pTailSeen := r.1, pOk := s.head == r.1, pIsr := false, pPhase := .ret }

/-- The issue of IS_EMPTY, by either side (R106). -/
def beginIsEmpty (s : State) : Host.Outcome State Fault Refusal :=
  withLegalShape s (withIssuer [.p, .q] s (afterInit s (
    if s.issuer = .p then whenPIdle s (.next (isEmptyByP s))
    else whenQIdle s (.next { s with qOp := .isEmpty, qPhase := .sample }))))

/-- IS_EMPTY (R106). -/
def execIsEmpty (s : State) : Host.Outcome State Fault Refusal :=
  thenRun (beginIsEmpty s) (if s.issuer = .p then pFinish else qFinish)

end Sys2Proof.Machine
end

