-- ==== Sys2Proof/Machine/Startup.lean ====
section
/-! DEFINITION. The meaning of INIT (70_reset_and_hazards.md R207, R208). -/

namespace Sys2Proof.Machine

/-- INIT step 1: no handler can run from here on. -/
def disableInterrupt (s : State) : State := { s with rxIe := false }

/-- INIT step 2: the only place one agent writes both pointers. -/
def clearPointers (s : State) : State :=
  { s with head := 0, tail := 0, pushes := 0, pops := 0, seenHeadN := 0, seenTailN := 0 }

/-- INIT step 3: a byte left pending is read and discarded, which clears the flag; with no byte pending the flag is
clear already. Either way it is clear afterwards, and nothing else has changed. -/
def flushPending (s : State) : State := (readRxData s).2

/-- INIT step 4, after which the startup code ends. -/
def enableInterrupt (s : State) : State := { s with rxIe := true, life := .active }

/-- The startup sequence (R208), in this order (R209). -/
def initSequence (s : State) : State := enableInterrupt (flushPending (clearPointers (disableInterrupt s)))

/-- INIT (R208): issued by S, once, as the first operation of the run, with both agents idle. -/
def execInit (s : State) : Host.Outcome State Fault Refusal :=
  withLegalShape s (withIssuer [.s] s (
    match s.life with
    | .active => .refused .alreadyStarted
    | .startup => if pBusy s = true ∨ qBusy s = true then .refused .agentBusy else .next (initSequence s)))

end Sys2Proof.Machine
end

