-- ==== Sys2Proof/Machine/Dispatch.lean ====
section
/-! DEFINITION. One arm per operation of the opcode map. -/

namespace Sys2Proof.Machine

/-- An operation issued by `s.issuer` and run without a break, until it returns or has polled an empty buffer once. -/
def exec (i : Instr) (s : State) : Host.Outcome State Fault Refusal :=
  match i with
  | .tryPush b => Sys2Proof.Machine.execTryPush b s
  | .tryPop => Sys2Proof.Machine.execTryPop s
  | .isEmpty => Sys2Proof.Machine.execIsEmpty s
  | .rxIrq => Sys2Proof.Machine.execRxIrq s
  | .rxArrive b => Sys2Proof.Machine.execRxArrive b s
  | .readByte => Sys2Proof.Machine.execReadByte s
  | .dataAvailable => Sys2Proof.Machine.execDataAvailable s
  | .ciIter => Sys2Proof.Machine.execCiIter s
  | .ciStep c => Sys2Proof.Machine.execCiStep c s
  | .init => Sys2Proof.Machine.execInit s

end Sys2Proof.Machine
end

