-- ==== Sys2Proof/Machine/Schedule.lean ====
section
/-! DEFINITION. How the agents take turns: what a schedule line does (30_encoding.md R89), what the machine does of
itself where the schedule names no line (20_memory.md R61), and how one op-word is presented to it. -/

namespace Sys2Proof.Machine

/-- The operation begun and no more (for an operation of one micro-step, all of it; for IS_EMPTY by P, its sample): the
lines `<agent>: <operation>.<step>` run the rest. -/
def begin (i : Instr) (s : State) : Host.Outcome State Fault Refusal :=
  match i with
  | .tryPush b => beginTryPush b s
  | .tryPop => beginTryPop s
  | .isEmpty => beginIsEmpty s
  | .rxIrq => beginRxIrq s
  | .rxArrive b => execRxArrive b s
  | .readByte => beginReadByte s
  | .dataAvailable => beginDataAvailable s
  | .ciIter => beginCiIter s
  | .ciStep c => beginCiStep c s
  | .init => execInit s

/-- `f` on the operation P has in progress. -/
def continueP (f : State → State) (s : State) : Host.Outcome State Fault Refusal :=
  withLegalShape s (if pBusy s = true then .next (f s) else .refused .nothingInProgress)

/-- `f` on the operation Q has in progress, where the scheduler lets Q act. -/
def continueQ (f : State → State) (s : State) : Host.Outcome State Fault Refusal :=
  withLegalShape s (whenQMayRun s (if qBusy s = true then .next (f s) else .refused .nothingInProgress))

/-- `fp` or `fq` on the operation agent `a` has in progress; E and S have operations of one step only. -/
def continueOp (a : Agent) (fp fq : State → State) (s : State) : Host.Outcome State Fault Refusal :=
  match a with
  | .p => continueP fp s
  | .q => continueQ fq s
  | .e => .refused .nothingInProgress
  | .s => .refused .nothingInProgress
  | .further _ => .refused .furtherAgent

/-- An op-word issued by agent `a` and handed to `run`; one that spells no operation is refused (R87). -/
def issueWord (a : Agent) (w : Word) (run : Instr → State → Host.Outcome State Fault Refusal) (s : State) :
    Host.Outcome State Fault Refusal :=
  match decode w with
  | .ok i => run i { s with issuer := a }
  | .error e => .refused (.illegalOpWord e)

/-- What a schedule line does. -/
def takeTurn (t : Turn) (s : State) : Host.Outcome State Fault Refusal :=
  match t with
  | .issue a w => issueWord a w exec s
  | .start a w => issueWord a w begin s
  | .micro a => continueOp a pStep qStep s
  | .resume a => continueOp a pFinish qFinish s
  | .interpreterStart => beginInterpreter s
  | .wait => .next s

/-- P's own next move: the next transition of the handler, or the dispatch that is due, or none (41_receiver.md R124,
R126). -/
def ownTurnP (s : State) : Turn :=
  if pBusy s then .micro .p else if dispatchDue s then .start .p 0x4000#16 else .wait

/-- Q's own next move (70_reset_and_hazards.md R212): the next micro-step, or the interpreter's start, or the next
iteration of the main loop. Under `SCHED = Preempt` it has none inside an operation of P. -/
def ownTurnQ (s : State) : Turn :=
  if s.cfg.sched = .preempt ∧ pBusy s = true then .wait
  else if qBusy s then .micro .q
  else if s.interpStarted then .start .q 0x8000#16
  else .interpreterStart

/-- E's own next move (41_receiver.md R123): it may deliver any byte where the parameters allow an arrival, and it may
deliver nothing, which is another agent's turn. -/
def ownTurnE (s : State) : Turn :=
  if s.rxReady = true ∧ s.cfg.rxOverrun = .excluded then .wait
  else .start .e (0x5000#16 + (Config.freeArrival s.draw).setWidth 16)

/-- What the machine does of itself, where no schedule line says: the startup code runs first (60_exceptions.md R194);
after it, which agent acts is free (93_implementation_defined.md U3). -/
def ownTurn (s : State) : Turn :=
  match s.life with
  | .startup => .start .s 0xA000#16
  | .active =>
    match Config.freeAgent s.draw with
    | 0 => ownTurnP s
    | 1 => ownTurnQ s
    | 2 => ownTurnE s
    | _ => .wait

/-- One step: the next schedule line, or the machine's own next move. -/
def takeNext (s : State) : Host.Outcome State Fault Refusal :=
  match s.schedule with
  | t :: rest => takeTurn t { s with schedule := rest }
  | [] => takeTurn (ownTurn s) { s with draw := s.draw + 1 }

/-! ## One op-word presented to the machine -/

/-- The agent that the opcode map gives the operation to (30_encoding.md R86); for IS_EMPTY the consumer, which is the
use the document shows. -/
def usualIssuer (i : Instr) : Agent :=
  match i with
  | .tryPush _ => .p
  | .tryPop => .q
  | .isEmpty => .q
  | .rxIrq => .p
  | .rxArrive _ => .e
  | .readByte => .q
  | .dataAvailable => .q
  | .ciIter => .q
  | .ciStep _ => .q
  | .init => .s

/-- What must have happened before the first operation of a run other than INIT can be that operation: the startup
sequence (R210), and for RX_IRQ the arrival of a byte (R124). A machine past its startup is left as it is. -/
def readyFor (i : Instr) (s : State) : State :=
  match s.life, i with
  | .active, _ => s
  | .startup, .init => s
  | .startup, .rxIrq => { initSequence s with rxReady := true }
  | .startup, .tryPush _ => initSequence s
  | .startup, .tryPop => initSequence s
  | .startup, .isEmpty => initSequence s
  | .startup, .rxArrive _ => initSequence s
  | .startup, .readByte => initSequence s
  | .startup, .dataAvailable => initSequence s
  | .startup, .ciIter => initSequence s
  | .startup, .ciStep _ => initSequence s

/-- The machine with the op-word `w` as its next schedule line, issued whole by the operation's own agent. -/
def presentWord (w : Word) (s : State) : State :=
  match decode w with
  | .ok i => { readyFor i s with schedule := .issue (usualIssuer i) w :: s.schedule }
  | .error _ => { s with schedule := .issue .q w :: s.schedule }

end Sys2Proof.Machine
end

