-- ==== Sys2Proof/Machine/Step.lean ====
section
/-! DEFINITION. One step of the machine, and how the host presents one op-word to it. -/

namespace Sys2Proof.Machine

/-- One step: the next schedule line, or the machine's own next move (Schedule.lean). -/
def step (s : State) : Host.Outcome State Fault Refusal := takeNext s

/-- The op-word of `nbits` bits, the bits above them zero, where `step` takes its next request (Schedule.lean). -/
def State.withFetchWord (s : State) (nbits w : Nat) : State := presentWord (BitVec.ofNat 16 (w % 2 ^ nbits)) s

end Sys2Proof.Machine
end

