-- ==== Sys2Proof/Safety.lean ====
section
/-! DEFINITION. What a legal state is, what the conforming FIFO keeps true, and what the spec says of whole runs:
quiescence and the fairness assumptions. Claims are stated in these terms. -/

namespace Sys2Proof.Safety

open Sys2Proof.Machine

/-! ## What the history says -/

/-- The bytes of the accepted pushes, in order (10_state.md R46). -/
def pushedBytes (h : List Event) : List Byte :=
  h.filterMap fun e => match e with
    | .pushOk b _ => some b
    | _ => none

/-- The bytes of the successful pops, in order. -/
def poppedBytes (h : List Event) : List Byte :=
  h.filterMap fun e => match e with
    | .popSome b _ => some b
    | _ => none

/-! ## Legal states -/

/-- The operations of Q that begin by sampling `head`. -/
def samplingOps : List QOp := [.tryPop, .isEmpty, .readByte, .dataAvailable, .ciIter]

/-- The operations of Q that pop. -/
def poppingOps : List QOp := [.tryPop, .readByte, .ciIter]

/-- The legal values of the state's parts, for every choice of the parameters (10_state.md R26, R32, R33, R37 to R39;
00_scope.md R6, R7; 70_reset_and_hazards.md R205; 60_exceptions.md R182). -/
structure LegalState (s : State) : Prop where
  params : s.cfg.wf = true
  headInRange : s.head < s.cfg.C
  tailInRange : s.tail < s.cfg.C
  lengthInRange : s.length < s.cfg.N
  storageForm : memWf s.storage = true ∧ memBelow s.cfg.C s.storage = true
  charsForm : memWf s.chars = true ∧ memBelow s.cfg.N s.chars = true
  lineWritten : ∀ i < s.length, (memGet s.chars i).isSome = true
  appendFits : ∀ c, CiAct.append c ∈ s.qWork → s.qWork = rowAppend c ∧ s.length + 1 < s.cfg.N
  qAtRest : s.qOp = .none → s.qPhase = .idle ∧ s.qWork = []
  qSampling : s.qPhase = .sample → s.qOp ∈ samplingOps ∧ s.qWork = []
  qReading : s.qPhase = .read → s.qOp ∈ samplingOps ∧ s.qWork = []
  qPublishing : s.qPhase = .publish → s.qOp ∈ poppingOps ∧ s.qWork = []
  beforeInit : s.life = .startup →
    s.pPhase = .idle ∧ s.qOp = .none ∧ s.rxIe = false ∧ s.history = [] ∧ s.interpStarted = false
  enabledAfterInit : s.life = .active → s.rxIe = true

/-! ## The conforming FIFO -/

/-- What holds of the FIFO under `LEGACY_OVERWRITE = false`, for either `VIS` and either `SCHED` (10_state.md R45;
20_memory.md R67; 40_ringbuffer.md R108): the pointers are the counters modulo `C`; the counters keep the chain; what
has been popped is what has been pushed, in order; the live slots hold the bytes still to be popped; and an operation in
the middle of its micro-steps has room, or a byte, for the rest of them. -/
structure FifoState (s : State) : Prop where
  headNumber : s.head = s.pushes % s.cfg.C
  tailNumber : s.tail = s.pops % s.cfg.C
  chain : s.seenTailN ≤ s.pops ∧ s.pops ≤ s.seenHeadN ∧ s.seenHeadN ≤ s.pushes ∧ s.pushes + 1 ≤ s.seenTailN + s.cfg.C
  pushCount : (pushedBytes s.history).length = s.pushes
  order : poppedBytes s.history = (pushedBytes s.history).take s.pops
  liveSlots : ∀ k, s.pops ≤ k → k < s.pushes → memGet s.storage (k % s.cfg.C) = (pushedBytes s.history)[k]?
  roomToWrite : s.pPhase = .write ∨ s.pPhase = .publish → s.pushes + 2 ≤ s.seenTailN + s.cfg.C
  slotWritten : s.pPhase = .publish → memGet s.storage s.head = some s.pByte
  sampleKept : s.qPhase = .read → s.qHeadSeen = s.seenHeadN % s.cfg.C
  byteToRead : s.qPhase = .publish → s.pops < s.seenHeadN
  byteRead : s.qPhase = .publish → (pushedBytes s.history)[s.pops]? = some s.qByte

/-! ## When an operation may begin, and operations in a row -/

/-- The parameters and indices are legal and `INIT` has completed (70_reset_and_hazards.md R210). -/
def Operational (s : State) : Prop := s.cfg.wf = true ∧ indicesLegal s = true ∧ s.life = .active

/-- An operation issued by P may begin: P is idle (40_ringbuffer.md R104; 41_receiver.md R131). -/
def ReadyP (s : State) : Prop := Operational s ∧ s.issuer = .p ∧ s.pPhase = .idle

/-- An operation issued by Q may begin: Q is idle, and no operation of P is in progress under `SCHED = Preempt`
(40_ringbuffer.md R105; 20_memory.md R61). -/
def ReadyQ (s : State) : Prop :=
  Operational s ∧ s.issuer = .q ∧ s.qOp = .none ∧ s.qPhase = .idle ∧ (s.cfg.sched = .free ∨ s.pPhase = .idle)

/-- The arrival step may happen, overrun or not (41_receiver.md R120). -/
def ReadyE (s : State) : Prop := Operational s ∧ s.issuer = .e

/-- `INIT` may run (70_reset_and_hazards.md R208). -/
def ReadyS (s : State) : Prop :=
  s.cfg.wf = true ∧ indicesLegal s = true ∧ s.life = .startup ∧ s.issuer = .s ∧ s.pPhase = .idle ∧
  s.qOp = .none ∧ s.qPhase = .idle

/-- Whole operations one after another, each issued by the agent beside it. -/
def execAll (reqs : List Request) (s : State) : Host.Outcome State Fault Refusal :=
  match reqs with
  | [] => .next s
  | r :: rest =>
    match exec r.op { s with issuer := r.agent } with
    | .next t => execAll rest t
    | .fault f => .fault f
    | .refused f => .refused f

/-- A byte that is no editing key and no CR (43_command_interpreter.md R149). -/
def ordinary (c : Byte) : Bool := c != Text.cr && c != Text.del && c != Text.backspace

/-! ## Whole runs -/

/-- A run without end under a schedule without end: line `n` of the schedule takes state `n` to state `n + 1`
(30_encoding.md R89; 20_memory.md R61). -/
def IsRun (turns : Nat → Turn) (run : Nat → State) : Prop := ∀ n, takeTurn (turns n) (run n) = .next (run (n + 1))

/-- The operation a schedule line issues, where it issues one. -/
def issuedBy (t : Turn) : Option Instr :=
  match t with
  | .issue _ w => (decode w).toOption
  | .start _ w => (decode w).toOption
  | .micro _ => none
  | .resume _ => none
  | .interpreterStart => none
  | .wait => none

/-- Whether the turn `t` is E's delivery of a byte (41_receiver.md R120). -/
def isArrival (t : Turn) : Bool :=
  match issuedBy t with
  | some (.rxArrive _) => true
  | _ => false

/-- Whether the turn `t` is a step of Q. -/
def isStepOfQ (t : Turn) : Bool :=
  match t with
  | .issue a _ => a == .q
  | .start a _ => a == .q
  | .micro a => a == .q
  | .resume a => a == .q
  | .interpreterStart => true
  | .wait => false

/-- E delivers no byte from line `n` on. -/
def NoArrivalFrom (turns : Nat → Turn) (n : Nat) : Prop := ∀ m, n ≤ m → isArrival (turns m) = false

/-- The input is finite (70_reset_and_hazards.md R213). -/
def FinitelyManyArrivals (turns : Nat → Turn) : Prop := ∃ n, NoArrivalFrom turns n

/-- The schedule is one of the whole system: what is issued is the environment's arrivals, the handler and the main
loop's iterations, and nothing else (41_receiver.md R131; 70_reset_and_hazards.md R212). -/
def IsSystemSchedule (turns : Nat → Turn) : Prop :=
  ∀ n i, issuedBy (turns n) = some i → i = .rxIrq ∨ i = .ciIter ∨ isArrival (turns n) = true

/-- Nothing is pending, the buffer is empty, and Q polls it: it is about to sample, or has sampled and seen no byte. This
is what rule R213 of 70_reset_and_hazards.md asks of the state; what it asks of the environment is in `QuiescentAt`. -/
def Quiescent (s : State) : Prop :=
  s.rxReady = false ∧ s.pPhase = .idle ∧ s.head = s.tail ∧ (s.qOp = .readByte ∨ s.qOp = .ciIter) ∧
  (s.qPhase = .sample ∨ (s.qPhase = .read ∧ s.qHeadSeen = s.tail))

/-- The run is quiescent at line `n`: its state is, and E will deliver no further byte (R213). -/
def QuiescentAt (turns : Nat → Turn) (run : Nat → State) (n : Nat) : Prop :=
  Quiescent (run n) ∧ NoArrivalFrom turns n

/-- Whether the turn `t` has Q perform `ReadHeadFromQ()` (20_memory.md R62). -/
def samplesHead (t : Turn) (s : State) : Bool :=
  match t with
  | .micro .q => s.qPhase == .sample
  | .resume .q => s.qPhase == .sample
  | .issue .q w => match decode w with
    | .ok .tryPop => true
    | .ok .isEmpty => true
    | .ok .readByte => true
    | .ok .dataAvailable => true
    | .ok .ciIter => true
    | _ => false
  | _ => false

/-- Whether the turn `t` has P perform `ReadTailFromP()` (R62). -/
def samplesTail (t : Turn) (s : State) : Bool :=
  match t with
  | .micro .p => s.pPhase == .sample && !s.cfg.legacyOverwrite
  | .resume .p => (s.pPhase == .fetch || s.pPhase == .sample) && !s.cfg.legacyOverwrite
  | .issue .p w => match decode w with
    | .ok (.tryPush _) => !s.cfg.legacyOverwrite
    | .ok .rxIrq => !s.cfg.legacyOverwrite
    | .ok .isEmpty => true
    | _ => false
  | .start .p w => match decode w with
    | .ok .isEmpty => true
    | _ => false
  | _ => false

/-- Eventual visibility (20_memory.md R62): a pointer value that stays published is seen by a reader that samples
forever. -/
def EventuallyVisible (turns : Nat → Turn) (run : Nat → State) : Prop :=
  (∀ k n, (∀ m, n ≤ m → k ≤ (run m).pushes) →
    (∀ m, ∃ j, m ≤ j ∧ samplesHead (turns j) (run j) = true) → ∃ m, n ≤ m ∧ k ≤ (run m).seenHeadN) ∧
  (∀ k n, (∀ m, n ≤ m → k ≤ (run m).pops) →
    (∀ m, ∃ j, m ≤ j ∧ samplesTail (turns j) (run j) = true) → ∃ m, n ≤ m ∧ k ≤ (run m).seenTailN)

/-- Progress of the agents (20_memory.md R63): (a) where a request is due the handler is dispatched; (b) an operation of
P runs to its return; (c) Q, busy or between two operations, takes its next step, where it cannot be preempted for ever:
where `SCHED = Free`, or where E delivers finitely many bytes; (d) a `transmit` is such a step, so it returns. -/
def AgentsProgress (turns : Nat → Turn) (run : Nat → State) : Prop :=
  (∀ n, dispatchDue (run n) = true → ∃ m, n ≤ m ∧ issuedBy (turns m) = some .rxIrq) ∧
  (∀ n, pBusy (run n) = true → ∃ m, n ≤ m ∧ pBusy (run m) = false) ∧
  (∀ n, (run n).cfg.sched = .free ∨ FinitelyManyArrivals turns → ∃ m, n ≤ m ∧ isStepOfQ (turns m) = true)

/-- The fairness assumptions that a claim of "eventually" rests on (92_eei_decisions.md D10). They are strong enough for
what rule R213 says of them: Laws/Runs.lean proves that a run of the whole system on a finite input becomes quiescent. -/
def Fair (turns : Nat → Turn) (run : Nat → State) : Prop := EventuallyVisible turns run ∧ AgentsProgress turns run

end Sys2Proof.Safety
end

