-- ==== Sys2Proof/Certificates/Slice0/Obligations.lean ====
section
/-! DEFINITION. The statements for the provers. Each docstring names the rule of spec/ it formalises. Unless a docstring
says otherwise a statement holds for every choice of the parameters of rule R8 and for every value of the free values. -/

open Sys2Proof
open Sys2Proof.Machine
open Sys2Proof.Safety

/-! ## Encoding -/

/-- One op-word of each row and one word of each illegal kind (30_encoding.md R86, R87; the words are those of
95_test_vectors.md, parts 2.5 and 3). -/
def Obligations.SampleWordsDecode : Prop :=
  decode 0x1041#16 = .ok (.tryPush 0x41#8) ∧ decode 0x2000#16 = .ok .tryPop ∧ decode 0x3000#16 = .ok .isEmpty ∧
  decode 0x4000#16 = .ok .rxIrq ∧ decode 0x500D#16 = .ok (.rxArrive 0x0D#8) ∧ decode 0x6000#16 = .ok .readByte ∧
  decode 0x7000#16 = .ok .dataAvailable ∧ decode 0x8000#16 = .ok .ciIter ∧
  decode 0x907F#16 = .ok (.ciStep 0x7F#8) ∧ decode 0xA000#16 = .ok .init ∧
  decode 0x0000#16 = .error .reservedOpcode ∧ decode 0xFFFF#16 = .error .reservedOpcode ∧
  decode 0xB000#16 = .error .reservedOpcode ∧ decode 0x1141#16 = .error .zeroFieldNotZero ∧
  decode 0x3100#16 = .error .zeroFieldNotZero ∧ decode 0x2001#16 = .error .operandNotZero ∧
  decode 0xA0FF#16 = .error .operandNotZero

/-- Decoding the op-word of an operation gives the operation back, with every operand (30_encoding.md R80 to R86). -/
def Obligations.DecodeOfEncodeIsTheOperation : Prop := ∀ i : Instr, decode (encode i) = .ok i

/-- The decoder and the opcode map agree on every word: a word that decodes selects exactly one row, the row of its
operation, and is the op-word of that operation, so no bit of it is ignored; a word that does not decode selects none
(30_encoding.md R86, R87). -/
def Obligations.DecoderAgreesWithTheOpcodeMap : Prop :=
  ∀ w : Word,
    match decode w with
    | .ok i => (opTable.filter fun r => r.selects w).map OpRow.mnemonic = [i.mnemonic] ∧ encode i = w
    | .error _ => (opTable.filter fun r => r.selects w) = []

/-! ## Reset and initialisation -/

/-- The values the spec gives at process start (70_reset_and_hazards.md R205), with the default sizes and modes of
00_scope.md R6, R7, R8. -/
def Obligations.ResetHoldsTheSpecValues : Prop :=
  State.reset.head = 0 ∧ State.reset.tail = 0 ∧ State.reset.rxIe = false ∧ State.reset.pPhase = .idle ∧
  State.reset.qPhase = .idle ∧ State.reset.qOp = .none ∧ State.reset.length = 0 ∧ State.reset.txOut = [] ∧
  State.reset.history = [] ∧ State.reset.pushes = 0 ∧ State.reset.pops = 0 ∧ State.reset.seenHeadN = 0 ∧
  State.reset.seenTailN = 0 ∧ State.reset.life = .startup ∧ State.reset.storage = [] ∧ State.reset.chars = [] ∧
  State.reset.cfg.C = 64 ∧ State.reset.cfg.W = 6 ∧ State.reset.cfg.N = 32 ∧
  State.reset.cfg.legacyOverwrite = false ∧ State.reset.cfg.vis = .monotone ∧ State.reset.cfg.sched = .preempt ∧
  State.reset.cfg.rxOverrun = .excluded ∧ State.reset.cfg.textsDiffer = true

/-- INIT leaves both pointers and all four counters at 0, no byte pending, the interrupt enabled and the startup over,
and changes nothing else (70_reset_and_hazards.md R208). -/
def Obligations.InitEmptiesAndEnables : Prop :=
  ∀ s : State, ReadyS s →
    exec .init s = .next { s with
      head := 0, tail := 0, pushes := 0, pops := 0, seenHeadN := 0, seenTailN := 0, rxReady := false, rxIe := true,
      life := .active }

/-- Before INIT has completed every other operation is refused, and after it a second INIT is (70_reset_and_hazards.md
R207, R210). -/
def Obligations.InitComesFirstAndOnce : Prop :=
  ∀ (i : Instr) (s : State), s.cfg.wf = true → indicesLegal s = true → i.issuableBy s.issuer = true →
    (s.life = .startup → i ≠ .init → exec i s = .refused .beforeInit) ∧
    (s.life = .active → i = .init → exec i s = .refused .alreadyStarted)

/-- The two groups of fields that describe a legal state and the conforming FIFO hold at process start, for every legal
choice of the parameters. -/
def Obligations.ProcessStartIsLegalAndEmpty : Prop :=
  ∀ c : Config, c.wf = true → LegalState (State.processStart c) ∧ FifoState (State.processStart c)

/-! ## Refusals -/

/-- An operation issued by an agent it is not given to is refused, and so is any operation of a further agent
(60_exceptions.md R193, R199; 30_encoding.md R83); and for parameters the model is not defined for (`C < 2` or `N < 1`)
every operation is refused (93_implementation_defined.md U18). -/
def Obligations.OperationWithoutMeaningIsRefused : Prop :=
  ∀ (i : Instr) (s : State),
    (s.cfg.C < 2 ∨ s.cfg.N < 1 → exec i s = .refused .badParameters) ∧
    (s.cfg.wf = true → indicesLegal s = true →
      (∀ id, s.issuer = .further id → exec i s = .refused .furtherAgent) ∧
      ((∀ id, s.issuer ≠ .further id) → i.issuableBy s.issuer = false → exec i s = .refused .wrongAgent))

/-- An agent that is mid-operation takes no new one (41_receiver.md R129, R131; 93_implementation_defined.md U17). And
under `SCHED = Preempt` Q takes no step inside an operation of P: neither a new operation nor a line that continues one
nor the interpreter's start. Rule R61 of 20_memory.md says that of a handler run; that a direct push holds Q out as well
is vector V22 of 95_test_vectors.md and log entry 29, and that IS_EMPTY by P does is the MODEL's reading (log entry 29).
Which ground names a refusal is the MODEL's choice (log entry 23). -/
def Obligations.BusyAgentTakesNoNewOperation : Prop :=
  (∀ (i : Instr) (s : State), Operational s → i.issuableBy s.issuer = true →
    (s.issuer = .p → s.pPhase ≠ .idle → exec i s = .refused .agentBusy) ∧
    (s.issuer = .q → s.cfg.sched = .preempt → s.pPhase ≠ .idle → exec i s = .refused .notSchedulable) ∧
    (s.issuer = .q → (s.cfg.sched = .free ∨ s.pPhase = .idle) → (s.qOp ≠ .none ∨ s.qPhase ≠ .idle) →
      exec i s = .refused .agentBusy)) ∧
  (∀ s : State, Operational s → s.cfg.sched = .preempt → s.pPhase ≠ .idle →
    takeTurn (.micro .q) s = .refused .notSchedulable ∧ takeTurn (.resume .q) s = .refused .notSchedulable ∧
    takeTurn .interpreterStart s = .refused .notSchedulable)

/-- The handler never runs without a pending, enabled request: RX_IRQ is refused where the dispatch condition does not
hold (41_receiver.md R124, R125). -/
def Obligations.HandlerNeverRunsWithoutRequest : Prop :=
  ∀ s : State, ReadyP s → dispatchDue s = false → exec .rxIrq s = .refused .noPendingByte

/-! ## RingBuffer -/

/-- `next(i)` is `i + 1` below the last index and 0 at it, so it never leaves `0 .. C-1` (40_ringbuffer.md R100); and
no step moves a pointer otherwise, INIT apart, which sets both to 0. -/
def Obligations.PointersAdvanceByNextOnly : Prop :=
  (∀ (c : Config) (i : Nat), i < c.C →
    (i + 1 < c.C → nextIndex c i = i + 1) ∧ (i + 1 = c.C → nextIndex c i = 0) ∧ nextIndex c i = (i + 1) % c.C) ∧
  (∀ s t : State, step s = .next t →
    (t.head = s.head ∨ t.head = nextIndex s.cfg s.head ∨ (s.life = .startup ∧ t.head = 0)) ∧
    (t.tail = s.tail ∨ t.tail = nextIndex s.cfg s.tail ∨ (s.life = .startup ∧ t.tail = 0)))

/-- The occupancy `live` tells empty and full apart (40_ringbuffer.md R101; 10_state.md R34 to R36). -/
def Obligations.LiveCountTellsEmptyAndFull : Prop :=
  ∀ s : State, s.cfg.wf = true → s.head < s.cfg.C → s.tail < s.cfg.C →
    liveCount s < s.cfg.C ∧ (liveCount s = 0 ↔ isEmptyNow s = true) ∧
    (liveCount s = s.cfg.C - 1 ↔ isFullNow s = true)

/-- TRY_PUSH where P sees room: the byte is stored at `head`, `head` advances, the result is true (40_ringbuffer.md
R104). `tail` is the one P's sample returns. -/
def Obligations.TryPushStoresAndAdvances : Prop :=
  ∀ (s : State) (b : Byte), ReadyP s → s.cfg.legacyOverwrite = false →
    nextIndex s.cfg s.head ≠ (readTailFromP s).1 →
    exec (.tryPush b) s = .next { (readTailFromP s).2 with
      storage := memPut s.storage s.head b, head := nextIndex s.cfg s.head, pushes := s.pushes + 1,
      history := s.history ++ [.pushOk b s.head], results := s.results ++ [(.p, 0x0001#16)],
      pByte := b, pTailSeen := (readTailFromP s).1, pOk := true, pIsr := false }

/-- TRY_PUSH where P sees the buffer full: the byte is lost and recorded, nothing is written, the result is false
(40_ringbuffer.md R104; 60_exceptions.md R176). -/
def Obligations.TryPushRejectsWhenFull : Prop :=
  ∀ (s : State) (b : Byte), ReadyP s → s.cfg.legacyOverwrite = false →
    nextIndex s.cfg s.head = (readTailFromP s).1 →
    exec (.tryPush b) s = .next { (readTailFromP s).2 with
      history := s.history ++ [.dataLoss b], results := s.results ++ [(.p, 0x0000#16)],
      pByte := b, pTailSeen := (readTailFromP s).1, pOk := false, pIsr := false }

/-- TRY_PUSH in the legacy form: the byte is stored and `head` advances whatever `tail` is, which is not read; on a full
buffer that leaves the buffer reading as empty (40_ringbuffer.md R109, R110). -/
def Obligations.LegacyPushNeverLooks : Prop :=
  ∀ (s : State) (b : Byte), ReadyP s → s.cfg.legacyOverwrite = true →
    ∃ t, exec (.tryPush b) s = .next t ∧
      t = { s with
        storage := memPut s.storage s.head b, head := nextIndex s.cfg s.head, pushes := s.pushes + 1,
        history := s.history ++ [.pushOk b s.head], results := s.results ++ [(.p, 0x0001#16)],
        pByte := b, pOk := true, pIsr := false } ∧
      (isFullNow s = true → isEmptyNow t = true)

/-- TRY_POP (40_ringbuffer.md R105). Where Q sees a byte, the byte at `tail` is returned and `tail` advances, and no
slot changes; where Q sees none, the result is `None` and nothing is written. `head` is the one Q's sample returns. -/
def Obligations.TryPopReturnsTheByteAtTailOrNone : Prop :=
  ∀ s : State, ReadyQ s →
    ((readHeadFromQ s).1 ≠ s.tail →
      exec .tryPop s = .next { (readHeadFromQ s).2 with
        tail := nextIndex s.cfg s.tail, pops := s.pops + 1,
        history := s.history ++ [.popSome (slotByte s s.tail) s.tail],
        results := s.results ++ [(.q, 0x0100#16 + (slotByte s s.tail).setWidth 16)],
        qHeadSeen := (readHeadFromQ s).1, qByte := slotByte s s.tail, qWork := [] }) ∧
    ((readHeadFromQ s).1 = s.tail →
      exec .tryPop s = .next { (readHeadFromQ s).2 with
        history := s.history ++ [.popNone], results := s.results ++ [(.q, 0x0000#16)],
        qHeadSeen := (readHeadFromQ s).1, qWork := [] })

/-- IS_EMPTY from either side: the answer compares the issuer's own pointer with its sample of the other, and nothing is
written but the issuer's own locals (40_ringbuffer.md R106). Which locals is the MODEL's choice where P issues it: no rule
has a place for the answer, which waits in `p_ok` with `p_isr` false (log entry 18). -/
def Obligations.IsEmptyComparesOwnPointerWithSample : Prop :=
  (∀ s : State, ReadyQ s →
    exec .isEmpty s = .next { (readHeadFromQ s).2 with
      results := s.results ++ [(.q, if (readHeadFromQ s).1 = s.tail then 0x0001#16 else 0x0000#16)],
      qHeadSeen := (readHeadFromQ s).1, qWork := [] }) ∧
  (∀ s : State, ReadyP s →
    exec .isEmpty s = .next { (readTailFromP s).2 with
      results := s.results ++ [(.p, if s.head = (readTailFromP s).1 then 0x0001#16 else 0x0000#16)],
      pTailSeen := (readTailFromP s).1, pOk := s.head == (readTailFromP s).1, pIsr := false })

/-- The reliable direction of IS_EMPTY (40_ringbuffer.md R106, corner cases a and b): Q's answer "not empty" and P's
answer "empty" are true of the pointers themselves, however stale the sample. -/
def Obligations.IsEmptyAnswersAreReliable : Prop :=
  ∀ s t : State, LegalState s → FifoState s → s.cfg.legacyOverwrite = false → exec .isEmpty s = .next t →
    (s.issuer = .q → t.results = s.results ++ [(.q, 0x0000#16)] → isEmptyNow t = false) ∧
    (s.issuer = .p → t.results = s.results ++ [(.p, 0x0001#16)] → isEmptyNow t = true)

/-- A push is never accepted when the buffer is truly full, however stale P's sample of `tail` (40_ringbuffer.md R104,
corner case f; 20_memory.md R68); under `VIS = Fresh` it is rejected only then. -/
def Obligations.PushIsNeverAcceptedWhenFull : Prop :=
  ∀ (s t : State) (b : Byte), LegalState s → FifoState s → s.cfg.legacyOverwrite = false →
    exec (.tryPush b) s = .next t →
    (t.history = s.history ++ [.pushOk b s.head] → isFullNow s = false) ∧
    (s.cfg.vis = .fresh → t.history = s.history ++ [.dataLoss b] → isFullNow s = true)

/-- The document's capacity test (40_ringbuffer.md R112): from the state after INIT, of `C + 1` values pushed without a
pop the first `C - 1` are accepted and kept in order, and the last two are rejected; the reserved slot is not written.
It holds for every `C`, either `VIS` and either `SCHED`. -/
def Obligations.CapacityTestKeepsTheFirstValues : Prop :=
  ∀ (c : Config) (vs : List Byte), c.wf = true → c.legacyOverwrite = false → vs.length = c.C + 1 →
    ∃ t, execAll (⟨.s, .init⟩ :: vs.map fun v => ⟨.p, .tryPush v⟩) (State.processStart c) = .next t ∧
      t.head = c.C - 1 ∧ t.tail = 0 ∧ (∀ i < c.C - 1, memGet t.storage i = vs[i]?) ∧
      memGet t.storage (c.C - 1) = none ∧
      t.results = List.replicate (c.C - 1) (.p, 0x0001#16) ++ List.replicate 2 (.p, 0x0000#16) ∧
      pushedBytes t.history = vs.take (c.C - 1) ∧
      (t.history.drop (c.C - 1)) = (vs.drop (c.C - 1)).map .dataLoss

/-! ## Receiver and event source -/

/-- RX_ARRIVE with no byte pending: the byte is in `rx_data` and the flag is set, and nothing else changes
(41_receiver.md R120). -/
def Obligations.ArrivalSetsDataAndFlag : Prop :=
  ∀ (s : State) (b : Byte), ReadyE s → s.rxReady = false →
    exec (.rxArrive b) s = .next { s with rxData := b, rxReady := true, history := s.history ++ [.arrive b] }

/-- RX_ARRIVE with a byte still pending (41_receiver.md R122): refused under `RX_OVERRUN = Excluded`; under `OPEN` it
happens. The rule gives that case no behaviour: that it touches only the register, the flag, the further flag and the
history, which is unchanged or has the arrival added, is the MODEL's choice (log entry 14, DESIGN CHOICE). What is left
in the register and the flags is free, so the statement says nothing of it. -/
def Obligations.OverrunIsRefusedOrOpen : Prop :=
  ∀ (s : State) (b : Byte), ReadyE s → s.rxReady = true →
    (s.cfg.rxOverrun = .excluded → exec (.rxArrive b) s = .refused .overrunExcluded) ∧
    (s.cfg.rxOverrun = .openBehaviour → ∃ t d r f h, exec (.rxArrive b) s = .next t ∧
      t = { s with rxData := d, rxReady := r, rxFurther := f, history := h, draw := s.draw + 1 } ∧
      (h = s.history ∨ h = s.history ++ [.arrive b]))

/-- RX_IRQ where P sees room: `rx_data` is read once, which clears the flag, and pushed; nothing is returned
(41_receiver.md R125). -/
def Obligations.HandlerPushesThePendingByte : Prop :=
  ∀ s : State, ReadyP s → s.cfg.legacyOverwrite = false → s.rxReady = true → s.rxIe = true →
    nextIndex s.cfg s.head ≠ (readTailFromP s).1 →
    exec .rxIrq s = .next { (readTailFromP s).2 with
      rxReady := false, storage := memPut s.storage s.head s.rxData, head := nextIndex s.cfg s.head,
      pushes := s.pushes + 1, history := s.history ++ [.isrRead s.rxData, .pushOk s.rxData s.head],
      pByte := s.rxData, pTailSeen := (readTailFromP s).1, pOk := true, pIsr := true }

/-- RX_IRQ on a full buffer: the byte is read all the same, so the request is cleared, and then lost (41_receiver.md
R125, corner case a); and in the legacy form it is pushed whatever `tail` is (40_ringbuffer.md R109). -/
def Obligations.HandlerReadsEvenWhenFull : Prop :=
  ∀ s : State, ReadyP s → s.rxReady = true → s.rxIe = true →
    (s.cfg.legacyOverwrite = false → nextIndex s.cfg s.head = (readTailFromP s).1 →
      exec .rxIrq s = .next { (readTailFromP s).2 with
        rxReady := false, history := s.history ++ [.isrRead s.rxData, .dataLoss s.rxData],
        pByte := s.rxData, pTailSeen := (readTailFromP s).1, pOk := false, pIsr := true }) ∧
    (s.cfg.legacyOverwrite = true →
      exec .rxIrq s = .next { s with
        rxReady := false, storage := memPut s.storage s.head s.rxData, head := nextIndex s.cfg s.head,
        pushes := s.pushes + 1, history := s.history ++ [.isrRead s.rxData, .pushOk s.rxData s.head],
        pByte := s.rxData, pOk := true, pIsr := true })

/-- The handler completes whenever it may begin, and never touches what is the consumer's, the collaborators', the
port's or the data register: it writes the flag it clears, the slot at `head`, `head` with its counter and what P has
seen, P's own locals, and the history of its read and of its one push, and nothing else (41_receiver.md R127). -/
def Obligations.HandlerNeverBlocksOrTouchesTail : Prop :=
  ∀ s : State, ReadyP s → dispatchDue s = true →
    ∃ t, exec .rxIrq s = .next t ∧ t.pPhase = .idle ∧ t.rxReady = false ∧ t.tail = s.tail ∧ t.pops = s.pops ∧
      t.seenHeadN = s.seenHeadN ∧ t.chars = s.chars ∧ t.length = s.length ∧ t.pin = s.pin ∧ t.txOut = s.txOut ∧
      t.qPhase = s.qPhase ∧ t.qOp = s.qOp ∧ t.qWork = s.qWork ∧ t.qHeadSeen = s.qHeadSeen ∧ t.qByte = s.qByte ∧
      (∀ j, j ≠ s.head → slotByte t j = slotByte s j) ∧ t.rxData = s.rxData ∧ t.rxIe = s.rxIe ∧
      t.rxFurther = s.rxFurther ∧ t.cfg = s.cfg ∧ t.life = s.life ∧ t.interpStarted = s.interpStarted ∧
      t.issuer = s.issuer ∧ t.schedule = s.schedule ∧ t.results = s.results ∧
      (t.history = s.history ++ [.isrRead s.rxData, .dataLoss s.rxData] ∨
        t.history = s.history ++ [.isrRead s.rxData, .pushOk s.rxData s.head])

/-- Taking the interrupt (60_exceptions.md R188, R190; 41_receiver.md R124): with a byte pending, the interrupt enabled
and P idle, the dispatch moves `p_phase` to `P_FETCH`, sets `p_isr` and changes nothing else; and P's last transition
returns to `P_IDLE` and changes nothing else. -/
def Obligations.HandlerEntryAndReturnChangeOnlyPhase : Prop :=
  (∀ s : State, ReadyP s → s.rxReady = true → s.rxIe = true →
    begin .rxIrq s = .next { s with pPhase := .fetch, pIsr := true }) ∧
  (∀ s : State, s.pPhase = .ret → s.pIsr = true → pStep s = { s with pPhase := .idle })

/-- The Receiver as a state machine (41_receiver.md R126): where each transition of P leads, and that the rest of an
operation, at most five transitions, ends in `P_IDLE`. The split into states is the spec's own decision D8. -/
def Obligations.ReceiverFollowsItsTransitionTable : Prop :=
  ∀ s : State,
    (s.pPhase = .idle → pStep s = s) ∧
    (s.pPhase = .fetch → (pStep s).pPhase = .sample ∧ (pStep s).pByte = s.rxData ∧ (pStep s).rxReady = false) ∧
    (s.pPhase = .sample → s.cfg.legacyOverwrite = false →
      (pStep s).pPhase = (if nextIndex s.cfg s.head = (readTailFromP s).1 then .ret else .write) ∧
      (pStep s).pTailSeen = (readTailFromP s).1) ∧
    (s.pPhase = .sample → s.cfg.legacyOverwrite = true → pStep s = { s with pPhase := .write }) ∧
    (s.pPhase = .write → pStep s = { s with storage := memPut s.storage s.head s.pByte, pPhase := .publish }) ∧
    (s.pPhase = .publish → (pStep s).pPhase = .ret ∧ (pStep s).head = nextIndex s.cfg s.head ∧ (pStep s).pOk = true) ∧
    (s.pPhase = .ret → (pStep s).pPhase = .idle) ∧
    (pFinish s).pPhase = .idle

/-- From the end of INIT onward the request is never masked: no step clears `rx_ie`, and a pending byte makes the
handler due whenever P is idle (60_exceptions.md R182, R185, R191). -/
def Obligations.InterruptIsNeverMasked : Prop :=
  ∀ s t : State, step s = .next t → s.life = .active → s.rxIe = true →
    t.life = .active ∧ t.rxIe = true ∧ (t.rxReady = true → t.pPhase = .idle → dispatchDue t = true)

/-! ## LineReader -/

/-- READ_BYTE where Q sees a byte: it returns the byte at `tail`, which advances; where Q sees none it has polled once,
has written nothing but the history, and waits (42_linereader.md R135; 60_exceptions.md R179). -/
def Obligations.ReadByteReturnsOrPolls : Prop :=
  ∀ s : State, ReadyQ s →
    ((readHeadFromQ s).1 ≠ s.tail →
      exec .readByte s = .next { (readHeadFromQ s).2 with
        tail := nextIndex s.cfg s.tail, pops := s.pops + 1,
        history := s.history ++ [.popSome (slotByte s s.tail) s.tail],
        results := s.results ++ [(.q, (slotByte s s.tail).setWidth 16)],
        qHeadSeen := (readHeadFromQ s).1, qByte := slotByte s s.tail, qWork := [] }) ∧
    ((readHeadFromQ s).1 = s.tail →
      exec .readByte s = .next { (readHeadFromQ s).2 with
        history := s.history ++ [.popNone], qHeadSeen := (readHeadFromQ s).1, qOp := .readByte, qPhase := .sample })

/-- In the quiescent state Q polls and changes nothing but its own place in the poll and the record of it: not the
pointers, not the counters, not what is in either buffer. Whether a line runs one micro-step or the rest of the poll, Q
has a next state, and it is quiescent again: Q is waiting, not stuck (60_exceptions.md R179; 70_reset_and_hazards.md
R213). -/
def Obligations.QuiescentPollChangesNothing : Prop :=
  ∀ (s : State) (rest : List Turn) (line : Turn), LegalState s → FifoState s → Quiescent s →
    s.schedule = line :: rest → line = .micro .q ∨ line = .resume .q →
    ∃ t, step s = .next t ∧ Quiescent t ∧
      (s.qPhase = .sample → line = .micro .q →
        t = { s with qPhase := .read, qHeadSeen := s.head, draw := (readHeadFromQ s).2.draw, schedule := rest }) ∧
      (s.qPhase = .sample → line = .resume .q →
        t = { s with
          qHeadSeen := s.head, draw := (readHeadFromQ s).2.draw, history := s.history ++ [.popNone],
          schedule := rest }) ∧
      (s.qPhase = .read →
        t = { s with qPhase := .sample, history := s.history ++ [.popNone], schedule := rest })

/-- DATA_AVAILABLE answers true exactly where Q's sample differs from `tail`, and writes nothing but what Q has seen
(42_linereader.md R136). -/
def Obligations.DataAvailableIsNotEmpty : Prop :=
  ∀ s : State, ReadyQ s →
    exec .dataAvailable s = .next { (readHeadFromQ s).2 with
      results := s.results ++ [(.q, if (readHeadFromQ s).1 = s.tail then 0x0000#16 else 0x0001#16)],
      qHeadSeen := (readHeadFromQ s).1, qWork := [] }

/-- A true answer of DATA_AVAILABLE is reliable: a READ_BYTE right after it returns at its first poll (42_linereader.md
R136, corner case a), because samples never go backwards (20_memory.md R58). -/
def Obligations.ReadByteReturnsAfterDataAvailable : Prop :=
  ∀ s t : State, LegalState s → FifoState s → s.cfg.legacyOverwrite = false → ReadyQ s →
    exec .dataAvailable s = .next t → t.results = s.results ++ [(.q, 0x0001#16)] →
    ∃ u, exec .readByte t = .next u ∧ u.qOp = .none ∧ u.tail = nextIndex s.cfg s.tail ∧
      u.results = t.results ++ [(.q, (slotByte s s.tail).setWidth 16)]

/-! ## CommandInterpreter -/

/-- A line matches a command exactly when it has the command's length and its bytes, one by one; so no line matches two
(43_command_interpreter.md R154). -/
def Obligations.LookupIsExactEquality : Prop :=
  ∀ (bytes text : List Byte) (cmd : Command), (text, cmd) ∈ commandTable →
    (lookupCommand bytes = some cmd ↔
      bytes.length = text.length ∧ ∀ i, i < text.length → bytes[i]? = text[i]?)

/-- Row APPEND (43_command_interpreter.md R152): the byte and then the terminator are written to `chars`, `length`
grows, the byte is echoed, and nothing else changes. -/
def Obligations.OrdinaryByteIsAppendedAndEchoed : Prop :=
  ∀ (s : State) (c : Byte), ReadyQ s → ordinary c = true → s.length + 1 < s.cfg.N →
    exec (.ciStep c) s = .next { s with
      chars := memPut (memPut s.chars s.length c) (s.length + 1) 0x00#8, length := s.length + 1,
      txOut := s.txOut ++ [c], history := s.history ++ [.tx c], qWork := [] }

/-- Row DROP (43_command_interpreter.md R153): nothing is written, nothing is transmitted; the loss is an event. -/
def Obligations.ByteBeyondTheLineIsDropped : Prop :=
  ∀ (s : State) (c : Byte), ReadyQ s → ordinary c = true → s.length + 1 = s.cfg.N →
    exec (.ciStep c) s = .next { s with history := s.history ++ [.inputTruncated c], qWork := [] }

/-- Row ERASE (43_command_interpreter.md R151): `length` falls by one but never below 0, and the three bytes 08 20 08
are transmitted always. -/
def Obligations.EraseKeyShortensTheLine : Prop :=
  ∀ (s : State) (c : Byte), ReadyQ s → c = Text.del ∨ c = Text.backspace →
    exec (.ciStep c) s = .next { s with
      length := s.length - 1, txOut := s.txOut ++ [0x08#8, 0x20#8, 0x08#8],
      history := s.history ++ [.tx 0x08#8, .tx 0x20#8, .tx 0x08#8], qWork := [] }

/-- Row CR on an empty line (43_command_interpreter.md R161): the line ending and the prompt, and nothing else. -/
def Obligations.EmptyLineOnlyPrompts : Prop :=
  ∀ s : State, ReadyQ s → s.length = 0 →
    exec (.ciStep Text.cr) s = .next { s with
      txOut := s.txOut ++ [0x0D#8, 0x0A#8, 0x3E#8, 0x20#8],
      history := s.history ++ [.tx 0x0D#8, .tx 0x0A#8, .tx 0x3E#8, .tx 0x20#8], qWork := [] }

/-- Row CR on a line that is no command (43_command_interpreter.md R150, R160): the line is reported verbatim, the hint
and a fresh prompt follow, and `length` is 0. -/
def Obligations.UnknownCommandIsReported : Prop :=
  ∀ s : State, ReadyQ s → s.length > 0 → lookupCommand (currentLine s) = none →
    exec (.ciStep Text.cr) s = .next { s with
      length := 0,
      txOut := s.txOut ++ Text.crlf ++ Text.unknownCommand ++ currentLine s ++ Text.hint ++ Text.prompt,
      history := s.history ++ Text.crlf.map .tx ++ [.unknownCommand (currentLine s)] ++
        (Text.unknownCommand ++ currentLine s ++ Text.hint ++ Text.prompt).map .tx,
      qWork := [] }

/-- `LED ON` and `LED OFF` (43_command_interpreter.md R156, R157): the pin is set to the level, the event is recorded,
the command's message and a fresh prompt are transmitted, and `length` is 0. -/
def Obligations.LedCommandsSetThePin : Prop :=
  ∀ (s : State) (v : Bool), ReadyQ s → currentLine s = (if v then Text.ledOn else Text.ledOff) →
    ∃ t, exec (.ciStep Text.cr) s = .next t ∧ getOutput s.cfg.pinLed t = v ∧
      t = { s with
        pin := v, length := 0,
        txOut := s.txOut ++ Text.crlf ++ (if v then s.cfg.msgLedOn else s.cfg.msgLedOff) ++ Text.prompt,
        history := s.history ++ Text.crlf.map .tx ++ [.setOutput v] ++
          ((if v then s.cfg.msgLedOn else s.cfg.msgLedOff) ++ Text.prompt).map .tx,
        qWork := [] }

/-- `HELP` and `STATUS` (43_command_interpreter.md R155, R159): the message, that of `STATUS` chosen by the level of the
pin, and a fresh prompt are transmitted; the pin is not written. The texts are OPEN parameters. -/
def Obligations.HelpAndStatusOnlyReport : Prop :=
  ∀ (s : State) (msg : List Byte), ReadyQ s →
    (currentLine s = Text.help ∧ msg = s.cfg.msgHelp) ∨
    (currentLine s = Text.status ∧ msg = (if s.pin then s.cfg.msgStatusOn else s.cfg.msgStatusOff)) →
    exec (.ciStep Text.cr) s = .next { s with
      length := 0, txOut := s.txOut ++ Text.crlf ++ msg ++ Text.prompt,
      history := s.history ++ (Text.crlf ++ msg ++ Text.prompt).map .tx, qWork := [] }

/-- A line typed at the interpreter, from an empty line: every ordinary byte that fits is echoed and kept, so that the
line in progress is what was typed (43_command_interpreter.md R149, R152, R162; 10_state.md R39). -/
def Obligations.TypedLineIsEchoedAndKept : Prop :=
  ∀ (s : State) (line : List Byte), ReadyQ s → s.length = 0 → line.length < s.cfg.N →
    (∀ c ∈ line, ordinary c = true) →
    ∃ t, execAll (line.map fun c => ⟨.q, .ciStep c⟩) s = .next t ∧ ReadyQ t ∧ currentLine t = line ∧
      t.length = line.length ∧ t.txOut = s.txOut ++ line ∧ t.pin = s.pin

/-- Typing `TOGGLE` and CR twice restores the pin, whatever it was, and the first time inverts it
(43_command_interpreter.md R158). -/
def Obligations.ToggleTwiceRestoresThePin : Prop :=
  ∀ s : State, ReadyQ s → s.length = 0 → 7 ≤ s.cfg.N →
    ∃ t u, execAll ((Text.toggle ++ [Text.cr]).map fun c => ⟨.q, .ciStep c⟩) s = .next t ∧
      t.pin = (!s.pin) ∧ t.length = 0 ∧
      t.txOut = s.txOut ++ Text.toggle ++ Text.crlf ++ s.cfg.msgToggle ++ Text.prompt ∧
      t.history = s.history ++ (Text.toggle ++ Text.crlf).map .tx ++ [.setOutput (!s.pin)] ++
        (s.cfg.msgToggle ++ Text.prompt).map .tx ∧
      execAll ((Text.toggle ++ [Text.cr]).map fun c => ⟨.q, .ciStep c⟩) t = .next u ∧
      u.pin = s.pin ∧ u.length = 0

/-- CI_ITER (43_command_interpreter.md R148; 30_encoding.md R90): where Q sees a byte, it is popped and the transition
table is applied to it, as CI_STEP of that byte does from the state after the pop; where Q sees none, Q has polled once
and waits. -/
def Obligations.IterationPopsAndStepsTheTable : Prop :=
  ∀ s : State, ReadyQ s →
    ((readHeadFromQ s).1 ≠ s.tail →
      ∃ t, exec .ciIter s = .next t ∧ t.tail = nextIndex s.cfg s.tail ∧ t.pops = s.pops + 1 ∧ t.qOp = .none ∧
        exec (.ciStep (slotByte s s.tail)) { (readHeadFromQ s).2 with
          tail := nextIndex s.cfg s.tail, pops := s.pops + 1,
          history := s.history ++ [.popSome (slotByte s s.tail) s.tail],
          qHeadSeen := (readHeadFromQ s).1, qByte := slotByte s s.tail } = .next t) ∧
    ((readHeadFromQ s).1 = s.tail →
      exec .ciIter s = .next { (readHeadFromQ s).2 with
        history := s.history ++ [.popNone], qHeadSeen := (readHeadFromQ s).1, qOp := .ciIter, qPhase := .sample })

/-- The interpreter's start (43_command_interpreter.md R147): `length` is 0 and the banner is transmitted; a second start
is refused (60_exceptions.md R194). -/
def Obligations.InterpreterStartsOnceWithBanner : Prop :=
  ∀ s : State, ReadyQ s →
    (s.interpStarted = false → ∃ t, takeTurn .interpreterStart s = .next t ∧
      takeTurn (.resume .q) t = .next { s with
        length := 0, interpStarted := true, qWork := [],
        txOut := s.txOut ++ s.cfg.msgBanner, history := s.history ++ s.cfg.msgBanner.map .tx }) ∧
    (s.interpStarted = true → takeTurn .interpreterStart s = .refused .alreadyStarted)

/-! ## Frames -/

/-- What an operation of P leaves alone (60_exceptions.md R193; 10_state.md R22, R25): every slot but the one at `head`,
and that one too where no push is accepted; `tail` and everything else of Q's, of E's data register and of the
collaborators. -/
def Obligations.ProducerFrame : Prop :=
  ∀ (i : Instr) (s t : State), s.issuer = .p → exec i s = .next t →
    (∀ j, j ≠ s.head → slotByte t j = slotByte s j) ∧
    (t.pushes = s.pushes → ∀ j, slotByte t j = slotByte s j) ∧
    (∀ j, charByte t j = charByte s j) ∧
    t.cfg = s.cfg ∧ t.life = s.life ∧ t.tail = s.tail ∧ t.pops = s.pops ∧ t.seenHeadN = s.seenHeadN ∧
    t.rxData = s.rxData ∧ t.rxIe = s.rxIe ∧ t.rxFurther = s.rxFurther ∧ (i ≠ .rxIrq → t.rxReady = s.rxReady) ∧
    t.qPhase = s.qPhase ∧ t.qHeadSeen = s.qHeadSeen ∧ t.qByte = s.qByte ∧ t.qOp = s.qOp ∧ t.qWork = s.qWork ∧
    t.length = s.length ∧ t.interpStarted = s.interpStarted ∧ t.pin = s.pin ∧ t.txOut = s.txOut ∧
    t.schedule = s.schedule

/-- What an operation of Q leaves alone (60_exceptions.md R193; 10_state.md R22, R25): every slot, `head` and everything
else of P's, and the data register and its flag; and where it is no operation of the interpreter, the line buffer, the
pin and the outbound stream too. -/
def Obligations.ConsumerFrame : Prop :=
  ∀ (i : Instr) (s t : State), s.issuer = .q → exec i s = .next t →
    (∀ j, slotByte t j = slotByte s j) ∧
    t.cfg = s.cfg ∧ t.life = s.life ∧ t.head = s.head ∧ t.pushes = s.pushes ∧ t.seenTailN = s.seenTailN ∧
    t.rxData = s.rxData ∧ t.rxReady = s.rxReady ∧ t.rxIe = s.rxIe ∧ t.rxFurther = s.rxFurther ∧
    t.pPhase = s.pPhase ∧ t.pByte = s.pByte ∧ t.pTailSeen = s.pTailSeen ∧ t.pOk = s.pOk ∧ t.pIsr = s.pIsr ∧
    t.interpStarted = s.interpStarted ∧ t.schedule = s.schedule ∧
    (i = .tryPop ∨ i = .isEmpty ∨ i = .readByte ∨ i = .dataAvailable →
      (∀ j, charByte t j = charByte s j) ∧ t.length = s.length ∧ t.pin = s.pin ∧ t.txOut = s.txOut)

/-- What CI_STEP and CI_ITER leave alone (43_command_interpreter.md R148, R150 to R153): every cell of the line buffer but
those at `length` and `length + 1`; all of them for a byte that is not appended; and the pin, unless the byte is CR. The
byte is CI_STEP's operand, or the byte at `tail`, which CI_ITER pops; where CI_ITER pops none, the whole line buffer, the
pin and the outbound stream stay as they are. CI_STEP leaves `tail` alone as well, and neither delivers a result. -/
def Obligations.InterpreterFrame : Prop :=
  (∀ (c : Byte) (s t : State), exec (.ciStep c) s = .next t →
    (∀ j, j ≠ s.length → j ≠ s.length + 1 → charByte t j = charByte s j) ∧
    (ordinary c = false ∨ s.cfg.N ≤ s.length + 1 → ∀ j, charByte t j = charByte s j) ∧
    (c ≠ Text.cr → t.pin = s.pin) ∧ t.tail = s.tail ∧ t.pops = s.pops ∧ t.seenHeadN = s.seenHeadN ∧
    t.qHeadSeen = s.qHeadSeen ∧ t.qByte = s.qByte ∧ t.results = s.results ∧ t.draw = s.draw) ∧
  (∀ s t : State, exec .ciIter s = .next t →
    (∀ j, j ≠ s.length → j ≠ s.length + 1 → charByte t j = charByte s j) ∧
    (ordinary (slotByte s s.tail) = false ∨ s.cfg.N ≤ s.length + 1 → ∀ j, charByte t j = charByte s j) ∧
    (slotByte s s.tail ≠ Text.cr → t.pin = s.pin) ∧
    (t.pops = s.pops → t.tail = s.tail ∧ (∀ j, charByte t j = charByte s j) ∧ t.length = s.length ∧ t.pin = s.pin ∧
      t.txOut = s.txOut) ∧
    t.results = s.results)

/-! ## Steps and schedules -/

/-- A schedule line that issues an op-word: where the word decodes, the step is `exec` of the operation, with the line
taken and the issuer noted; where it does not, the step is refused, with the reason (30_encoding.md R87, R89). And a word
the host presents is the line the next step takes: that clause is the MODEL's choice (log entries 10 and 12, DESIGN
CHOICE). -/
def Obligations.StepRunsTheIssuedOperation : Prop :=
  (∀ (s : State) (a : Agent) (w : Word) (rest : List Turn), s.schedule = .issue a w :: rest →
    (∀ i, decode w = .ok i → step s = exec i { s with schedule := rest, issuer := a }) ∧
    (∀ e, decode w = .error e → step s = .refused (.illegalOpWord e))) ∧
  (∀ (s : State) (i : Instr), s.life = .active →
    step (s.withFetchWord 16 (encode i).toNat) = exec i { s with issuer := usualIssuer i })

/-- A schedule line that names a micro-step: the step is that micro-step of the operation in progress (30_encoding.md
R89; 20_memory.md R60), P's at any time and Q's where the scheduler lets Q act (R61). -/
def Obligations.StepRunsOneMicroStep : Prop :=
  ∀ (s : State) (rest : List Turn), s.cfg.wf = true → indicesLegal s = true →
    (s.schedule = .micro .p :: rest → s.pPhase ≠ .idle → step s = .next (pStep { s with schedule := rest })) ∧
    (s.schedule = .micro .q :: rest → (s.cfg.sched = .free ∨ s.pPhase = .idle) →
      (s.qOp ≠ .none ∨ s.qPhase ≠ .idle) → step s = .next (qStep { s with schedule := rest }))

/-- A whole operation is its beginning and then micro-steps of the agent that issued it, and nothing else: running it
without a break gives no behaviour that its micro-steps do not (20_memory.md R60; 40_ringbuffer.md R107). -/
def Obligations.WholeOperationIsItsMicroSteps : Prop :=
  ∀ (i : Instr) (s t : State), exec i s = .next t →
    ∃ u n, begin i s = .next u ∧ t = (if s.issuer = .q then qStep^[n] u else pStep^[n] u)

/-- Under `SCHED = Preempt`, no step inside an operation of P changes anything that is Q's: the interrupted code resumes
with exactly the state it had (60_exceptions.md R186, R189; 41_receiver.md R130; 10_state.md R33). -/
def Obligations.QIsFrozenInsideTheHandler : Prop :=
  ∀ s t : State, step s = .next t → s.cfg.sched = .preempt → s.pPhase ≠ .idle →
    t.qPhase = s.qPhase ∧ t.qHeadSeen = s.qHeadSeen ∧ t.qByte = s.qByte ∧ t.qOp = s.qOp ∧ t.qWork = s.qWork ∧
    t.tail = s.tail ∧ t.pops = s.pops ∧ t.chars = s.chars ∧ t.length = s.length ∧ t.pin = s.pin ∧ t.txOut = s.txOut

/-- `SCHED = Free` contains every step of `SCHED = Preempt` that a schedule line asks for (20_memory.md R61). -/
def Obligations.EveryPreemptStepIsAFreeStep : Prop :=
  ∀ s t : State, s.schedule ≠ [] → step s = .next t →
    step { s with cfg := { s.cfg with sched := .free } } = .next { t with cfg := { t.cfg with sched := .free } }

/-- A machine with no schedule line to take is never stuck: of itself it always has a next state. That it moves of itself
there, and how (INIT first, then a free choice of P, Q, E or nobody, an idle wait included), is the MODEL's choice (log
entry 11, DESIGN CHOICE); the rules say that a waiting Q always has an enabled poll (60_exceptions.md R179; 00_scope.md
R14). -/
def Obligations.MachineAloneIsNeverStuck : Prop :=
  ∀ s : State, LegalState s → s.schedule = [] → ∃ t, step s = .next t

/-- No step changes the parameters, and the only step that ends the startup is INIT's (00_scope.md R8; 60_exceptions.md
R194). -/
def Obligations.ParametersNeverChange : Prop :=
  ∀ s t : State, step s = .next t →
    t.cfg = s.cfg ∧ (s.life = .active → t.life = .active) ∧
    (s.life = .startup → t.life = .active →
      t.head = 0 ∧ t.tail = 0 ∧ t.pushes = 0 ∧ t.pops = 0 ∧ t.rxReady = false ∧ t.rxIe = true)

/-! ## Invariants -/

/-- Every step keeps the state legal, whatever the parameters, the legacy push and `RX_OVERRUN = OPEN` included: the
pointers stay in range and fit `W` bits, the arrays keep their canonical form, every byte of the line in progress has
been written, and the phases stay consistent (10_state.md R26, R30 to R33, R37 to R39). -/
def Obligations.EveryStepKeepsTheStateLegal : Prop :=
  (∀ s t : State, LegalState s → step s = .next t → LegalState t) ∧
  (∀ s : State, LegalState s → s.head < 2 ^ s.cfg.W ∧ s.tail < 2 ^ s.cfg.W)

/-- Every step of a conforming machine keeps the FIFO correct, for either `VIS` and either `SCHED`: the chain of
counters, every slot not yet popped, and the order of the bytes (10_state.md R45; 20_memory.md R67; 40_ringbuffer.md
R108). -/
def Obligations.EveryStepKeepsTheFifo : Prop :=
  ∀ s t : State, LegalState s → FifoState s → s.cfg.legacyOverwrite = false → step s = .next t → FifoState t

/-- Bytes leave the FIFO in the order they entered it, each at most once, over any number of steps under any schedule:
what has been popped is a beginning of what has been pushed, and what has been pushed is never forgotten
(40_ringbuffer.md R108). -/
def Obligations.BytesLeaveInTheOrderTheyEntered : Prop :=
  ∀ (n : Nat) (s t : State), LegalState s → FifoState s → s.cfg.legacyOverwrite = false →
    Host.Core.run Sys2Proof.core n s = .next t →
    poppedBytes t.history <+: pushedBytes t.history ∧ pushedBytes s.history <+: pushedBytes t.history ∧
    poppedBytes s.history <+: poppedBytes t.history ∧ t.pops ≤ t.pushes ∧ t.pushes - t.pops ≤ t.cfg.C - 1

/-- What a cross-domain read may return (20_memory.md R58): any value number from the one last seen to the current one,
and no other; and under `VIS = Fresh` the current value. -/
def Obligations.StaleReadStaysInItsWindow : Prop :=
  (∀ lo hi n : Nat, lo ≤ n → n ≤ hi → ∃ d, pickNumber lo hi d = n) ∧
  (∀ lo hi d : Nat, lo ≤ hi → lo ≤ pickNumber lo hi d ∧ pickNumber lo hi d ≤ hi) ∧
  (∀ s : State, s.cfg.vis = .monotone →
    (readTailFromP s).1 = pickNumber s.seenTailN s.pops (Config.freeDraw s.draw) % s.cfg.C ∧
    (readTailFromP s).2.seenTailN = pickNumber s.seenTailN s.pops (Config.freeDraw s.draw) ∧
    (readHeadFromQ s).1 = pickNumber s.seenHeadN s.pushes (Config.freeDraw s.draw) % s.cfg.C ∧
    (readHeadFromQ s).2.seenHeadN = pickNumber s.seenHeadN s.pushes (Config.freeDraw s.draw)) ∧
  (∀ s : State, s.cfg.vis = .fresh → (readTailFromP s).1 = s.tail ∧ (readHeadFromQ s).1 = s.head)

/-- Samples never go backwards, and neither do the counters, once INIT has completed (20_memory.md R58; 10_state.md
R45). -/
def Obligations.SamplesNeverGoBackwards : Prop :=
  ∀ s t : State, LegalState s → FifoState s → s.cfg.legacyOverwrite = false → s.life = .active → step s = .next t →
    s.seenTailN ≤ t.seenTailN ∧ s.seenHeadN ≤ t.seenHeadN ∧ s.pushes ≤ t.pushes ∧ s.pops ≤ t.pops

/-- Under the fairness assumptions, a READ_BYTE that is in progress while a byte is in the buffer returns, and what it
returns is the oldest byte not yet popped (42_linereader.md R135; 20_memory.md R62, R63). As R63 has it, Q may be
preempted for ever where `SCHED = Preempt` and bytes arrive for ever, so there the input is finite. -/
def Obligations.WaitingReadByteReturnsTheOldestByte : Prop :=
  ∀ (turns : Nat → Turn) (run : Nat → State), IsRun turns run → LegalState (run 0) → FifoState (run 0) →
    (run 0).cfg.legacyOverwrite = false → Fair turns run →
    (run 0).cfg.sched = .free ∨ FinitelyManyArrivals turns →
    ∀ n, (run n).qOp = .readByte → (run n).pops < (run n).pushes →
      ∃ m b, n ≤ m ∧ (run m).qOp = .none ∧ (run m).pops = (run n).pops + 1 ∧
        (pushedBytes (run n).history)[(run n).pops]? = some b ∧ (.q, b.setWidth 16) ∈ (run m).results
end

