-- ==== Sys2Proof/Laws/State.lean ====
section
/-! SUPPORT. What each named update of the state changes, and that it leaves every other field as it was: one statement
per update, each field a rewrite rule of its own, true by rfl. -/

namespace Sys2Proof.Machine

variable (s : State)

@[simp] theorem record_history (e : Event) : (record e s).history = s.history ++ [e] := rfl
@[simp] theorem record_frame (e : Event) :
    (record e s).cfg = s.cfg ∧ (record e s).life = s.life ∧ (record e s).storage = s.storage ∧
    (record e s).head = s.head ∧ (record e s).tail = s.tail ∧ (record e s).rxData = s.rxData ∧
    (record e s).rxReady = s.rxReady ∧ (record e s).rxIe = s.rxIe ∧ (record e s).rxFurther = s.rxFurther ∧
    (record e s).pPhase = s.pPhase ∧ (record e s).pByte = s.pByte ∧ (record e s).pTailSeen = s.pTailSeen ∧
    (record e s).pOk = s.pOk ∧ (record e s).pIsr = s.pIsr ∧ (record e s).qPhase = s.qPhase ∧
    (record e s).qHeadSeen = s.qHeadSeen ∧ (record e s).qByte = s.qByte ∧ (record e s).qOp = s.qOp ∧
    (record e s).qWork = s.qWork ∧ (record e s).chars = s.chars ∧ (record e s).length = s.length ∧
    (record e s).interpStarted = s.interpStarted ∧ (record e s).pin = s.pin ∧ (record e s).txOut = s.txOut ∧
    (record e s).pushes = s.pushes ∧ (record e s).pops = s.pops ∧ (record e s).seenTailN = s.seenTailN ∧
    (record e s).seenHeadN = s.seenHeadN ∧ (record e s).issuer = s.issuer ∧ (record e s).schedule = s.schedule ∧
    (record e s).results = s.results ∧ (record e s).draw = s.draw :=
  ⟨rfl, rfl, rfl, rfl, rfl, rfl, rfl, rfl, rfl, rfl, rfl, rfl, rfl, rfl, rfl, rfl, rfl, rfl, rfl, rfl, rfl, rfl, rfl, rfl, rfl, rfl, rfl, rfl, rfl, rfl, rfl, rfl⟩

@[simp] theorem deliver_results (a : Agent) (w : Word) : (deliver a w s).results = s.results ++ [(a, w)] := rfl
@[simp] theorem deliver_frame (a : Agent) (w : Word) :
    (deliver a w s).cfg = s.cfg ∧ (deliver a w s).life = s.life ∧ (deliver a w s).storage = s.storage ∧
    (deliver a w s).head = s.head ∧ (deliver a w s).tail = s.tail ∧ (deliver a w s).rxData = s.rxData ∧
    (deliver a w s).rxReady = s.rxReady ∧ (deliver a w s).rxIe = s.rxIe ∧
    (deliver a w s).rxFurther = s.rxFurther ∧ (deliver a w s).pPhase = s.pPhase ∧
    (deliver a w s).pByte = s.pByte ∧ (deliver a w s).pTailSeen = s.pTailSeen ∧ (deliver a w s).pOk = s.pOk ∧
    (deliver a w s).pIsr = s.pIsr ∧ (deliver a w s).qPhase = s.qPhase ∧ (deliver a w s).qHeadSeen = s.qHeadSeen ∧
    (deliver a w s).qByte = s.qByte ∧ (deliver a w s).qOp = s.qOp ∧ (deliver a w s).qWork = s.qWork ∧
    (deliver a w s).chars = s.chars ∧ (deliver a w s).length = s.length ∧
    (deliver a w s).interpStarted = s.interpStarted ∧ (deliver a w s).pin = s.pin ∧
    (deliver a w s).txOut = s.txOut ∧ (deliver a w s).pushes = s.pushes ∧ (deliver a w s).pops = s.pops ∧
    (deliver a w s).seenTailN = s.seenTailN ∧ (deliver a w s).seenHeadN = s.seenHeadN ∧
    (deliver a w s).history = s.history ∧ (deliver a w s).issuer = s.issuer ∧
    (deliver a w s).schedule = s.schedule ∧ (deliver a w s).draw = s.draw :=
  ⟨rfl, rfl, rfl, rfl, rfl, rfl, rfl, rfl, rfl, rfl, rfl, rfl, rfl, rfl, rfl, rfl, rfl, rfl, rfl, rfl, rfl, rfl, rfl, rfl, rfl, rfl, rfl, rfl, rfl, rfl, rfl, rfl⟩

@[simp] theorem transmit_txOut (b : Byte) : (transmit b s).txOut = s.txOut ++ [b] := rfl
@[simp] theorem transmit_history (b : Byte) : (transmit b s).history = s.history ++ [.tx b] := rfl
@[simp] theorem transmit_frame (b : Byte) :
    (transmit b s).cfg = s.cfg ∧ (transmit b s).life = s.life ∧ (transmit b s).storage = s.storage ∧
    (transmit b s).head = s.head ∧ (transmit b s).tail = s.tail ∧ (transmit b s).rxData = s.rxData ∧
    (transmit b s).rxReady = s.rxReady ∧ (transmit b s).rxIe = s.rxIe ∧ (transmit b s).rxFurther = s.rxFurther ∧
    (transmit b s).pPhase = s.pPhase ∧ (transmit b s).pByte = s.pByte ∧ (transmit b s).pTailSeen = s.pTailSeen ∧
    (transmit b s).pOk = s.pOk ∧ (transmit b s).pIsr = s.pIsr ∧ (transmit b s).qPhase = s.qPhase ∧
    (transmit b s).qHeadSeen = s.qHeadSeen ∧ (transmit b s).qByte = s.qByte ∧ (transmit b s).qOp = s.qOp ∧
    (transmit b s).qWork = s.qWork ∧ (transmit b s).chars = s.chars ∧ (transmit b s).length = s.length ∧
    (transmit b s).interpStarted = s.interpStarted ∧ (transmit b s).pin = s.pin ∧
    (transmit b s).pushes = s.pushes ∧ (transmit b s).pops = s.pops ∧ (transmit b s).seenTailN = s.seenTailN ∧
    (transmit b s).seenHeadN = s.seenHeadN ∧ (transmit b s).issuer = s.issuer ∧
    (transmit b s).schedule = s.schedule ∧ (transmit b s).results = s.results ∧ (transmit b s).draw = s.draw :=
  ⟨rfl, rfl, rfl, rfl, rfl, rfl, rfl, rfl, rfl, rfl, rfl, rfl, rfl, rfl, rfl, rfl, rfl, rfl, rfl, rfl, rfl, rfl, rfl, rfl, rfl, rfl, rfl, rfl, rfl, rfl, rfl⟩

@[simp] theorem setOutput_pin (p : Nat) (v : Bool) : (setOutput p v s).pin = v := rfl
@[simp] theorem setOutput_history (p : Nat) (v : Bool) : (setOutput p v s).history = s.history ++ [.setOutput v] := rfl
@[simp] theorem setOutput_frame (p : Nat) (v : Bool) :
    (setOutput p v s).cfg = s.cfg ∧ (setOutput p v s).life = s.life ∧ (setOutput p v s).storage = s.storage ∧
    (setOutput p v s).head = s.head ∧ (setOutput p v s).tail = s.tail ∧ (setOutput p v s).rxData = s.rxData ∧
    (setOutput p v s).rxReady = s.rxReady ∧ (setOutput p v s).rxIe = s.rxIe ∧
    (setOutput p v s).rxFurther = s.rxFurther ∧ (setOutput p v s).pPhase = s.pPhase ∧
    (setOutput p v s).pByte = s.pByte ∧ (setOutput p v s).pTailSeen = s.pTailSeen ∧
    (setOutput p v s).pOk = s.pOk ∧ (setOutput p v s).pIsr = s.pIsr ∧ (setOutput p v s).qPhase = s.qPhase ∧
    (setOutput p v s).qHeadSeen = s.qHeadSeen ∧ (setOutput p v s).qByte = s.qByte ∧
    (setOutput p v s).qOp = s.qOp ∧ (setOutput p v s).qWork = s.qWork ∧ (setOutput p v s).chars = s.chars ∧
    (setOutput p v s).length = s.length ∧ (setOutput p v s).interpStarted = s.interpStarted ∧
    (setOutput p v s).txOut = s.txOut ∧ (setOutput p v s).pushes = s.pushes ∧ (setOutput p v s).pops = s.pops ∧
    (setOutput p v s).seenTailN = s.seenTailN ∧ (setOutput p v s).seenHeadN = s.seenHeadN ∧
    (setOutput p v s).issuer = s.issuer ∧ (setOutput p v s).schedule = s.schedule ∧
    (setOutput p v s).results = s.results ∧ (setOutput p v s).draw = s.draw :=
  ⟨rfl, rfl, rfl, rfl, rfl, rfl, rfl, rfl, rfl, rfl, rfl, rfl, rfl, rfl, rfl, rfl, rfl, rfl, rfl, rfl, rfl, rfl, rfl, rfl, rfl, rfl, rfl, rfl, rfl, rfl, rfl⟩

@[simp] theorem putSlot_storage (i : Nat) (b : Byte) : (putSlot i b s).storage = memPut s.storage i b := rfl
@[simp] theorem putSlot_frame (i : Nat) (b : Byte) :
    (putSlot i b s).cfg = s.cfg ∧ (putSlot i b s).life = s.life ∧ (putSlot i b s).head = s.head ∧
    (putSlot i b s).tail = s.tail ∧ (putSlot i b s).rxData = s.rxData ∧ (putSlot i b s).rxReady = s.rxReady ∧
    (putSlot i b s).rxIe = s.rxIe ∧ (putSlot i b s).rxFurther = s.rxFurther ∧ (putSlot i b s).pPhase = s.pPhase ∧
    (putSlot i b s).pByte = s.pByte ∧ (putSlot i b s).pTailSeen = s.pTailSeen ∧ (putSlot i b s).pOk = s.pOk ∧
    (putSlot i b s).pIsr = s.pIsr ∧ (putSlot i b s).qPhase = s.qPhase ∧ (putSlot i b s).qHeadSeen = s.qHeadSeen ∧
    (putSlot i b s).qByte = s.qByte ∧ (putSlot i b s).qOp = s.qOp ∧ (putSlot i b s).qWork = s.qWork ∧
    (putSlot i b s).chars = s.chars ∧ (putSlot i b s).length = s.length ∧
    (putSlot i b s).interpStarted = s.interpStarted ∧ (putSlot i b s).pin = s.pin ∧
    (putSlot i b s).txOut = s.txOut ∧ (putSlot i b s).pushes = s.pushes ∧ (putSlot i b s).pops = s.pops ∧
    (putSlot i b s).seenTailN = s.seenTailN ∧ (putSlot i b s).seenHeadN = s.seenHeadN ∧
    (putSlot i b s).history = s.history ∧ (putSlot i b s).issuer = s.issuer ∧
    (putSlot i b s).schedule = s.schedule ∧ (putSlot i b s).results = s.results ∧ (putSlot i b s).draw = s.draw :=
  ⟨rfl, rfl, rfl, rfl, rfl, rfl, rfl, rfl, rfl, rfl, rfl, rfl, rfl, rfl, rfl, rfl, rfl, rfl, rfl, rfl, rfl, rfl, rfl, rfl, rfl, rfl, rfl, rfl, rfl, rfl, rfl, rfl⟩

@[simp] theorem putChar_chars (i : Nat) (b : Byte) : (putChar i b s).chars = memPut s.chars i b := rfl
@[simp] theorem putChar_frame (i : Nat) (b : Byte) :
    (putChar i b s).cfg = s.cfg ∧ (putChar i b s).life = s.life ∧ (putChar i b s).storage = s.storage ∧
    (putChar i b s).head = s.head ∧ (putChar i b s).tail = s.tail ∧ (putChar i b s).rxData = s.rxData ∧
    (putChar i b s).rxReady = s.rxReady ∧ (putChar i b s).rxIe = s.rxIe ∧
    (putChar i b s).rxFurther = s.rxFurther ∧ (putChar i b s).pPhase = s.pPhase ∧
    (putChar i b s).pByte = s.pByte ∧ (putChar i b s).pTailSeen = s.pTailSeen ∧ (putChar i b s).pOk = s.pOk ∧
    (putChar i b s).pIsr = s.pIsr ∧ (putChar i b s).qPhase = s.qPhase ∧ (putChar i b s).qHeadSeen = s.qHeadSeen ∧
    (putChar i b s).qByte = s.qByte ∧ (putChar i b s).qOp = s.qOp ∧ (putChar i b s).qWork = s.qWork ∧
    (putChar i b s).length = s.length ∧ (putChar i b s).interpStarted = s.interpStarted ∧
    (putChar i b s).pin = s.pin ∧ (putChar i b s).txOut = s.txOut ∧ (putChar i b s).pushes = s.pushes ∧
    (putChar i b s).pops = s.pops ∧ (putChar i b s).seenTailN = s.seenTailN ∧
    (putChar i b s).seenHeadN = s.seenHeadN ∧ (putChar i b s).history = s.history ∧
    (putChar i b s).issuer = s.issuer ∧ (putChar i b s).schedule = s.schedule ∧
    (putChar i b s).results = s.results ∧ (putChar i b s).draw = s.draw :=
  ⟨rfl, rfl, rfl, rfl, rfl, rfl, rfl, rfl, rfl, rfl, rfl, rfl, rfl, rfl, rfl, rfl, rfl, rfl, rfl, rfl, rfl, rfl, rfl, rfl, rfl, rfl, rfl, rfl, rfl, rfl, rfl, rfl⟩

@[simp] theorem readRxData_rxReady : ((readRxData s).2).rxReady = false := rfl
@[simp] theorem readRxData_frame :
    ((readRxData s).2).cfg = s.cfg ∧ ((readRxData s).2).life = s.life ∧ ((readRxData s).2).storage = s.storage ∧
    ((readRxData s).2).head = s.head ∧ ((readRxData s).2).tail = s.tail ∧ ((readRxData s).2).rxData = s.rxData ∧
    ((readRxData s).2).rxIe = s.rxIe ∧ ((readRxData s).2).rxFurther = s.rxFurther ∧
    ((readRxData s).2).pPhase = s.pPhase ∧ ((readRxData s).2).pByte = s.pByte ∧
    ((readRxData s).2).pTailSeen = s.pTailSeen ∧ ((readRxData s).2).pOk = s.pOk ∧
    ((readRxData s).2).pIsr = s.pIsr ∧ ((readRxData s).2).qPhase = s.qPhase ∧
    ((readRxData s).2).qHeadSeen = s.qHeadSeen ∧ ((readRxData s).2).qByte = s.qByte ∧
    ((readRxData s).2).qOp = s.qOp ∧ ((readRxData s).2).qWork = s.qWork ∧ ((readRxData s).2).chars = s.chars ∧
    ((readRxData s).2).length = s.length ∧ ((readRxData s).2).interpStarted = s.interpStarted ∧
    ((readRxData s).2).pin = s.pin ∧ ((readRxData s).2).txOut = s.txOut ∧ ((readRxData s).2).pushes = s.pushes ∧
    ((readRxData s).2).pops = s.pops ∧ ((readRxData s).2).seenTailN = s.seenTailN ∧
    ((readRxData s).2).seenHeadN = s.seenHeadN ∧ ((readRxData s).2).history = s.history ∧
    ((readRxData s).2).issuer = s.issuer ∧ ((readRxData s).2).schedule = s.schedule ∧
    ((readRxData s).2).results = s.results ∧ ((readRxData s).2).draw = s.draw :=
  ⟨rfl, rfl, rfl, rfl, rfl, rfl, rfl, rfl, rfl, rfl, rfl, rfl, rfl, rfl, rfl, rfl, rfl, rfl, rfl, rfl, rfl, rfl, rfl, rfl, rfl, rfl, rfl, rfl, rfl, rfl, rfl, rfl⟩

@[simp] theorem enterHandler_pPhase : (enterHandler s).pPhase = .fetch := rfl
@[simp] theorem enterHandler_pIsr : (enterHandler s).pIsr = true := rfl
@[simp] theorem enterHandler_frame :
    (enterHandler s).cfg = s.cfg ∧ (enterHandler s).life = s.life ∧ (enterHandler s).storage = s.storage ∧
    (enterHandler s).head = s.head ∧ (enterHandler s).tail = s.tail ∧ (enterHandler s).rxData = s.rxData ∧
    (enterHandler s).rxReady = s.rxReady ∧ (enterHandler s).rxIe = s.rxIe ∧
    (enterHandler s).rxFurther = s.rxFurther ∧ (enterHandler s).pByte = s.pByte ∧
    (enterHandler s).pTailSeen = s.pTailSeen ∧ (enterHandler s).pOk = s.pOk ∧ (enterHandler s).qPhase = s.qPhase ∧
    (enterHandler s).qHeadSeen = s.qHeadSeen ∧ (enterHandler s).qByte = s.qByte ∧ (enterHandler s).qOp = s.qOp ∧
    (enterHandler s).qWork = s.qWork ∧ (enterHandler s).chars = s.chars ∧ (enterHandler s).length = s.length ∧
    (enterHandler s).interpStarted = s.interpStarted ∧ (enterHandler s).pin = s.pin ∧
    (enterHandler s).txOut = s.txOut ∧ (enterHandler s).pushes = s.pushes ∧ (enterHandler s).pops = s.pops ∧
    (enterHandler s).seenTailN = s.seenTailN ∧ (enterHandler s).seenHeadN = s.seenHeadN ∧
    (enterHandler s).history = s.history ∧ (enterHandler s).issuer = s.issuer ∧
    (enterHandler s).schedule = s.schedule ∧ (enterHandler s).results = s.results ∧ (enterHandler s).draw = s.draw :=
  ⟨rfl, rfl, rfl, rfl, rfl, rfl, rfl, rfl, rfl, rfl, rfl, rfl, rfl, rfl, rfl, rfl, rfl, rfl, rfl, rfl, rfl, rfl, rfl, rfl, rfl, rfl, rfl, rfl, rfl, rfl, rfl⟩

@[simp] theorem leaveHandler_pPhase : (leaveHandler s).pPhase = .idle := rfl
@[simp] theorem leaveHandler_frame :
    (leaveHandler s).cfg = s.cfg ∧ (leaveHandler s).life = s.life ∧ (leaveHandler s).storage = s.storage ∧
    (leaveHandler s).head = s.head ∧ (leaveHandler s).tail = s.tail ∧ (leaveHandler s).rxData = s.rxData ∧
    (leaveHandler s).rxReady = s.rxReady ∧ (leaveHandler s).rxIe = s.rxIe ∧
    (leaveHandler s).rxFurther = s.rxFurther ∧ (leaveHandler s).pByte = s.pByte ∧
    (leaveHandler s).pTailSeen = s.pTailSeen ∧ (leaveHandler s).pOk = s.pOk ∧ (leaveHandler s).pIsr = s.pIsr ∧
    (leaveHandler s).qPhase = s.qPhase ∧ (leaveHandler s).qHeadSeen = s.qHeadSeen ∧
    (leaveHandler s).qByte = s.qByte ∧ (leaveHandler s).qOp = s.qOp ∧ (leaveHandler s).qWork = s.qWork ∧
    (leaveHandler s).chars = s.chars ∧ (leaveHandler s).length = s.length ∧
    (leaveHandler s).interpStarted = s.interpStarted ∧ (leaveHandler s).pin = s.pin ∧
    (leaveHandler s).txOut = s.txOut ∧ (leaveHandler s).pushes = s.pushes ∧ (leaveHandler s).pops = s.pops ∧
    (leaveHandler s).seenTailN = s.seenTailN ∧ (leaveHandler s).seenHeadN = s.seenHeadN ∧
    (leaveHandler s).history = s.history ∧ (leaveHandler s).issuer = s.issuer ∧
    (leaveHandler s).schedule = s.schedule ∧ (leaveHandler s).results = s.results ∧ (leaveHandler s).draw = s.draw :=
  ⟨rfl, rfl, rfl, rfl, rfl, rfl, rfl, rfl, rfl, rfl, rfl, rfl, rfl, rfl, rfl, rfl, rfl, rfl, rfl, rfl, rfl, rfl, rfl, rfl, rfl, rfl, rfl, rfl, rfl, rfl, rfl, rfl⟩

@[simp] theorem qDone_qPhase : (qDone s).qPhase = .idle := rfl
@[simp] theorem qDone_qOp : (qDone s).qOp = .none := rfl
@[simp] theorem qDone_qWork : (qDone s).qWork = [] := rfl
@[simp] theorem qDone_frame :
    (qDone s).cfg = s.cfg ∧ (qDone s).life = s.life ∧ (qDone s).storage = s.storage ∧ (qDone s).head = s.head ∧
    (qDone s).tail = s.tail ∧ (qDone s).rxData = s.rxData ∧ (qDone s).rxReady = s.rxReady ∧
    (qDone s).rxIe = s.rxIe ∧ (qDone s).rxFurther = s.rxFurther ∧ (qDone s).pPhase = s.pPhase ∧
    (qDone s).pByte = s.pByte ∧ (qDone s).pTailSeen = s.pTailSeen ∧ (qDone s).pOk = s.pOk ∧
    (qDone s).pIsr = s.pIsr ∧ (qDone s).qHeadSeen = s.qHeadSeen ∧ (qDone s).qByte = s.qByte ∧
    (qDone s).chars = s.chars ∧ (qDone s).length = s.length ∧ (qDone s).interpStarted = s.interpStarted ∧
    (qDone s).pin = s.pin ∧ (qDone s).txOut = s.txOut ∧ (qDone s).pushes = s.pushes ∧ (qDone s).pops = s.pops ∧
    (qDone s).seenTailN = s.seenTailN ∧ (qDone s).seenHeadN = s.seenHeadN ∧ (qDone s).history = s.history ∧
    (qDone s).issuer = s.issuer ∧ (qDone s).schedule = s.schedule ∧ (qDone s).results = s.results ∧
    (qDone s).draw = s.draw :=
  ⟨rfl, rfl, rfl, rfl, rfl, rfl, rfl, rfl, rfl, rfl, rfl, rfl, rfl, rfl, rfl, rfl, rfl, rfl, rfl, rfl, rfl, rfl, rfl, rfl, rfl, rfl, rfl, rfl, rfl, rfl⟩

end Sys2Proof.Machine
end

