-- ==== Sys2Proof/Laws/Pointers.lean ====
section
/-! SUPPORT. The laws of the pointers: the increment, the flags computed from the pointers, and what a read of the other
side's pointer can return. -/

namespace Sys2Proof.Machine

/-- The increment stays in range (40_ringbuffer.md R100). -/
theorem nextIndex_lt {c : Config} (hc : 0 < c.C) (i : Nat) : nextIndex c i < c.C := Nat.mod_lt _ hc

/-- Below the last index the increment adds one (R100). -/
theorem nextIndex_of_lt {c : Config} {i : Nat} (h : i + 1 < c.C) : nextIndex c i = i + 1 := Nat.mod_eq_of_lt h

/-- From the last index the increment wraps to 0 (R100). -/
theorem nextIndex_last {c : Config} {i : Nat} (h : i + 1 = c.C) : nextIndex c i = 0 := by
  simp [nextIndex, h]

/-- The increment of a counter taken modulo `C`. -/
theorem nextIndex_mod (c : Config) (n : Nat) : nextIndex c (n % c.C) = (n + 1) % c.C := by
  simp [nextIndex, Nat.add_mod]

/-- Two numbers less than `C` apart have the same remainder only where they are equal. -/
theorem eq_of_mod_eq {a b C : Nat} (hab : a ≤ b) (hC : b < a + C) (h : a % C = b % C) : a = b := by
  obtain ⟨d, rfl⟩ := Nat.exists_eq_add_of_le hab
  have hd : d < C := by omega
  have h2 : (a + 0) % C = (a + d) % C := h
  have : 0 % C = d % C := Nat.ModEq.add_left_cancel' a h2
  rw [Nat.zero_mod, Nat.mod_eq_of_lt hd] at this
  omega

/-- The number a read picks is one the pointer has had since the reader's last one. -/
theorem pickNumber_bounds {lo hi d : Nat} (h : lo ≤ hi) : lo ≤ pickNumber lo hi d ∧ pickNumber lo hi d ≤ hi := by
  unfold pickNumber
  split
  · omega
  · have := Nat.mod_lt d (show 0 < hi - lo + 1 by omega)
    omega

/-- Where the reader has seen the current value, it picks that. -/
@[simp] theorem pickNumber_self (n d : Nat) : pickNumber n n d = n := by simp [pickNumber]

/-- A read of `tail` by P changes nothing but what P has seen, and the count of draws. -/
@[simp] theorem readTailFromP_frame (s : State) :
    (readTailFromP s).2.cfg = s.cfg ∧ (readTailFromP s).2.life = s.life ∧ (readTailFromP s).2.storage = s.storage ∧
    (readTailFromP s).2.head = s.head ∧ (readTailFromP s).2.tail = s.tail ∧ (readTailFromP s).2.rxData = s.rxData ∧
    (readTailFromP s).2.rxReady = s.rxReady ∧ (readTailFromP s).2.rxIe = s.rxIe ∧
    (readTailFromP s).2.rxFurther = s.rxFurther ∧ (readTailFromP s).2.pPhase = s.pPhase ∧
    (readTailFromP s).2.pByte = s.pByte ∧ (readTailFromP s).2.pTailSeen = s.pTailSeen ∧
    (readTailFromP s).2.pOk = s.pOk ∧ (readTailFromP s).2.pIsr = s.pIsr ∧ (readTailFromP s).2.qPhase = s.qPhase ∧
    (readTailFromP s).2.qHeadSeen = s.qHeadSeen ∧ (readTailFromP s).2.qByte = s.qByte ∧
    (readTailFromP s).2.qOp = s.qOp ∧ (readTailFromP s).2.qWork = s.qWork ∧ (readTailFromP s).2.chars = s.chars ∧
    (readTailFromP s).2.length = s.length ∧ (readTailFromP s).2.interpStarted = s.interpStarted ∧
    (readTailFromP s).2.pin = s.pin ∧ (readTailFromP s).2.txOut = s.txOut ∧ (readTailFromP s).2.pushes = s.pushes ∧
    (readTailFromP s).2.pops = s.pops ∧ (readTailFromP s).2.seenHeadN = s.seenHeadN ∧
    (readTailFromP s).2.history = s.history ∧ (readTailFromP s).2.issuer = s.issuer ∧
    (readTailFromP s).2.schedule = s.schedule ∧ (readTailFromP s).2.results = s.results := by
  unfold readTailFromP
  split <;> simp

/-- A read of `head` by Q changes nothing but what Q has seen, and the count of draws. -/
@[simp] theorem readHeadFromQ_frame (s : State) :
    (readHeadFromQ s).2.cfg = s.cfg ∧ (readHeadFromQ s).2.life = s.life ∧ (readHeadFromQ s).2.storage = s.storage ∧
    (readHeadFromQ s).2.head = s.head ∧ (readHeadFromQ s).2.tail = s.tail ∧ (readHeadFromQ s).2.rxData = s.rxData ∧
    (readHeadFromQ s).2.rxReady = s.rxReady ∧ (readHeadFromQ s).2.rxIe = s.rxIe ∧
    (readHeadFromQ s).2.rxFurther = s.rxFurther ∧ (readHeadFromQ s).2.pPhase = s.pPhase ∧
    (readHeadFromQ s).2.pByte = s.pByte ∧ (readHeadFromQ s).2.pTailSeen = s.pTailSeen ∧
    (readHeadFromQ s).2.pOk = s.pOk ∧ (readHeadFromQ s).2.pIsr = s.pIsr ∧ (readHeadFromQ s).2.qPhase = s.qPhase ∧
    (readHeadFromQ s).2.qHeadSeen = s.qHeadSeen ∧ (readHeadFromQ s).2.qByte = s.qByte ∧
    (readHeadFromQ s).2.qOp = s.qOp ∧ (readHeadFromQ s).2.qWork = s.qWork ∧ (readHeadFromQ s).2.chars = s.chars ∧
    (readHeadFromQ s).2.length = s.length ∧ (readHeadFromQ s).2.interpStarted = s.interpStarted ∧
    (readHeadFromQ s).2.pin = s.pin ∧ (readHeadFromQ s).2.txOut = s.txOut ∧ (readHeadFromQ s).2.pushes = s.pushes ∧
    (readHeadFromQ s).2.pops = s.pops ∧ (readHeadFromQ s).2.seenTailN = s.seenTailN ∧
    (readHeadFromQ s).2.history = s.history ∧ (readHeadFromQ s).2.issuer = s.issuer ∧
    (readHeadFromQ s).2.schedule = s.schedule ∧ (readHeadFromQ s).2.results = s.results := by
  unfold readHeadFromQ
  split <;> simp

/-- What a read of `tail` by P returns (20_memory.md R58): the value of a number not below the one last seen and not
above the current one, which P has then seen. -/
theorem readTailFromP_value {s : State} (ht : s.tail = s.pops % s.cfg.C) (hs : s.seenTailN ≤ s.pops) :
    (readTailFromP s).1 = (readTailFromP s).2.seenTailN % s.cfg.C ∧
    s.seenTailN ≤ (readTailFromP s).2.seenTailN ∧ (readTailFromP s).2.seenTailN ≤ s.pops := by
  unfold readTailFromP
  split
  · exact ⟨ht, hs, Nat.le_refl _⟩
  · exact ⟨rfl, pickNumber_bounds hs⟩

/-- What a read of `head` by Q returns (R58). -/
theorem readHeadFromQ_value {s : State} (hh : s.head = s.pushes % s.cfg.C) (hs : s.seenHeadN ≤ s.pushes) :
    (readHeadFromQ s).1 = (readHeadFromQ s).2.seenHeadN % s.cfg.C ∧
    s.seenHeadN ≤ (readHeadFromQ s).2.seenHeadN ∧ (readHeadFromQ s).2.seenHeadN ≤ s.pushes := by
  unfold readHeadFromQ
  split
  · exact ⟨hh, hs, Nat.le_refl _⟩
  · exact ⟨rfl, pickNumber_bounds hs⟩

/-- Under `VIS = Fresh` a read of `tail` by P returns the current value (R58). -/
theorem readTailFromP_fresh {s : State} (h : s.cfg.vis = .fresh) :
    readTailFromP s = (s.tail, { s with seenTailN := s.pops }) := by
  unfold readTailFromP
  rw [h]

/-- Under `VIS = Fresh` a read of `head` by Q returns the current value (R58). -/
theorem readHeadFromQ_fresh {s : State} (h : s.cfg.vis = .fresh) :
    readHeadFromQ s = (s.head, { s with seenHeadN := s.pushes }) := by
  unfold readHeadFromQ
  rw [h]

end Sys2Proof.Machine
end

