-- ==== Sys2Proof/Laws/Consumer.lean ====
section
/-! SUPPORT. What Q's micro-steps can change: nothing that belongs to P (60_exceptions.md R193). -/

namespace Sys2Proof.Machine

/-- The interpreter's acts write only what is Q's own (43_command_interpreter.md R163). -/
@[simp] theorem doAct_frame (a : CiAct) (s : State) :
    (doAct a s).cfg = s.cfg ∧ (doAct a s).life = s.life ∧ (doAct a s).storage = s.storage ∧
    (doAct a s).head = s.head ∧ (doAct a s).tail = s.tail ∧ (doAct a s).rxData = s.rxData ∧
    (doAct a s).rxReady = s.rxReady ∧ (doAct a s).rxIe = s.rxIe ∧ (doAct a s).rxFurther = s.rxFurther ∧
    (doAct a s).pPhase = s.pPhase ∧ (doAct a s).pByte = s.pByte ∧ (doAct a s).pTailSeen = s.pTailSeen ∧
    (doAct a s).pOk = s.pOk ∧ (doAct a s).pIsr = s.pIsr ∧ (doAct a s).qPhase = s.qPhase ∧
    (doAct a s).qHeadSeen = s.qHeadSeen ∧ (doAct a s).qByte = s.qByte ∧ (doAct a s).qOp = s.qOp ∧
    (doAct a s).qWork = s.qWork ∧ (doAct a s).interpStarted = s.interpStarted ∧ (doAct a s).pushes = s.pushes ∧
    (doAct a s).pops = s.pops ∧ (doAct a s).seenTailN = s.seenTailN ∧ (doAct a s).seenHeadN = s.seenHeadN ∧
    (doAct a s).issuer = s.issuer ∧ (doAct a s).schedule = s.schedule ∧ (doAct a s).results = s.results ∧
    (doAct a s).draw = s.draw := by
  cases a with
  | effect cmd => cases cmd <;> simp [doAct, runEffect]
  | append c => simp [doAct, appendChar]
  | erase => simp [doAct, eraseChar]
  | transmit b => simp [doAct]
  | unknown line => simp [doAct]
  | resetLength => simp [doAct]
  | drop c => simp [doAct]

/-- The same of all the acts of one byte. -/
@[simp] theorem doActs_frame (acts : List CiAct) (s : State) :
    (doActs acts s).cfg = s.cfg ∧ (doActs acts s).life = s.life ∧ (doActs acts s).storage = s.storage ∧
    (doActs acts s).head = s.head ∧ (doActs acts s).tail = s.tail ∧ (doActs acts s).rxData = s.rxData ∧
    (doActs acts s).rxReady = s.rxReady ∧ (doActs acts s).rxIe = s.rxIe ∧ (doActs acts s).rxFurther = s.rxFurther ∧
    (doActs acts s).pPhase = s.pPhase ∧ (doActs acts s).pByte = s.pByte ∧
    (doActs acts s).pTailSeen = s.pTailSeen ∧ (doActs acts s).pOk = s.pOk ∧ (doActs acts s).pIsr = s.pIsr ∧
    (doActs acts s).qPhase = s.qPhase ∧ (doActs acts s).qHeadSeen = s.qHeadSeen ∧ (doActs acts s).qByte = s.qByte ∧
    (doActs acts s).qOp = s.qOp ∧ (doActs acts s).qWork = s.qWork ∧
    (doActs acts s).interpStarted = s.interpStarted ∧ (doActs acts s).pushes = s.pushes ∧
    (doActs acts s).pops = s.pops ∧ (doActs acts s).seenTailN = s.seenTailN ∧
    (doActs acts s).seenHeadN = s.seenHeadN ∧ (doActs acts s).issuer = s.issuer ∧
    (doActs acts s).schedule = s.schedule ∧ (doActs acts s).results = s.results ∧ (doActs acts s).draw = s.draw := by
  induction acts generalizing s with
  | nil => simp [doActs]
  | cons a rest ih => simp only [doActs, ih, doAct_frame, and_self]

/-- The acts of a list joined from two are the acts of the one and then of the other. -/
theorem doActs_append (as bs : List CiAct) (s : State) : doActs (as ++ bs) s = doActs bs (doActs as s) := by
  induction as generalizing s with
  | nil => rfl
  | cons a rest ih => simp only [List.cons_append, doActs, ih]

/-- `emit` appends its bytes to the outbound stream and records them, and does nothing else (00_scope.md R13). -/
theorem doActs_emit (bytes : List Byte) (s : State) :
    doActs (emitActs bytes) s =
      { s with txOut := s.txOut ++ bytes, history := s.history ++ bytes.map .tx } := by
  induction bytes generalizing s with
  | nil => simp [emitActs, doActs]
  | cons b rest ih =>
    have h : doActs (emitActs (b :: rest)) s = doActs (emitActs rest) (transmit b s) := rfl
    rw [h, ih]
    simp [transmit, record]

/-- Q's sample of `head` writes nothing but what Q has seen. -/
@[simp] theorem sampleHead_frame (s : State) :
    (sampleHead s).cfg = s.cfg ∧ (sampleHead s).life = s.life ∧ (sampleHead s).storage = s.storage ∧
    (sampleHead s).head = s.head ∧ (sampleHead s).tail = s.tail ∧ (sampleHead s).rxData = s.rxData ∧
    (sampleHead s).rxReady = s.rxReady ∧ (sampleHead s).rxIe = s.rxIe ∧ (sampleHead s).rxFurther = s.rxFurther ∧
    (sampleHead s).pPhase = s.pPhase ∧ (sampleHead s).pByte = s.pByte ∧ (sampleHead s).pTailSeen = s.pTailSeen ∧
    (sampleHead s).pOk = s.pOk ∧ (sampleHead s).pIsr = s.pIsr ∧ (sampleHead s).qPhase = s.qPhase ∧
    (sampleHead s).qByte = s.qByte ∧ (sampleHead s).qOp = s.qOp ∧ (sampleHead s).qWork = s.qWork ∧
    (sampleHead s).chars = s.chars ∧ (sampleHead s).length = s.length ∧
    (sampleHead s).interpStarted = s.interpStarted ∧ (sampleHead s).pin = s.pin ∧ (sampleHead s).txOut = s.txOut ∧
    (sampleHead s).pushes = s.pushes ∧ (sampleHead s).pops = s.pops ∧ (sampleHead s).seenTailN = s.seenTailN ∧
    (sampleHead s).history = s.history ∧ (sampleHead s).issuer = s.issuer ∧
    (sampleHead s).schedule = s.schedule ∧ (sampleHead s).results = s.results := by
  simp [sampleHead]

/-- A micro-step of Q writes nothing of P's, of E's or of the startup code's, and no slot. -/
@[simp] theorem qStep_frame (s : State) :
    (qStep s).cfg = s.cfg ∧ (qStep s).life = s.life ∧ (qStep s).storage = s.storage ∧ (qStep s).head = s.head ∧
    (qStep s).rxData = s.rxData ∧ (qStep s).rxReady = s.rxReady ∧ (qStep s).rxIe = s.rxIe ∧
    (qStep s).rxFurther = s.rxFurther ∧ (qStep s).pPhase = s.pPhase ∧ (qStep s).pByte = s.pByte ∧
    (qStep s).pTailSeen = s.pTailSeen ∧ (qStep s).pOk = s.pOk ∧ (qStep s).pIsr = s.pIsr ∧
    (qStep s).interpStarted = s.interpStarted ∧ (qStep s).pushes = s.pushes ∧ (qStep s).seenTailN = s.seenTailN ∧
    (qStep s).issuer = s.issuer ∧ (qStep s).schedule = s.schedule := by
  cases hp : s.qPhase
  · cases hw : s.qWork <;> simp [qStep, hp, qWorkStep, hw]
  · cases ho : s.qOp <;> simp [qStep, hp, qSample, ho]
  · by_cases he : s.qHeadSeen = s.tail <;>
      cases ho : s.qOp <;> simp [qStep, hp, qRead, popRead, popEmpty, ho, he]
  · cases ho : s.qOp <;> simp [qStep, hp, qPublish, popReturn, ho, beginRow]

/-- The interpreter's acts do not look at the list they stand in. -/
theorem doAct_withWork (a : CiAct) (s : State) (w : List CiAct) :
    doAct a { s with qWork := w } = { doAct a s with qWork := w } := by
  cases a with
  | effect cmd => cases cmd <;> rfl
  | append c => rfl
  | erase => rfl
  | transmit b => rfl
  | unknown line => rfl
  | resetLength => rfl
  | drop c => rfl

/-- The same of a list of them. -/
theorem doActs_withWork (as : List CiAct) (s : State) (w : List CiAct) :
    doActs as { s with qWork := w } = { doActs as s with qWork := w } := by
  induction as generalizing s with
  | nil => rfl
  | cons a rest ih => simp only [doActs, doAct_withWork, ih]

/-- The interpreter's work without a break is Q's micro-steps one after another, the last of which returns. -/
theorem iterate_qStep_of_work {s : State} (hp : s.qPhase = .idle) :
    qStep^[s.qWork.length + 1] s = qDone (doActs s.qWork s) := by
  generalize hw : s.qWork = w
  induction w generalizing s with
  | nil => simp [qStep, hp, qWorkStep, hw, doActs]
  | cons a rest ih =>
    have hstep : qStep s = { doAct a s with qWork := rest } := by simp [qStep, hp, qWorkStep, hw]
    rw [List.length_cons, Function.iterate_succ_apply, hstep, ih (by simpa using hp) rfl, doActs_withWork]
    rfl

/-- Q's operation without a break is its micro-steps one after another: a property that every micro-step keeps is kept
by the rest of Q's operation. -/
theorem qFinish_keeps {I : State → Prop} (hI : ∀ s, I s → I (qStep s)) {s : State} (h : I s) : I (qFinish s) := by
  have hn : ∀ n s, I s → I (qStep^[n] s) := fun n => by
    induction n with
    | zero => exact fun s h => h
    | succ n ih => exact fun s h => ih _ (hI s h)
  have hread : ∀ s, I s → s.qPhase = .read → I (finishRead s) := fun s h hp => by
    have hr : I (qRead s) := by simpa [qStep, hp] using hI s h
    unfold finishRead
    split
    · rename_i hp2
      simpa [qStep, hp2] using hI _ hr
    all_goals exact hr
  have hpop : I (finishPop s) := by
    unfold finishPop
    split
    · exact h
    · rename_i hp
      have hs : I (qSample s) := by simpa [qStep, hp] using hI s h
      split
      · exact hread _ hs ‹_›
      all_goals exact hs
    · exact hread _ h ‹_›
    · rename_i hp
      simpa [qStep, hp] using hI s h
  unfold qFinish finishWork
  split
  · rw [← iterate_qStep_of_work ‹_›]
    exact hn _ _ hpop
  all_goals exact hpop

/-! ## What the rest of Q's operation comes to -/

/-- The sample of `head` does not depend on what Q is doing. -/
theorem readHeadFromQ_withOp (s : State) (op : QOp) (p : QPhase) :
    readHeadFromQ { s with qOp := op, qPhase := p } =
      ((readHeadFromQ s).1, { (readHeadFromQ s).2 with qOp := op, qPhase := p }) := by
  unfold readHeadFromQ
  cases hv : s.cfg.vis <;> simp

/-- Q at rest after its operation has no work left to run. -/
theorem finishWork_qDone (s : State) : finishWork (qDone s) = qDone s := by simp [finishWork, qDone, doActs]

/-- The sample of `head`, for every operation that makes one. -/
theorem qSample_eq {s : State}
    (ho : s.qOp = .tryPop ∨ s.qOp = .isEmpty ∨ s.qOp = .readByte ∨ s.qOp = .dataAvailable ∨ s.qOp = .ciIter) :
    qSample s = { (readHeadFromQ s).2 with qHeadSeen := (readHeadFromQ s).1, qPhase := .read } := by
  rcases ho with ho | ho | ho | ho | ho <;> simp [qSample, sampleHead, ho]

/-- From the sample on, one pass is what it is after the sample. -/
theorem finishPop_of_sample {s : State} (hp : s.qPhase = .sample)
    (ho : s.qOp = .tryPop ∨ s.qOp = .isEmpty ∨ s.qOp = .readByte ∨ s.qOp = .dataAvailable ∨ s.qOp = .ciIter) :
    finishPop s = finishRead (qSample s) := by
  have hr : (qSample s).qPhase = .read := by rw [qSample_eq ho]
  unfold finishPop
  rw [hp]
  simp only [hr]

/-- A pop whose sample shows a byte: the byte at `tail` is read, `tail` advances, and the byte goes to whoever asked for
it (40_ringbuffer.md R105). -/
theorem finishRead_of_byte {s : State} (ho : s.qOp = .tryPop ∨ s.qOp = .readByte ∨ s.qOp = .ciIter)
    (hb : s.qHeadSeen ≠ s.tail) :
    finishRead s = popReturn { s with
      qByte := slotByte s s.tail, qPhase := .publish, tail := nextIndex s.cfg s.tail, pops := s.pops + 1,
      history := s.history ++ [.popSome (slotByte s s.tail) s.tail] } := by
  have hr : qRead s = { s with qByte := slotByte s s.tail, qPhase := .publish } := by
    rcases ho with ho | ho | ho <;> simp [qRead, popRead, ho, hb]
  unfold finishRead
  rw [hr]
  rfl

/-- A pop whose sample shows no byte (R105 step 2; 42_linereader.md R135). -/
theorem finishRead_of_none {s : State} (ho : s.qOp = .tryPop ∨ s.qOp = .readByte ∨ s.qOp = .ciIter)
    (hb : s.qHeadSeen = s.tail) : finishRead s = popEmpty s := by
  have hr : qRead s = popEmpty s := by rcases ho with ho | ho | ho <;> simp [qRead, popRead, ho, hb]
  have hn : (popEmpty s).qPhase ≠ .publish := by rcases ho with ho | ho | ho <;> simp [popEmpty, ho]
  unfold finishRead
  rw [hr]
  split
  · exact absurd ‹_› hn
  all_goals rfl

/-- A pop from its sample, where the sample shows a byte. -/
theorem qFinish_of_byte {s : State} (hp : s.qPhase = .sample)
    (ho : s.qOp = .tryPop ∨ s.qOp = .readByte ∨ s.qOp = .ciIter) (hb : (readHeadFromQ s).1 ≠ s.tail) :
    qFinish s = finishWork (popReturn { (readHeadFromQ s).2 with
      qHeadSeen := (readHeadFromQ s).1, qByte := slotByte s s.tail, qPhase := .publish,
      tail := nextIndex s.cfg s.tail, pops := s.pops + 1,
      history := s.history ++ [.popSome (slotByte s s.tail) s.tail] }) := by
  have ho' : s.qOp = .tryPop ∨ s.qOp = .isEmpty ∨ s.qOp = .readByte ∨ s.qOp = .dataAvailable ∨ s.qOp = .ciIter := by
    tauto
  unfold qFinish
  rw [finishPop_of_sample hp ho', qSample_eq ho', finishRead_of_byte (by simpa using ho) (by simpa using hb)]
  simp [slotByte]

/-- A pop from its sample, where the sample shows no byte. -/
theorem qFinish_of_none {s : State} (hp : s.qPhase = .sample)
    (ho : s.qOp = .tryPop ∨ s.qOp = .readByte ∨ s.qOp = .ciIter) (hb : (readHeadFromQ s).1 = s.tail) :
    qFinish s = finishWork (popEmpty { (readHeadFromQ s).2 with qHeadSeen := (readHeadFromQ s).1, qPhase := .read }) := by
  have ho' : s.qOp = .tryPop ∨ s.qOp = .isEmpty ∨ s.qOp = .readByte ∨ s.qOp = .dataAvailable ∨ s.qOp = .ciIter := by
    tauto
  unfold qFinish
  rw [finishPop_of_sample hp ho', qSample_eq ho', finishRead_of_none (by simpa using ho) (by simpa using hb)]

/-- IS_EMPTY as Q runs it (40_ringbuffer.md R106). -/
theorem qFinish_of_isEmpty {s : State} (hp : s.qPhase = .sample) (ho : s.qOp = .isEmpty) :
    qFinish s = qDone (deliver .q (boolWord ((readHeadFromQ s).1 == s.tail))
      { (readHeadFromQ s).2 with qHeadSeen := (readHeadFromQ s).1 }) := by
  have ho' : s.qOp = .tryPop ∨ s.qOp = .isEmpty ∨ s.qOp = .readByte ∨ s.qOp = .dataAvailable ∨ s.qOp = .ciIter := by
    tauto
  unfold qFinish
  rw [finishPop_of_sample hp ho', qSample_eq ho']
  simp [finishRead, qRead, ho, finishWork_qDone]
  rfl

/-- DATA_AVAILABLE as Q runs it (42_linereader.md R136). -/
theorem qFinish_of_dataAvailable {s : State} (hp : s.qPhase = .sample) (ho : s.qOp = .dataAvailable) :
    qFinish s = qDone (deliver .q (boolWord (!((readHeadFromQ s).1 == s.tail)))
      { (readHeadFromQ s).2 with qHeadSeen := (readHeadFromQ s).1 }) := by
  have ho' : s.qOp = .tryPop ∨ s.qOp = .isEmpty ∨ s.qOp = .readByte ∨ s.qOp = .dataAvailable ∨ s.qOp = .ciIter := by
    tauto
  unfold qFinish
  rw [finishPop_of_sample hp ho', qSample_eq ho']
  simp [finishRead, qRead, ho, finishWork_qDone]
  rfl

/-- CI_STEP once begun: the row's work in order, and the return (43_command_interpreter.md R149). -/
theorem qFinish_of_row (c : Byte) (s : State) : qFinish (beginRow c s) = qDone (doActs (ciRow c s) s) := by
  show qDone (doActs (ciRow c s) { s with qPhase := .idle, qWork := ciRow c s }) = _
  have h : ∀ (as : List CiAct) (u : State) (p : QPhase) (w : List CiAct),
      qDone (doActs as { u with qPhase := p, qWork := w }) = qDone (doActs as u) := by
    intro as
    induction as with
    | nil => intro u p w; rfl
    | cons a rest ih =>
      intro u p w
      have ha : doAct a { u with qPhase := p, qWork := w } = { doAct a u with qPhase := p, qWork := w } := by
        cases a with
        | effect cmd => cases cmd <;> rfl
        | append c => rfl
        | erase => rfl
        | transmit b => rfl
        | unknown line => rfl
        | resetLength => rfl
        | drop c => rfl
      simp only [doActs, ha, ih]
  exact h _ s .idle _

end Sys2Proof.Machine
end

