-- ==== Sys2Proof/Laws/Interpreter.lean ====
section
/-! SUPPORT. What the transition table and the startup sequence come to. -/

namespace Sys2Proof.Machine

/-- The four rows of the transition table, each with the condition under which it is the one (43_command_interpreter.md
R149). -/
theorem ciRow_cases (c : Byte) (s : State) :
    (c = Text.cr ∧ ciRow c s = rowCr s) ∨
    (c ≠ Text.cr ∧ (c = Text.del ∨ c = Text.backspace) ∧ ciRow c s = rowErase) ∨
    (c ≠ Text.cr ∧ c ≠ Text.del ∧ c ≠ Text.backspace ∧ s.length + 1 < s.cfg.N ∧ ciRow c s = rowAppend c) ∨
    (c ≠ Text.cr ∧ c ≠ Text.del ∧ c ≠ Text.backspace ∧ s.cfg.N ≤ s.length + 1 ∧ ciRow c s = rowDrop c) := by
  by_cases hc : c = Text.cr
  · exact .inl ⟨hc, by simp [ciRow, hc]⟩
  · by_cases hd : c = Text.del ∨ c = Text.backspace
    · exact .inr (.inl ⟨hc, hd, by simp [ciRow, hc, hd]⟩)
    · obtain ⟨hd, hb⟩ := not_or.mp hd
      by_cases hl : s.length < s.cfg.N - 1
      · exact .inr (.inr (.inl ⟨hc, hd, hb, by omega, by simp [ciRow, hc, hd, hb, hl]⟩))
      · exact .inr (.inr (.inr ⟨hc, hd, hb, by omega, by simp [ciRow, hc, hd, hb, hl]⟩))

/-- Only row APPEND stores a character, and it stores one (R152). -/
theorem append_mem_ciRow {c d : Byte} {s : State} (h : CiAct.append d ∈ ciRow c s) :
    ciRow c s = rowAppend d ∧ s.length + 1 < s.cfg.N := by
  obtain ⟨-, hr⟩ | ⟨-, -, hr⟩ | ⟨-, -, -, hl, hr⟩ | ⟨-, -, -, -, hr⟩ := ciRow_cases c s
  · rw [hr] at h
    simp only [rowCr, dispatchActs, emitActs] at h
    split at h
    · simp at h
    · split at h <;> simp at h
  · simp [hr, rowErase, emitActs] at h
  · rw [hr] at h ⊢
    simp only [rowAppend, List.mem_cons, CiAct.append.injEq, List.not_mem_nil, or_false, reduceCtorEq] at h
    exact ⟨by rw [h], hl⟩
  · simp [hr, rowDrop] at h

/-- Looking a line up finds the command of the entry the line is (R146, R154). -/
theorem lookupCommand_some_iff (bytes : List Byte) (cmd : Command) :
    lookupCommand bytes = some cmd ↔ (bytes, cmd) ∈ commandTable := by
  have hlist : (bytes, cmd) ∈ commandTable ↔
      (bytes = Text.help ∧ cmd = .help) ∨ (bytes = Text.ledOn ∧ cmd = .ledOn) ∨
      (bytes = Text.ledOff ∧ cmd = .ledOff) ∨ (bytes = Text.toggle ∧ cmd = .toggle) ∨
      (bytes = Text.status ∧ cmd = .status) := by simp [commandTable]
  rw [hlist]
  by_cases h1 : bytes = Text.help
  · subst h1
    cases cmd <;> decide
  by_cases h2 : bytes = Text.ledOn
  · subst h2
    cases cmd <;> decide
  by_cases h3 : bytes = Text.ledOff
  · subst h3
    cases cmd <;> decide
  by_cases h4 : bytes = Text.toggle
  · subst h4
    cases cmd <;> decide
  by_cases h5 : bytes = Text.status
  · subst h5
    cases cmd <;> decide
  have hne : ∀ {t : List Byte}, bytes ≠ t → (t == bytes) = false := fun h => by simpa using Ne.symm h
  simp [lookupCommand, commandTable, h1, h2, h3, h4, h5, hne]

/-- The startup sequence (70_reset_and_hazards.md R208). -/
theorem initSequence_eq (s : State) :
    initSequence s = { s with
      head := 0, tail := 0, pushes := 0, pops := 0, seenHeadN := 0, seenTailN := 0, rxReady := false, rxIe := true,
      life := .active } := rfl

end Sys2Proof.Machine
end

