-- ==== Sys2Proof/Laws/Memory.lean ====
section
/-! SUPPORT. The laws of the byte arrays: read after write, and the canonical form is kept. -/

namespace Sys2Proof.Machine

@[simp] theorem memGet_nil (i : Nat) : memGet [] i = none := rfl

/-- A cell below every listed index is not written. -/
theorem memGet_of_lt {m : Memory} {lo i : Nat} (h : memSortedFrom lo m = true) (hi : i < lo) : memGet m i = none := by
  induction m generalizing lo with
  | nil => rfl
  | cons cell rest ih =>
    obtain ⟨k, b⟩ := cell
    simp only [memSortedFrom, Bool.and_eq_true, decide_eq_true_eq] at h
    simp only [memGet]
    rw [if_neg (by omega)]
    exact ih h.2 (by omega)

/-- The cell just written reads as the byte written. -/
@[simp] theorem memGet_memPut_self (m : Memory) (i : Nat) (b : Byte) : memGet (memPut m i b) i = some b := by
  induction m with
  | nil => simp [memPut, memGet]
  | cons cell rest ih =>
    obtain ⟨k, d⟩ := cell
    simp only [memPut]
    split
    · simp [memGet]
    · split
      · simp [memGet]
      · rename_i h1 h2
        simp [memGet, h2, ih]

/-- Every other cell reads as before. -/
theorem memGet_memPut_of_ne {m : Memory} {i j : Nat} (b : Byte) (h : j ≠ i) :
    memGet (memPut m i b) j = memGet m j := by
  induction m with
  | nil => simp [memPut, memGet, h]
  | cons cell rest ih =>
    obtain ⟨k, d⟩ := cell
    simp only [memPut]
    split
    · simp [memGet, h]
    · split
      · rename_i h1 h2
        subst h2
        simp [memGet, h]
      · simp only [memGet, ih]

/-- A write keeps the indices at or above a bound, and strictly rising. -/
theorem memSortedFrom_memPut {m : Memory} {lo i : Nat} (b : Byte) (h : memSortedFrom lo m = true) (hi : lo ≤ i) :
    memSortedFrom lo (memPut m i b) = true := by
  induction m generalizing lo with
  | nil => simp [memPut, memSortedFrom, hi]
  | cons cell rest ih =>
    obtain ⟨k, d⟩ := cell
    simp only [memSortedFrom, Bool.and_eq_true, decide_eq_true_eq] at h
    simp only [memPut]
    split
    · simp only [memSortedFrom, Bool.and_eq_true, decide_eq_true_eq]
      exact ⟨hi, by omega, h.2⟩
    · split
      · rename_i h1 h2
        subst h2
        simp only [memSortedFrom, Bool.and_eq_true, decide_eq_true_eq]
        exact ⟨hi, h.2⟩
      · simp only [memSortedFrom, Bool.and_eq_true, decide_eq_true_eq]
        exact ⟨h.1, ih h.2 (by omega)⟩

/-- A write keeps the canonical form. -/
theorem memWf_memPut {m : Memory} (i : Nat) (b : Byte) (h : memWf m = true) : memWf (memPut m i b) = true :=
  memSortedFrom_memPut b h (Nat.zero_le i)

/-- A write inside the array keeps every index inside it. -/
theorem memBelow_memPut {m : Memory} {n i : Nat} (b : Byte) (h : memBelow n m = true) (hi : i < n) :
    memBelow n (memPut m i b) = true := by
  induction m with
  | nil => simp [memPut, memBelow, hi]
  | cons cell rest ih =>
    obtain ⟨k, d⟩ := cell
    simp only [memBelow, List.all_cons, Bool.and_eq_true, decide_eq_true_eq] at h
    have hrest : memBelow n (memPut rest i b) = true := ih h.2
    simp only [memPut]
    split
    · simp [memBelow, hi, h.1]
      simpa using h.2
    · split
      · simp [memBelow, hi]
        simpa using h.2
      · simp only [memBelow, List.all_cons, Bool.and_eq_true, decide_eq_true_eq] at hrest ⊢
        exact ⟨h.1, hrest⟩

/-- Two canonical arrays that read alike everywhere are equal data. -/
theorem memSorted_ext {m m' : Memory} {lo : Nat} (h : memSortedFrom lo m = true) (h' : memSortedFrom lo m' = true)
    (hg : ∀ i, memGet m i = memGet m' i) : m = m' := by
  induction m generalizing lo m' with
  | nil =>
    cases m' with
    | nil => rfl
    | cons cell rest => simpa [memGet] using hg cell.1
  | cons cell rest ih =>
    obtain ⟨k, b⟩ := cell
    cases m' with
    | nil => simpa [memGet] using hg k
    | cons cell' rest' =>
      obtain ⟨k', b'⟩ := cell'
      simp only [memSortedFrom, Bool.and_eq_true, decide_eq_true_eq] at h h'
      have hk : k = k' := by
        rcases Nat.lt_trichotomy k k' with hlt | heq | hgt
        · have := hg k
          simp [memGet, Nat.ne_of_lt hlt, memGet_of_lt h'.2 (show k < k' + 1 by omega)] at this
        · exact heq
        · have := hg k'
          simp [memGet, Nat.ne_of_lt hgt, memGet_of_lt h.2 (show k' < k + 1 by omega)] at this
      subst hk
      have hb : b = b' := by simpa [memGet] using hg k
      subst hb
      have hrest : rest = rest' := by
        refine ih h.2 h'.2 fun i => ?_
        by_cases hik : i = k
        · subst hik
          rw [memGet_of_lt h.2 (by omega), memGet_of_lt h'.2 (by omega)]
        · simpa [memGet, hik] using hg i
      rw [hrest]

end Sys2Proof.Machine
end

