-- ==== Sys2Proof/Laws/PerInstr.lean ====
section
/-! SUPPORT. What holds of every operation as syntax, one lemma for each constructor. -/

namespace Sys2Proof.Laws

/-! ## The fields of the op-word (30_encoding.md R80 to R82) -/

/-- The op-word of `i` carries its opcode, a zero field and its operand, each in its own bits. -/
def Fields.Statement (i : Instr) : Prop :=
  opcField (encode i) = i.opc ∧ zeroField (encode i) = 0#4 ∧ immField (encode i) = i.imm8

theorem Fields.tryPush (b : Byte) : Fields.Statement (.tryPush b) := by revert b; unfold Fields.Statement; decide
theorem Fields.tryPop : Fields.Statement .tryPop := by unfold Fields.Statement; decide
theorem Fields.isEmpty : Fields.Statement .isEmpty := by unfold Fields.Statement; decide
theorem Fields.rxIrq : Fields.Statement .rxIrq := by unfold Fields.Statement; decide
theorem Fields.rxArrive (b : Byte) : Fields.Statement (.rxArrive b) := by revert b; unfold Fields.Statement; decide
theorem Fields.readByte : Fields.Statement .readByte := by unfold Fields.Statement; decide
theorem Fields.dataAvailable : Fields.Statement .dataAvailable := by unfold Fields.Statement; decide
theorem Fields.ciIter : Fields.Statement .ciIter := by unfold Fields.Statement; decide
theorem Fields.ciStep (c : Byte) : Fields.Statement (.ciStep c) := by revert c; unfold Fields.Statement; decide
theorem Fields.init : Fields.Statement .init := by unfold Fields.Statement; decide

/-! ## The issuers (30_encoding.md R83; 60_exceptions.md R193, R199) -/

/-- The agent the opcode map gives `i` to may issue it, and no further agent may. -/
def Issuers.Statement (i : Instr) : Prop :=
  i.issuableBy (Machine.usualIssuer i) = true ∧ ∀ id, i.issuableBy (.further id) = false

theorem Issuers.tryPush (b : Byte) : Issuers.Statement (.tryPush b) := ⟨rfl, fun _ => rfl⟩
theorem Issuers.tryPop : Issuers.Statement .tryPop := ⟨rfl, fun _ => rfl⟩
theorem Issuers.isEmpty : Issuers.Statement .isEmpty := ⟨rfl, fun _ => rfl⟩
theorem Issuers.rxIrq : Issuers.Statement .rxIrq := ⟨rfl, fun _ => rfl⟩
theorem Issuers.rxArrive (b : Byte) : Issuers.Statement (.rxArrive b) := ⟨rfl, fun _ => rfl⟩
theorem Issuers.readByte : Issuers.Statement .readByte := ⟨rfl, fun _ => rfl⟩
theorem Issuers.dataAvailable : Issuers.Statement .dataAvailable := ⟨rfl, fun _ => rfl⟩
theorem Issuers.ciIter : Issuers.Statement .ciIter := ⟨rfl, fun _ => rfl⟩
theorem Issuers.ciStep (c : Byte) : Issuers.Statement (.ciStep c) := ⟨rfl, fun _ => rfl⟩
theorem Issuers.init : Issuers.Statement .init := ⟨rfl, fun _ => rfl⟩

end Sys2Proof.Laws
end

