-- ==== Sys2Proof/Laws/Producer.lean ====
section
/-! SUPPORT. What P's micro-steps can change: nothing that belongs to Q (60_exceptions.md R193). -/

namespace Sys2Proof.Machine

/-- A micro-step of P writes nothing of Q's, of the startup code's, or of the port's but a result word. -/
@[simp] theorem pStep_frame (s : State) :
    (pStep s).cfg = s.cfg ∧ (pStep s).life = s.life ∧ (pStep s).tail = s.tail ∧ (pStep s).rxData = s.rxData ∧
    (pStep s).rxIe = s.rxIe ∧ (pStep s).rxFurther = s.rxFurther ∧ (pStep s).pIsr = s.pIsr ∧
    (pStep s).qPhase = s.qPhase ∧ (pStep s).qHeadSeen = s.qHeadSeen ∧ (pStep s).qByte = s.qByte ∧
    (pStep s).qOp = s.qOp ∧ (pStep s).qWork = s.qWork ∧ (pStep s).chars = s.chars ∧ (pStep s).length = s.length ∧
    (pStep s).interpStarted = s.interpStarted ∧ (pStep s).pin = s.pin ∧ (pStep s).txOut = s.txOut ∧
    (pStep s).pops = s.pops ∧ (pStep s).seenHeadN = s.seenHeadN ∧ (pStep s).issuer = s.issuer ∧
    (pStep s).schedule = s.schedule := by
  unfold pStep
  split
  · simp
  · simp [pFetch]
  · unfold pSample
    split
    · simp
    · dsimp only
      split <;> simp
  · simp [pWrite]
  · simp [pPublish]
  · unfold pReturn
    split <;> simp

/-- The same of the rest of P's operation. -/
@[simp] theorem pFinish_frame (s : State) :
    (pFinish s).cfg = s.cfg ∧ (pFinish s).life = s.life ∧ (pFinish s).tail = s.tail ∧ (pFinish s).rxData = s.rxData ∧
    (pFinish s).rxIe = s.rxIe ∧ (pFinish s).rxFurther = s.rxFurther ∧ (pFinish s).pIsr = s.pIsr ∧
    (pFinish s).qPhase = s.qPhase ∧ (pFinish s).qHeadSeen = s.qHeadSeen ∧ (pFinish s).qByte = s.qByte ∧
    (pFinish s).qOp = s.qOp ∧ (pFinish s).qWork = s.qWork ∧ (pFinish s).chars = s.chars ∧
    (pFinish s).length = s.length ∧ (pFinish s).interpStarted = s.interpStarted ∧ (pFinish s).pin = s.pin ∧
    (pFinish s).txOut = s.txOut ∧ (pFinish s).pops = s.pops ∧ (pFinish s).seenHeadN = s.seenHeadN ∧
    (pFinish s).issuer = s.issuer ∧ (pFinish s).schedule = s.schedule := by
  simp [pFinish]

/-- P in `P_IDLE` stays there. -/
theorem pStep_of_idle {s : State} (h : s.pPhase = .idle) : pStep s = s := by simp [pStep, h]

/-- A property that every micro-step of P keeps is kept by the rest of P's operation. -/
theorem pFinish_keeps {I : State → Prop} (hI : ∀ s, I s → I (pStep s)) {s : State} (h : I s) : I (pFinish s) :=
  hI _ (hI _ (hI _ (hI _ (hI _ h))))

/-! ## What the rest of P's operation comes to -/

/-- The sample of `tail` does not depend on what P holds of the byte in hand. -/
theorem readTailFromP_withByte (s : State) (b : Byte) (isr ready : Bool) (p : PPhase) (h : List Event) :
    readTailFromP { s with pByte := b, pIsr := isr, pPhase := p, rxReady := ready, history := h } =
      ((readTailFromP s).1,
        { (readTailFromP s).2 with pByte := b, pIsr := isr, pPhase := p, rxReady := ready, history := h }) := by
  unfold readTailFromP
  cases hv : s.cfg.vis <;> simp

/-- P's last transition leads to `P_IDLE`. -/
theorem pReturn_idle (s : State) : (pReturn s).pPhase = .idle := by
  unfold pReturn
  split <;> rfl

/-- From `P_SAMPLE` with room: the byte is stored, `head` advances, and the operation returns (40_ringbuffer.md R104). -/
theorem pFinish_of_room {s : State} (hp : s.pPhase = .sample) (hl : s.cfg.legacyOverwrite = false)
    (hr : nextIndex s.cfg s.head ≠ (readTailFromP s).1) :
    pFinish s = pReturn { (readTailFromP s).2 with
      pTailSeen := (readTailFromP s).1, storage := memPut s.storage s.head s.pByte,
      head := nextIndex s.cfg s.head, pushes := s.pushes + 1, pOk := true, pPhase := .ret,
      history := s.history ++ [.pushOk s.pByte s.head] } := by
  have h1 : pStep s = { (readTailFromP s).2 with pTailSeen := (readTailFromP s).1, pPhase := .write } := by
    simp [pStep, hp, pSample, hl, hr]
  have h2 : pStep (pStep s) = { (readTailFromP s).2 with
      pTailSeen := (readTailFromP s).1, storage := memPut s.storage s.head s.pByte, pPhase := .publish } := by
    rw [h1]
    simp [pStep, pWrite, putSlot]
  have h3 : pStep (pStep (pStep s)) = { (readTailFromP s).2 with
      pTailSeen := (readTailFromP s).1, storage := memPut s.storage s.head s.pByte,
      head := nextIndex s.cfg s.head, pushes := s.pushes + 1, pOk := true, pPhase := .ret,
      history := s.history ++ [.pushOk s.pByte s.head] } := by
    rw [h2]
    simp [pStep, pPublish, record]
  have h4 : pStep (pStep (pStep (pStep s))) = pReturn (pStep (pStep (pStep s))) := by
    rw [h3]
    simp [pStep]
  unfold pFinish
  rw [h4, pStep_of_idle (pReturn_idle _), h3]

/-- From `P_SAMPLE` on a buffer P sees as full: the byte is lost and recorded (R104; 60_exceptions.md R176). -/
theorem pFinish_of_full {s : State} (hp : s.pPhase = .sample) (hl : s.cfg.legacyOverwrite = false)
    (hr : nextIndex s.cfg s.head = (readTailFromP s).1) :
    pFinish s = pReturn { (readTailFromP s).2 with
      pTailSeen := (readTailFromP s).1, pOk := false, pPhase := .ret,
      history := s.history ++ [.dataLoss s.pByte] } := by
  have h1 : pStep s = { (readTailFromP s).2 with
      pTailSeen := (readTailFromP s).1, pOk := false, pPhase := .ret,
      history := s.history ++ [.dataLoss s.pByte] } := by
    simp [pStep, hp, pSample, hl, hr, record]
  have h2 : pStep (pStep s) = pReturn (pStep s) := by
    rw [h1]
    simp [pStep]
  have h3 := pReturn_idle (pStep s)
  unfold pFinish
  rw [h2, pStep_of_idle h3, pStep_of_idle h3, pStep_of_idle h3, h1]

/-- From `P_SAMPLE` in the legacy form: the byte is stored whatever `tail` is (40_ringbuffer.md R109). -/
theorem pFinish_of_legacy {s : State} (hp : s.pPhase = .sample) (hl : s.cfg.legacyOverwrite = true) :
    pFinish s = pReturn { s with
      storage := memPut s.storage s.head s.pByte, head := nextIndex s.cfg s.head, pushes := s.pushes + 1,
      pOk := true, pPhase := .ret, history := s.history ++ [.pushOk s.pByte s.head] } := by
  have h1 : pStep s = { s with pPhase := .write } := by simp [pStep, hp, pSample, hl]
  have h2 : pStep (pStep s) = { s with storage := memPut s.storage s.head s.pByte, pPhase := .publish } := by
    rw [h1]
    simp [pStep, pWrite, putSlot]
  have h3 : pStep (pStep (pStep s)) = { s with
      storage := memPut s.storage s.head s.pByte, head := nextIndex s.cfg s.head, pushes := s.pushes + 1,
      pOk := true, pPhase := .ret, history := s.history ++ [.pushOk s.pByte s.head] } := by
    rw [h2]
    simp [pStep, pPublish, record]
  have h4 : pStep (pStep (pStep (pStep s))) = pReturn (pStep (pStep (pStep s))) := by
    rw [h3]
    simp [pStep]
  unfold pFinish
  rw [h4, pStep_of_idle (pReturn_idle _), h3]

/-- The rest of an operation at `P_SAMPLE` ends in `P_IDLE`, one transition before the five. -/
theorem pStep_four_of_sample {s : State} (hp : s.pPhase = .sample) :
    (pStep (pStep (pStep (pStep s)))).pPhase = .idle := by
  by_cases hl : s.cfg.legacyOverwrite = true
  · simp [pStep, hp, pSample, hl, pWrite, pPublish, pReturn_idle]
  · by_cases hr : nextIndex s.cfg s.head = (readTailFromP s).1
    · simp [pStep, hp, pSample, hl, hr, pReturn_idle]
    · simp [pStep, hp, pSample, hl, hr, pWrite, pPublish, pReturn_idle]

/-- From `P_FETCH`: the data register is read, which clears the flag, and the push follows (41_receiver.md R125). -/
theorem pFinish_of_fetch {s : State} (hp : s.pPhase = .fetch) :
    pFinish s = pFinish { s with
      pByte := s.rxData, rxReady := false, pPhase := .sample, history := s.history ++ [.isrRead s.rxData] } := by
  have h1 : pStep s = { s with
      pByte := s.rxData, rxReady := false, pPhase := .sample, history := s.history ++ [.isrRead s.rxData] } := by
    simp [pStep, hp, pFetch, record, readRxData]
  have h4 := pStep_four_of_sample (s := pStep s) (by rw [h1])
  rw [← h1]
  show pStep (pStep (pStep (pStep (pStep s)))) = pStep (pStep (pStep (pStep (pStep (pStep s)))))
  rw [pStep_of_idle h4]

/-- "The handler always reaches `P_IDLE` again in at most five transitions" (41_receiver.md R126). -/
theorem pFinish_idle (s : State) : (pFinish s).pPhase = .idle := by
  cases hp : s.pPhase
  · unfold pFinish
    simp [pStep_of_idle hp, hp]
  · rw [pFinish_of_fetch hp]
    unfold pFinish
    rw [pStep_of_idle (pStep_four_of_sample rfl)]
    exact pStep_four_of_sample rfl
  · unfold pFinish
    rw [pStep_of_idle (pStep_four_of_sample hp)]
    exact pStep_four_of_sample hp
  · simp [pFinish, pStep, hp, pWrite, pPublish, pReturn_idle]
  · simp [pFinish, pStep, hp, pPublish, pReturn_idle]
  · simp [pFinish, pStep, hp, pReturn_idle]

end Sys2Proof.Machine
end

