-- ==== Sys2Proof/Laws/Schedule.lean ====
section
/-! SUPPORT. Once and for all, what a step can do: every step that answers a next state is a chain of the moves below.
An invariant is then one small case for each move. -/

namespace Sys2Proof.Machine

/-- The single moves of the machine. -/
inductive Move : State → State → Prop where
  /-- The port's own fields. -/
  | port (s : State) (a : Agent) (ts : List Turn) (d : Nat) :
      Move s { s with issuer := a, schedule := ts, draw := d }
  /-- A micro-step of P. -/
  | p (s : State) : Move s (pStep s)
  /-- A micro-step of Q. -/
  | q (s : State) : Move s (qStep s)
  /-- A direct push is begun. -/
  | push (s : State) (b : Byte) : Safety.Operational s → s.pPhase = .idle →
      Move s { s with pByte := b, pIsr := false, pPhase := .sample }
  /-- The handler is dispatched. -/
  | dispatch (s : State) : Safety.Operational s → dispatchDue s = true → Move s (enterHandler s)
  /-- P asks whether the buffer is empty. -/
  | emptyByP (s : State) : Safety.Operational s → s.pPhase = .idle → Move s (isEmptyByP s)
  /-- An operation of Q that samples `head` is begun. -/
  | sampling (s : State) (op : QOp) : Safety.Operational s → s.qOp = .none → s.qPhase = .idle →
      op = .tryPop ∨ op = .isEmpty ∨ op = .readByte ∨ op = .dataAvailable ∨ op = .ciIter →
      Move s { s with qOp := op, qPhase := .sample }
  /-- CI_STEP is begun. -/
  | row (s : State) (c : Byte) : Safety.Operational s → s.qOp = .none → s.qPhase = .idle →
      Move s (beginRow c { s with qOp := .ciStep })
  /-- The interpreter starts. -/
  | interpreter (s : State) : Safety.Operational s → s.qOp = .none → s.qPhase = .idle → s.interpStarted = false →
      Move s { s with length := 0, interpStarted := true, qOp := .ciStart, qWork := emitActs s.cfg.msgBanner }
  /-- A byte arrives. -/
  | arrive (s : State) (b : Byte) : Safety.Operational s → s.rxReady = false → Move s (arriveByte b s)
  /-- A byte arrives while the flag is set. -/
  | overrun (s : State) (b : Byte) : Safety.Operational s → s.rxReady = true → s.cfg.rxOverrun = .openBehaviour →
      Move s (overrunByte b s)
  /-- The startup sequence. -/
  | init (s : State) : s.cfg.wf = true → indicesLegal s = true → s.life = .startup → s.pPhase = .idle →
      s.qOp = .none → s.qPhase = .idle → Move s (initSequence s)

/-- A chain of moves. -/
abbrev Moves : State → State → Prop := Relation.ReflTransGen Move

/-! ## What admission says -/

/-- What is admitted with a next state finds legal parameters and indices. -/
theorem withLegalShape_next {s t : State} {k : Host.Outcome State Fault Refusal}
    (h : withLegalShape s k = .next t) : s.cfg.wf = true ∧ indicesLegal s = true ∧ k = .next t := by
  unfold withLegalShape at h
  split at h
  · cases h
  · split at h
    · cases h
    · simp_all

/-- What the issuer's check lets through is issued by an agent allowed. -/
theorem withIssuer_next {allowed : List Agent} {s t : State} {k : Host.Outcome State Fault Refusal}
    (h : withIssuer allowed s k = .next t) : s.issuer ∈ allowed ∧ k = .next t := by
  unfold withIssuer at h
  split at h
  · cases h
  all_goals
    split at h
    · rename_i hi hc
      exact ⟨by simpa [hi] using hc, h⟩
    · cases h

/-- What is admitted after `INIT` finds it completed. -/
theorem afterInit_next {s t : State} {k : Host.Outcome State Fault Refusal} (h : afterInit s k = .next t) :
    s.life = .active ∧ k = .next t := by
  unfold afterInit at h
  split at h
  · cases h
  · exact ⟨‹_›, h⟩

/-- What needs P idle finds it idle. -/
theorem whenPIdle_next {s t : State} {k : Host.Outcome State Fault Refusal} (h : whenPIdle s k = .next t) :
    s.pPhase = .idle ∧ k = .next t := by
  unfold whenPIdle at h
  split at h
  · cases h
  · rename_i hb
    exact ⟨by simpa [pBusy] using hb, h⟩

/-- What needs Q idle finds it idle, and the scheduler lets Q act. -/
theorem whenQIdle_next {s t : State} {k : Host.Outcome State Fault Refusal} (h : whenQIdle s k = .next t) :
    s.qOp = .none ∧ s.qPhase = .idle ∧ ¬ (s.cfg.sched = .preempt ∧ pBusy s = true) ∧ k = .next t := by
  unfold whenQIdle whenQMayRun at h
  split at h
  · cases h
  · split at h
    · cases h
    · rename_i h1 h2
      simp only [qBusy, Bool.or_eq_true, bne_iff_ne, not_or, ne_eq, not_not] at h2
      exact ⟨h2.1, h2.2, h1, h⟩

/-- What `admitP` lets through. -/
theorem admitP_next {s t : State} {k : Host.Outcome State Fault Refusal} (h : admitP s k = .next t) :
    Safety.Operational s ∧ s.issuer = .p ∧ s.pPhase = .idle ∧ k = .next t := by
  obtain ⟨h1, h2, h⟩ := withLegalShape_next h
  obtain ⟨h3, h⟩ := withIssuer_next h
  obtain ⟨h4, h⟩ := afterInit_next h
  obtain ⟨h5, h⟩ := whenPIdle_next h
  exact ⟨⟨h1, h2, h4⟩, by simpa using h3, h5, h⟩

/-- What `admitQ` lets through. -/
theorem admitQ_next {s t : State} {k : Host.Outcome State Fault Refusal} (h : admitQ s k = .next t) :
    Safety.Operational s ∧ s.issuer = .q ∧ s.qOp = .none ∧ s.qPhase = .idle ∧ ¬ (s.cfg.sched = .preempt ∧ pBusy s = true) ∧
    k = .next t := by
  obtain ⟨h1, h2, h⟩ := withLegalShape_next h
  obtain ⟨h3, h⟩ := withIssuer_next h
  obtain ⟨h4, h⟩ := afterInit_next h
  obtain ⟨h5, h6, h7, h⟩ := whenQIdle_next h
  exact ⟨⟨h1, h2, h4⟩, by simpa using h3, h5, h6, h7, h⟩

/-- `admitP` lets through an operation of P that meets its conditions. -/
theorem admitP_eq {s : State} (k : Host.Outcome State Fault Refusal) (ha : Safety.Operational s) (hi : s.issuer = .p)
    (hp : s.pPhase = .idle) : admitP s k = k := by
  obtain ⟨h1, h2, h3⟩ := ha
  simp [admitP, withLegalShape, withIssuer, afterInit, whenPIdle, pBusy, h1, h2, h3, hi, hp]

/-- `admitQ` lets through an operation of Q that meets its conditions. -/
theorem admitQ_eq {s : State} (k : Host.Outcome State Fault Refusal) (ha : Safety.Operational s) (hi : s.issuer = .q)
    (ho : s.qOp = .none) (hq : s.qPhase = .idle) (hs : ¬ (s.cfg.sched = .preempt ∧ pBusy s = true)) :
    admitQ s k = k := by
  obtain ⟨h1, h2, h3⟩ := ha
  simp [admitQ, withLegalShape, withIssuer, afterInit, whenQIdle, whenQMayRun, qBusy, h1, h2, h3, hi, ho, hq, hs]

/-- What `thenRun` answers. -/
theorem thenRun_next {o : Host.Outcome State Fault Refusal} {f : State → State} {t : State}
    (h : thenRun o f = .next t) : ∃ u, o = .next u ∧ t = f u := by
  cases o with
  | next u => exact ⟨u, rfl, by simpa [thenRun] using h.symm⟩
  | fault r => cases h
  | refused r => cases h

/-! ## A step is a chain of moves -/

theorem moves_pFinish (s : State) : Moves s (pFinish s) :=
  pFinish_keeps (I := Moves s) (fun _ h => h.tail (.p _)) .refl

theorem moves_qFinish (s : State) : Moves s (qFinish s) :=
  qFinish_keeps (I := Moves s) (fun _ h => h.tail (.q _)) .refl

theorem beginTryPush_moves {b : Byte} {s t : State} (h : beginTryPush b s = .next t) : Moves s t := by
  obtain ⟨ha, -, hp, h⟩ := admitP_next h
  cases h
  exact .single (.push s b ha hp)

theorem beginRxIrq_moves {s t : State} (h : beginRxIrq s = .next t) : Moves s t := by
  obtain ⟨ha, -, -, h⟩ := admitP_next h
  split at h
  · cases h
    exact .single (.dispatch s ha ‹_›)
  · cases h

theorem sampling_moves {s t : State} {op : QOp}
    (hop : op = .tryPop ∨ op = .isEmpty ∨ op = .readByte ∨ op = .dataAvailable ∨ op = .ciIter)
    (h : admitQ s (.next { s with qOp := op, qPhase := .sample }) = .next t) : Moves s t := by
  obtain ⟨ha, -, ho, hq, -, h⟩ := admitQ_next h
  cases h
  exact .single (.sampling s op ha ho hq hop)

theorem beginIsEmpty_moves {s t : State} (h : beginIsEmpty s = .next t) : Moves s t := by
  obtain ⟨h1, h2, h⟩ := withLegalShape_next h
  obtain ⟨-, h⟩ := withIssuer_next h
  obtain ⟨h4, h⟩ := afterInit_next h
  split at h
  · obtain ⟨h5, h⟩ := whenPIdle_next h
    cases h
    exact .single (.emptyByP s ⟨h1, h2, h4⟩ h5)
  · obtain ⟨h5, h6, -, h⟩ := whenQIdle_next h
    cases h
    exact .single (.sampling s .isEmpty ⟨h1, h2, h4⟩ h5 h6 (by simp))

theorem beginCiStep_moves {c : Byte} {s t : State} (h : beginCiStep c s = .next t) : Moves s t := by
  obtain ⟨ha, -, ho, hq, -, h⟩ := admitQ_next h
  cases h
  exact .single (.row s c ha ho hq)

theorem beginInterpreter_moves {s t : State} (h : beginInterpreter s = .next t) : Moves s t := by
  obtain ⟨h1, h2, h⟩ := withLegalShape_next h
  obtain ⟨h4, h⟩ := afterInit_next h
  obtain ⟨h5, h6, -, h⟩ := whenQIdle_next h
  split at h
  · cases h
  · rename_i hi
    cases h
    exact .single (.interpreter s ⟨h1, h2, h4⟩ h5 h6 (by simpa using hi))

theorem execRxArrive_moves {b : Byte} {s t : State} (h : execRxArrive b s = .next t) : Moves s t := by
  obtain ⟨h1, h2, h⟩ := withLegalShape_next h
  obtain ⟨-, h⟩ := withIssuer_next h
  obtain ⟨h4, h⟩ := afterInit_next h
  split at h
  · split at h
    · cases h
    · cases h
      exact .single (.overrun s b ⟨h1, h2, h4⟩ ‹_› ‹_›)
  · rename_i hr
    cases h
    exact .single (.arrive s b ⟨h1, h2, h4⟩ (by simpa using hr))

theorem execInit_moves {s t : State} (h : execInit s = .next t) : Moves s t := by
  obtain ⟨h1, h2, h⟩ := withLegalShape_next h
  obtain ⟨-, h⟩ := withIssuer_next h
  split at h
  · cases h
  · split at h
    · cases h
    · rename_i hl hb
      cases h
      simp only [pBusy, qBusy, not_or, Bool.or_eq_true, bne_iff_ne, ne_eq, not_not] at hb
      exact .single (.init s h1 h2 hl hb.1 hb.2.1 hb.2.2)

/-- An operation begun is a chain of moves. -/
theorem begin_moves {i : Instr} {s t : State} (h : begin i s = .next t) : Moves s t := by
  cases i with
  | tryPush b => exact beginTryPush_moves h
  | tryPop => exact sampling_moves (by simp) h
  | isEmpty => exact beginIsEmpty_moves h
  | rxIrq => exact beginRxIrq_moves h
  | rxArrive b => exact execRxArrive_moves h
  | readByte => exact sampling_moves (by simp) h
  | dataAvailable => exact sampling_moves (by simp) h
  | ciIter => exact sampling_moves (by simp) h
  | ciStep c => exact beginCiStep_moves h
  | init => exact execInit_moves h

/-- A whole operation is a chain of moves. -/
theorem exec_moves {i : Instr} {s t : State} (h : exec i s = .next t) : Moves s t := by
  have hP : ∀ {o}, (∀ u, o = .next u → Moves s u) → thenRun o pFinish = .next t → Moves s t := fun ho h => by
    obtain ⟨u, hu, rfl⟩ := thenRun_next h
    exact (ho u hu).trans (moves_pFinish u)
  have hQ : ∀ {o}, (∀ u, o = .next u → Moves s u) → thenRun o qFinish = .next t → Moves s t := fun ho h => by
    obtain ⟨u, hu, rfl⟩ := thenRun_next h
    exact (ho u hu).trans (moves_qFinish u)
  cases i with
  | tryPush b => exact hP (fun _ => beginTryPush_moves) h
  | tryPop => exact hQ (fun _ => sampling_moves (by simp)) h
  | isEmpty =>
    simp only [exec, execIsEmpty] at h
    split at h
    · exact hP (fun _ => beginIsEmpty_moves) h
    · exact hQ (fun _ => beginIsEmpty_moves) h
  | rxIrq => exact hP (fun _ => beginRxIrq_moves) h
  | rxArrive b => exact execRxArrive_moves h
  | readByte => exact hQ (fun _ => sampling_moves (by simp)) h
  | dataAvailable => exact hQ (fun _ => sampling_moves (by simp)) h
  | ciIter => exact hQ (fun _ => sampling_moves (by simp)) h
  | ciStep c => exact hQ (fun _ => beginCiStep_moves) h
  | init => exact execInit_moves h

/-- A schedule line is a chain of moves. -/
theorem takeTurn_moves {turn : Turn} {s t : State} (h : takeTurn turn s = .next t) : Moves s t := by
  have hw : ∀ {a w run}, (∀ i u, run i u = .next t → Moves u t) → issueWord a w run s = .next t → Moves s t :=
    fun {a w run} hr h => by
      unfold issueWord at h
      split at h
      · exact .head (.port s a s.schedule s.draw) (hr _ _ h)
      · cases h
  have hc : ∀ {a fp fq}, (∀ u, Moves u (fp u)) → (∀ u, Moves u (fq u)) → continueOp a fp fq s = .next t →
      Moves s t := fun {a fp fq} hp hq h => by
    cases a with
    | p =>
      obtain ⟨-, -, h⟩ := withLegalShape_next h
      split at h
      · cases h; exact hp s
      · cases h
    | q =>
      obtain ⟨-, -, h⟩ := withLegalShape_next h
      unfold whenQMayRun at h
      split at h
      · cases h
      · split at h
        · cases h; exact hq s
        · cases h
    | e => cases h
    | s => cases h
    | further id => cases h
  cases turn with
  | issue a w => exact hw (fun _ _ => exec_moves) h
  | start a w => exact hw (fun _ _ => begin_moves) h
  | micro a => exact hc (fun u => .single (.p u)) (fun u => .single (.q u)) h
  | resume a => exact hc moves_pFinish moves_qFinish h
  | interpreterStart => exact beginInterpreter_moves h
  | wait => cases h; exact .refl

/-- A step that answers a next state is a chain of moves. -/
theorem step_moves {s t : State} (h : step s = .next t) : Moves s t := by
  unfold step takeNext at h
  split at h
  · exact .head (.port s s.issuer _ s.draw) (takeTurn_moves h)
  · exact .head (.port s s.issuer s.schedule (s.draw + 1)) (takeTurn_moves h)

/-- A property that every move keeps is kept by every step. -/
theorem step_keeps {I : State → Prop} (hI : ∀ s t, Move s t → I s → I t) {s t : State} (hs : I s)
    (h : step s = .next t) : I t := by
  have hm := step_moves h
  clear h
  induction hm with
  | refl => exact hs
  | tail _ hm ih => exact hI _ _ hm ih

/-! ## What `step` takes -/

/-- With a schedule line to take, a step takes it. -/
theorem step_of_line {s : State} {turn : Turn} {rest : List Turn} (h : s.schedule = turn :: rest) :
    step s = takeTurn turn { s with schedule := rest } := by
  simp [step, takeNext, h]

/-- With none, a step is the machine's own move. -/
theorem step_of_no_line {s : State} (h : s.schedule = []) :
    step s = takeTurn (ownTurn s) { s with draw := s.draw + 1 } := by
  simp [step, takeNext, h]

end Sys2Proof.Machine
end

