-- ==== Sys2Proof/Laws/Runs.lean ====
section
/-! SUPPORT. That the fairness assumptions are as strong as the spec says: under them every run of the whole system on a
finite input becomes quiescent and stays so (70_reset_and_hazards.md R213; 20_memory.md R62, R63). -/

namespace Sys2Proof.Machine

open Safety

/-! ## What a line of a system's schedule can do -/

/-- What a line can do in a run of the whole system where it brings no arrival. -/
inductive SystemLine : Turn → State → State → Prop where
  /-- Nobody moves. -/
  | wait (s : State) : SystemLine .wait s s
  /-- P goes on. -/
  | producer {turn : Turn} {s t : State} : isStepOfQ turn = false → issuedBy turn = none → s.pPhase ≠ .idle →
      t = pStep s ∨ t = pFinish s → SystemLine turn s t
  /-- The handler is dispatched, and may run to its return. -/
  | dispatch {turn : Turn} {s t : State} (a : Agent) : isStepOfQ turn = false → dispatchDue s = true →
      t = enterHandler { s with issuer := a } ∨ t = pFinish (enterHandler { s with issuer := a }) → SystemLine turn s t
  /-- One micro-step of Q. -/
  | micro {s : State} : qBusy s = true → SystemLine (.micro .q) s (qStep s)
  /-- Q goes on to its return, or through one poll. -/
  | resume {s : State} : qBusy s = true → SystemLine (.resume .q) s (qFinish s)
  /-- Q begins an iteration of the main loop, and may run it. -/
  | iteration {turn : Turn} {s t u : State} (a : Agent) : isStepOfQ turn = true → issuedBy turn = some .ciIter →
      s.qOp = .none → s.qPhase = .idle → u = { s with issuer := a, qOp := .ciIter, qPhase := .sample } →
      t = u ∨ t = qFinish u → SystemLine turn s t
  /-- The interpreter starts. -/
  | interpreter {s : State} : s.qOp = .none → s.qPhase = .idle → s.interpStarted = false →
      SystemLine .interpreterStart s
        { s with length := 0, interpStarted := true, qOp := .ciStart, qWork := emitActs s.cfg.msgBanner }

/-- What `continueP` lets through. -/
theorem continueP_next {f : State → State} {s t : State} (h : continueP f s = .next t) : s.pPhase ≠ .idle ∧ t = f s := by
  obtain ⟨-, -, h⟩ := withLegalShape_next h
  split at h
  · cases h
    exact ⟨by simpa [pBusy] using ‹pBusy s = true›, rfl⟩
  · cases h

/-- What `continueQ` lets through. -/
theorem continueQ_next {f : State → State} {s t : State} (h : continueQ f s = .next t) : qBusy s = true ∧ t = f s := by
  obtain ⟨-, -, h⟩ := withLegalShape_next h
  unfold whenQMayRun at h
  split at h
  · cases h
  · split at h
    · cases h
      exact ⟨‹_›, rfl⟩
    · cases h

/-- What the dispatch of the handler lets through. -/
theorem beginRxIrq_next {s t : State} (h : beginRxIrq s = .next t) :
    s.issuer = .p ∧ dispatchDue s = true ∧ t = enterHandler s := by
  obtain ⟨-, hi, -, h⟩ := admitP_next h
  split at h
  · cases h
    exact ⟨hi, ‹_›, rfl⟩
  · cases h

/-- What the beginning of an iteration lets through. -/
theorem beginCiIter_next {s t : State} (h : beginCiIter s = .next t) :
    s.issuer = .q ∧ s.qOp = .none ∧ s.qPhase = .idle ∧ t = { s with qOp := .ciIter, qPhase := .sample } := by
  obtain ⟨-, hi, ho, hp, -, h⟩ := admitQ_next h
  cases h
  exact ⟨hi, ho, hp, rfl⟩

/-- Every line of a system's schedule that brings no arrival is one of the lines above. -/
theorem systemLine {turn : Turn} {s t : State} (h : takeTurn turn s = .next t)
    (hs : ∀ i, issuedBy turn = some i → i = .rxIrq ∨ i = .ciIter ∨ isArrival turn = true)
    (ha : isArrival turn = false) : SystemLine turn s t := by
  have key : ∀ {a : Agent} {w : Word} {run : Instr → State → Host.Outcome State Fault Refusal},
      (turn = .issue a w ∧ run = exec) ∨ (turn = .start a w ∧ run = begin) → issueWord a w run s = .next t →
      SystemLine turn s t := by
    intro a w run hrun h
    have hq : isStepOfQ turn = (a == .q) := by rcases hrun with ⟨rfl, -⟩ | ⟨rfl, -⟩ <;> rfl
    have hby : issuedBy turn = (decode w).toOption := by rcases hrun with ⟨rfl, -⟩ | ⟨rfl, -⟩ <;> rfl
    unfold issueWord at h
    split at h
    · rename_i i hd
      rw [hd] at hby
      rcases hs i hby with rfl | rfl | hx
      · have : ∃ u, beginRxIrq { s with issuer := a } = .next u ∧ (t = u ∨ t = pFinish u) := by
          rcases hrun with ⟨-, rfl⟩ | ⟨-, rfl⟩
          · obtain ⟨u, hu, rfl⟩ := thenRun_next h
            exact ⟨u, hu, .inr rfl⟩
          · exact ⟨t, h, .inl rfl⟩
        obtain ⟨u, hu, ht⟩ := this
        obtain ⟨hi, hdue, rfl⟩ := beginRxIrq_next hu
        change a = .p at hi
        exact .dispatch a (by rw [hq, hi]; rfl) hdue ht
      · have : ∃ u, beginCiIter { s with issuer := a } = .next u ∧ (t = u ∨ t = qFinish u) := by
          rcases hrun with ⟨-, rfl⟩ | ⟨-, rfl⟩
          · obtain ⟨u, hu, rfl⟩ := thenRun_next h
            exact ⟨u, hu, .inr rfl⟩
          · exact ⟨t, h, .inl rfl⟩
        obtain ⟨u, hu, ht⟩ := this
        obtain ⟨hi, ho, hp, rfl⟩ := beginCiIter_next hu
        change a = .q at hi
        exact .iteration a (by rw [hq, hi]; rfl) hby ho hp rfl ht
      · rw [hx] at ha
        cases ha
    · cases h
  cases turn with
  | issue a w => exact key (.inl ⟨rfl, rfl⟩) h
  | start a w => exact key (.inr ⟨rfl, rfl⟩) h
  | micro a =>
    cases a with
    | p => exact .producer rfl rfl (continueP_next h).1 (.inl (continueP_next h).2)
    | q =>
      obtain ⟨hb, rfl⟩ := continueQ_next h
      exact .micro hb
    | e => cases h
    | s => cases h
    | further id => cases h
  | resume a =>
    cases a with
    | p => exact .producer rfl rfl (continueP_next h).1 (.inr (continueP_next h).2)
    | q =>
      obtain ⟨hb, rfl⟩ := continueQ_next h
      exact .resume hb
    | e => cases h
    | s => cases h
    | further id => cases h
  | interpreterStart =>
    obtain ⟨-, -, h⟩ := withLegalShape_next h
    obtain ⟨-, h⟩ := afterInit_next h
    obtain ⟨ho, hp, -, h⟩ := whenQIdle_next h
    split at h
    · cases h
    · rename_i hn
      cases h
      exact .interpreter ho hp (by simpa using hn)
  | wait =>
    cases h
    exact .wait s

/-! ## Runs of the whole system -/

/-- A run of the whole system after INIT, conforming, on a finite input, under the fairness assumptions. That its states
are legal and its FIFO correct is what every step keeps (Obligations.lean); here it is a premise. -/
structure SystemRun (turns : Nat → Turn) (run : Nat → State) : Prop where
  isRun : IsRun turns run
  system : IsSystemSchedule turns
  finite : FinitelyManyArrivals turns
  fair : Fair turns run
  conforming : (run 0).cfg.legacyOverwrite = false
  active : (run 0).life = .active
  legal : ∀ n, LegalState (run n)
  fifo : ∀ n, FifoState (run n)

/-- What every move keeps holds all along a run. -/
theorem run_keeps {turns : Nat → Turn} {run : Nat → State} (hr : IsRun turns run) {I : State → Prop}
    (hI : ∀ s t, Move s t → I s → I t) {n m : Nat} (h : I (run n)) (hnm : n ≤ m) : I (run m) := by
  induction hnm with
  | refl => exact h
  | @step m _ ih =>
    have hm := takeTurn_moves (hr m)
    generalize run (m + 1) = t at hm ⊢
    induction hm with
    | refl => exact ih
    | tail _ hm ih => exact hI _ _ hm ih

/-- A micro-step of P raises no request. -/
theorem pStep_rxReady {s : State} (h : s.rxReady = false) : (pStep s).rxReady = false := by
  unfold pStep
  split
  · exact h
  · rfl
  · unfold pSample
    split
    · exact h
    · dsimp only
      split <;> simpa using h
  · exact h
  · exact h
  · unfold pReturn
    split <;> exact h

/-- A micro-step of P in `P_FETCH` answers the request (41_receiver.md R125). -/
theorem pStep_fetch_rxReady {s : State} (h : s.pPhase = .fetch) : (pStep s).rxReady = false := by
  simp [pStep, h, pFetch]

/-- The rest of Q's operation leaves the request and P alone. -/
theorem qFinish_producer (s : State) :
    (qFinish s).rxReady = s.rxReady ∧ (qFinish s).pPhase = s.pPhase ∧ (qFinish s).pushes = s.pushes ∧
    (qFinish s).interpStarted = s.interpStarted :=
  qFinish_keeps (I := fun t => t.rxReady = s.rxReady ∧ t.pPhase = s.pPhase ∧ t.pushes = s.pushes ∧
    t.interpStarted = s.interpStarted) (fun t h => by simpa using h) ⟨rfl, rfl, rfl, rfl⟩

/-- A line without an arrival raises no request. -/
theorem SystemLine.rxReady {turn : Turn} {s t : State} (h : SystemLine turn s t) (hr : s.rxReady = false) :
    t.rxReady = false := by
  have hp : ∀ u : State, u.rxReady = false → (pFinish u).rxReady = false := fun u hu =>
    pFinish_keeps (I := fun t => t.rxReady = false) (fun _ => pStep_rxReady) hu
  cases h with
  | wait => exact hr
  | producer _ _ _ ht =>
    rcases ht with rfl | rfl
    · exact pStep_rxReady hr
    · exact hp _ hr
  | dispatch a _ _ ht =>
    rcases ht with rfl | rfl
    · exact hr
    · exact hp _ hr
  | micro _ => simpa using hr
  | resume _ => exact (qFinish_producer s).1.trans hr
  | iteration a _ _ _ _ hu ht =>
    subst hu
    rcases ht with rfl | rfl
    · exact hr
    · exact (qFinish_producer _).1.trans hr
  | interpreter _ _ _ => exact hr

/-- In `P_FETCH` P stays until the request is answered. -/
theorem SystemLine.fetch {turn : Turn} {s t : State} (h : SystemLine turn s t) (hp : s.pPhase = .fetch)
    (hr : t.rxReady = true) : t.pPhase = .fetch := by
  cases h with
  | wait => exact hp
  | producer _ _ _ ht =>
    have : t.rxReady = false := by
      rcases ht with rfl | rfl
      · exact pStep_fetch_rxReady hp
      · have h1 := pStep_fetch_rxReady hp
        exact pStep_rxReady (pStep_rxReady (pStep_rxReady (pStep_rxReady h1)))
    rw [this] at hr
    cases hr
  | dispatch a _ hd _ => simp [dispatchDue, hp] at hd
  | micro _ => simpa using hp
  | resume _ => exact (qFinish_producer s).2.1.trans hp
  | iteration a _ _ _ _ hu ht =>
    subst hu
    rcases ht with rfl | rfl
    · exact hp
    · exact (qFinish_producer _).2.1.trans hp
  | interpreter _ _ _ => exact hp

/-! ## Where Q is -/

/-- Q is in the poll loop of `read_byte`, its own or the main loop's. -/
def Polling (s : State) : Prop :=
  (s.qOp = .readByte ∨ s.qOp = .ciIter) ∧ (s.qPhase = .sample ∨ s.qPhase = .read)

/-- How far Q is from the end of the operation in hand. -/
def rankOfQ (s : State) : Nat :=
  match s.qPhase with
  | .idle => if s.qOp = .none then 0 else s.qWork.length + 1
  | .sample => 3
  | .read => 2
  | .publish => 1

/-- The same, with the interpreter's start counted where it is still to come. -/
def rank (s : State) : Nat := (if s.interpStarted then 0 else s.cfg.msgBanner.length + 2) + rankOfQ s

/-- Q at rest is at the end of its operation. -/
@[simp] theorem rankOfQ_qDone (s : State) : rankOfQ (qDone s) = 0 := rfl

/-- Q busy is not. -/
theorem rankOfQ_pos {s : State} (h : qBusy s = true) : 0 < rankOfQ s := by
  unfold rankOfQ
  split
  · rename_i hp
    simp only [qBusy, hp, bne_self_eq_false, Bool.or_false, bne_iff_ne, ne_eq] at h
    simp [h]
  all_goals decide

/-- The interpreter's work pops nothing. -/
theorem finishWork_pops (s : State) : (finishWork s).pops = s.pops := by
  unfold finishWork
  split <;> simp

/-- The return of a pop pops no second byte. -/
theorem popReturn_pops (s : State) : (popReturn s).pops = s.pops := by
  unfold popReturn
  split <;> simp [beginRow]

/-- From `Q_PUBLISH` Q pops. -/
theorem pops_of_publish {s : State} (h : s.qPhase = .publish) :
    (qStep s).pops = s.pops + 1 ∧ (qFinish s).pops = s.pops + 1 := by
  have hp : (qPublish s).pops = s.pops + 1 := by simp [qPublish, popReturn_pops]
  refine ⟨by simpa [qStep, h] using hp, ?_⟩
  rw [qFinish, finishWork_pops, finishPop, h]
  exact hp

/-- One pass from a sample that shows a byte pops. -/
theorem pops_of_finishRead {s : State} (ho : s.qOp = .tryPop ∨ s.qOp = .readByte ∨ s.qOp = .ciIter)
    (hb : s.qHeadSeen ≠ s.tail) : (finishRead s).pops = s.pops + 1 := by
  rw [finishRead_of_byte ho hb, popReturn_pops]

/-- A micro-step of the poll loop samples, or sees no byte and goes back, or sees one and is about to pop it. -/
theorem Polling.qStep {s : State} (h : Polling s) :
    (Polling (qStep s) ∧ (s.qPhase = .sample → (Machine.qStep s).qPhase = .read) ∧
      (s.qPhase = .read → (Machine.qStep s).qPhase = .sample)) ∨
    ((Machine.qStep s).qPhase = .publish) := by
  obtain ⟨ho, hp | hp⟩ := h
  · left
    rcases ho with ho | ho <;> simp [Machine.qStep, hp, qSample, ho, Polling]
  · by_cases hb : s.qHeadSeen = s.tail
    · left
      rcases ho with ho | ho <;> simp [Machine.qStep, hp, qRead, popRead, popEmpty, ho, hb, Polling]
    · right
      rcases ho with ho | ho <;> simp [Machine.qStep, hp, qRead, popRead, ho, hb]

/-- One poll without a break pops, or samples no byte and goes back. -/
theorem Polling.qFinish {s : State} (h : Polling s) :
    (qFinish s).pops = s.pops + 1 ∨
    (Polling (Machine.qFinish s) ∧ (Machine.qFinish s).qPhase = .sample ∧
      (s.qPhase = .sample → (readHeadFromQ s).1 = s.tail)) := by
  obtain ⟨ho, hp | hp⟩ := h
  · have ho' : s.qOp = .tryPop ∨ s.qOp = .readByte ∨ s.qOp = .ciIter := .inr ho
    by_cases hb : (readHeadFromQ s).1 = s.tail
    · right
      rw [qFinish_of_none hp ho' hb]
      rcases ho with ho | ho <;> simp [popEmpty, ho, finishWork, Polling, hb]
    · left
      rw [qFinish_of_byte hp ho' hb, finishWork_pops, popReturn_pops]
  · have ho' : s.qOp = .tryPop ∨ s.qOp = .readByte ∨ s.qOp = .ciIter := .inr ho
    have hf : finishPop s = finishRead s := by simp [finishPop, hp]
    by_cases hb : s.qHeadSeen = s.tail
    · right
      rw [Machine.qFinish, hf, finishRead_of_none ho' hb]
      rcases ho with ho | ho <;> simp [popEmpty, ho, finishWork, Polling, hp]
    · left
      rw [Machine.qFinish, hf, finishWork_pops, pops_of_finishRead ho' hb]

/-- Outside the poll loop a micro-step of Q pops, or is one step nearer to the end of the operation. -/
theorem qStep_nearer {s : State} (hl : LegalState s) (hb : qBusy s = true) (hn : ¬ Polling s) :
    (qStep s).pops = s.pops + 1 ∨ rankOfQ (qStep s) < rankOfQ s := by
  cases hp : s.qPhase
  · right
    simp only [qBusy, hp, bne_self_eq_false, Bool.or_false, bne_iff_ne, ne_eq] at hb
    cases hw : s.qWork with
    | nil => simp [qStep, hp, qWorkStep, hw, rankOfQ, hb]
    | cons a rest => simp [qStep, hp, qWorkStep, hw, rankOfQ, hb]
  · right
    have ho := (hl.qSampling hp).1
    cases hq : s.qOp <;> simp [hq, samplingOps] at ho <;>
      simp [qStep, hp, qSample, hq, rankOfQ, Polling] at hn ⊢
  · have ho := (hl.qReading hp).1
    right
    by_cases hx : s.qHeadSeen = s.tail <;> cases hq : s.qOp <;> simp [hq, samplingOps] at ho <;>
      simp [qStep, hp, qRead, popRead, popEmpty, hq, hx, rankOfQ, Polling] at hn ⊢
  · exact .inl (pops_of_publish hp).1

/-- Outside the poll loop Q runs to its return, with a byte popped or without. -/
theorem qFinish_nearer {s : State} (hl : LegalState s) (hb : qBusy s = true) (hn : ¬ Polling s) :
    (qFinish s).pops = s.pops + 1 ∨ rankOfQ (qFinish s) < rankOfQ s := by
  have hpos := rankOfQ_pos hb
  have done : ∀ u, qFinish s = qDone u → rankOfQ (qFinish s) < rankOfQ s := fun u hu => by
    rw [hu, rankOfQ_qDone]
    exact hpos
  cases hp : s.qPhase
  · exact .inr (done (doActs s.qWork s) (by simp [qFinish, finishPop, finishWork, hp]))
  · have ho := (hl.qSampling hp).1
    cases hq : s.qOp <;> simp [hq, samplingOps] at ho
    · by_cases hx : (readHeadFromQ s).1 = s.tail
      · exact .inr (done _ (by rw [qFinish_of_none hp (.inl hq) hx]; simp [popEmpty, hq, finishWork_qDone]; rfl))
      · left
        rw [qFinish_of_byte hp (.inl hq) hx, finishWork_pops, popReturn_pops]
    · exact .inr (done _ (qFinish_of_isEmpty hp hq))
    · exact absurd ⟨.inl hq, .inl hp⟩ hn
    · exact .inr (done _ (qFinish_of_dataAvailable hp hq))
    · exact absurd ⟨.inr hq, .inl hp⟩ hn
  · have ho := (hl.qReading hp).1
    have hf : finishPop s = finishRead s := by simp [finishPop, hp]
    cases hq : s.qOp <;> simp [hq, samplingOps] at ho
    · by_cases hx : s.qHeadSeen = s.tail
      · exact .inr (done _ (by
          rw [qFinish, hf, finishRead_of_none (.inl hq) hx]
          simp [popEmpty, hq, finishWork_qDone]
          rfl))
      · left
        rw [qFinish, hf, finishWork_pops, pops_of_finishRead (.inl hq) hx]
    · exact .inr (done _ (by rw [qFinish, hf]; simp [finishRead, qRead, hq, finishWork_qDone]; rfl))
    · exact absurd ⟨.inl hq, .inr hp⟩ hn
    · exact .inr (done _ (by rw [qFinish, hf]; simp [finishRead, qRead, hq, finishWork_qDone]; rfl))
    · exact absurd ⟨.inr hq, .inr hp⟩ hn
  · exact .inl (pops_of_publish hp).2

/-! ## Once P is at rest for good -/

/-- With no request pending and P idle, a line of another agent than Q changes nothing. -/
theorem SystemLine.still {turn : Turn} {s t : State} (h : SystemLine turn s t) (hr : s.rxReady = false)
    (hp : s.pPhase = .idle) (hq : isStepOfQ turn = false) : t = s := by
  cases h with
  | wait => rfl
  | producer _ _ hb _ => exact absurd hp hb
  | dispatch a _ hd _ => simp [dispatchDue, rxRequest, hr] at hd
  | micro _ => cases hq
  | resume _ => cases hq
  | iteration a hi _ _ _ _ _ => rw [hi] at hq; cases hq
  | interpreter _ _ _ => cases hq

/-- And P stays idle, and pushes nothing. -/
theorem SystemLine.idle {turn : Turn} {s t : State} (h : SystemLine turn s t) (hr : s.rxReady = false)
    (hp : s.pPhase = .idle) : t.pPhase = .idle ∧ t.pushes = s.pushes := by
  cases h with
  | wait => exact ⟨hp, rfl⟩
  | producer _ _ hb _ => exact absurd hp hb
  | dispatch a _ hd _ => simp [dispatchDue, rxRequest, hr] at hd
  | micro _ => exact ⟨by simpa using hp, by simp⟩
  | resume _ => exact ⟨(qFinish_producer s).2.1.trans hp, (qFinish_producer s).2.2.1⟩
  | iteration a _ _ _ _ hu ht =>
    subst hu
    rcases ht with rfl | rfl
    · exact ⟨hp, rfl⟩
    · exact ⟨(qFinish_producer _).2.1.trans hp, (qFinish_producer _).2.2.1⟩
  | interpreter _ _ _ => exact ⟨hp, rfl⟩

/-- A step of Q outside the poll loop pops, or enters the loop, or is nearer to it. -/
theorem SystemLine.nearer {turn : Turn} {s t : State} (h : SystemLine turn s t) (hl : LegalState s)
    (hq : isStepOfQ turn = true) (hn : ¬ Polling s) : t.pops = s.pops + 1 ∨ Polling t ∨ rank t < rank s := by
  cases h with
  | wait => cases hq
  | producer hi _ _ _ => rw [hi] at hq; cases hq
  | dispatch a hi _ _ => rw [hi] at hq; cases hq
  | micro hb =>
    rcases qStep_nearer hl hb hn with h | h
    · exact .inl h
    · exact .inr (.inr (by simpa [rank] using h))
  | resume hb =>
    rcases qFinish_nearer hl hb hn with h | h
    · exact .inl h
    · refine .inr (.inr ?_)
      have hc : (qFinish s).cfg = s.cfg := qFinish_keeps (I := fun t => t.cfg = s.cfg) (fun t h => by simpa using h) rfl
      simpa [rank, hc, (qFinish_producer s).2.2.2] using h
  | iteration a _ _ _ _ hu ht =>
    have hu' : Polling t ∨ t = qFinish { s with issuer := a, qOp := .ciIter, qPhase := .sample } := by
      subst hu
      rcases ht with rfl | rfl
      · exact .inl ⟨.inr rfl, .inl rfl⟩
      · exact .inr rfl
    rcases hu' with h | rfl
    · exact .inr (.inl h)
    · rcases Polling.qFinish (s := { s with issuer := a, qOp := .ciIter, qPhase := .sample })
        ⟨.inr rfl, .inl rfl⟩ with h | h
      · exact .inl h
      · exact .inr (.inl h.1)
  | interpreter ho hp hi => exact .inr (.inr (by simp [rank, rankOfQ, ho, hp, hi, emitActs]))

/-- A step of Q in `Q_PUBLISH` pops. -/
theorem SystemLine.pops_of_publish {turn : Turn} {s t : State} (h : SystemLine turn s t)
    (hq : isStepOfQ turn = true) (hp : s.qPhase = .publish) : t.pops = s.pops + 1 := by
  cases h with
  | wait => cases hq
  | producer hi _ _ _ => rw [hi] at hq; cases hq
  | dispatch a hi _ _ => rw [hi] at hq; cases hq
  | micro _ => exact (Machine.pops_of_publish hp).1
  | resume _ => exact (Machine.pops_of_publish hp).2
  | iteration a _ _ _ hi _ _ => rw [hp] at hi; cases hi
  | interpreter _ hi _ => rw [hp] at hi; cases hi

/-- A step of Q in the poll loop: it samples, or goes back to its sample, or is about to pop, or pops. -/
theorem SystemLine.poll {turn : Turn} {s t : State} (h : SystemLine turn s t) (hq : isStepOfQ turn = true)
    (hp : Polling s) :
    t.pops = s.pops + 1 ∨ t.qPhase = .publish ∨
    (Polling t ∧ (s.qPhase = .read → t.qPhase = .sample) ∧
      (s.qPhase = .sample → samplesHead turn s = true ∧
        (turn = .micro .q ∧ t = Machine.qStep s ∧ t.qPhase = .read ∨ (readHeadFromQ s).1 = s.tail))) := by
  have hbusy : s.qPhase ≠ .idle := by rcases hp.2 with h | h <;> simp [h]
  cases h with
  | wait => cases hq
  | producer hi _ _ _ => rw [hi] at hq; cases hq
  | dispatch a hi _ _ => rw [hi] at hq; cases hq
  | micro _ =>
    rcases hp.qStep with ⟨h1, h2, h3⟩ | h
    · exact .inr (.inr ⟨h1, h3, fun hs => ⟨by simp [samplesHead, hs], .inl ⟨rfl, rfl, h2 hs⟩⟩⟩)
    · exact .inr (.inl h)
  | resume _ =>
    rcases hp.qFinish with h | ⟨h1, h2, h3⟩
    · exact .inl h
    · exact .inr (.inr ⟨h1, fun _ => h2, fun hs => ⟨by simp [samplesHead, hs], .inr (h3 hs)⟩⟩)
  | iteration a _ _ _ hi _ _ => exact absurd hi hbusy
  | interpreter _ hi _ => exact absurd hi hbusy

/-- A bounded counter that never goes down stands still in the end. -/
theorem stands_still {f : Nat → Nat} {K : Nat} (hm : ∀ n m, n ≤ m → f n ≤ f m) (N : Nat)
    (hK : ∀ n, N ≤ n → f n ≤ K) : ∃ M, N ≤ M ∧ ∀ n, M ≤ n → f n = f M := by
  generalize hd : K - f N = d
  induction d using Nat.strongRecOn generalizing N with
  | ind d ih =>
    by_cases hx : ∃ n, N ≤ n ∧ f N < f n
    · obtain ⟨n, hn, hlt⟩ := hx
      have hb := hK n hn
      obtain ⟨M, hM, h⟩ := ih (K - f n) (by omega) n (fun m hm => hK m (hn.trans hm)) rfl
      exact ⟨M, hn.trans hM, h⟩
    · refine ⟨N, Nat.le_refl N, fun n hn => ?_⟩
      have := hm N n hn
      by_contra hne
      exact hx ⟨n, hn, by omega⟩

/-- A move never goes back before INIT. -/
theorem move_life {s t : State} (h : Move s t) (hs : s.life = .active) : t.life = .active := by
  cases h with
  | port => exact hs
  | p => simpa using hs
  | q => simpa using hs
  | push => exact hs
  | dispatch => exact hs
  | emptyByP => simpa [isEmptyByP] using hs
  | sampling => exact hs
  | row => exact hs
  | interpreter => exact hs
  | arrive => exact hs
  | overrun b =>
    unfold overrunByte
    dsimp only
    split <;> exact hs
  | init => rfl

/-- A move takes back no pop, once INIT has completed. -/
theorem move_pops {s t : State} (h : Move s t) (hl : s.life = .active) : s.pops ≤ t.pops := by
  cases h with
  | port => exact Nat.le_refl _
  | p => simp
  | q =>
    cases hp : s.qPhase
    · cases hw : s.qWork <;> simp [qStep, hp, qWorkStep, hw]
    · cases ho : s.qOp <;> simp [qStep, hp, qSample, ho]
    · by_cases he : s.qHeadSeen = s.tail <;>
        cases ho : s.qOp <;> simp [qStep, hp, qRead, popRead, popEmpty, ho, he]
    · rw [(Machine.pops_of_publish hp).1]
      exact Nat.le_succ _
  | push => exact Nat.le_refl _
  | dispatch => exact Nat.le_refl _
  | emptyByP => simp [isEmptyByP]
  | sampling => exact Nat.le_refl _
  | row => exact Nat.le_refl _
  | interpreter => exact Nat.le_refl _
  | arrive => exact Nat.le_refl _
  | overrun b =>
    unfold overrunByte
    dsimp only
    split <;> exact Nat.le_refl _
  | init _ _ hs => rw [hl] at hs; cases hs

section

variable {turns : Nat → Turn} {run : Nat → State}

theorem SystemRun.life (h : SystemRun turns run) (n : Nat) : (run n).life = .active :=
  run_keeps h.isRun (I := fun s => s.life = .active) (fun _ _ => move_life) h.active (Nat.zero_le n)

/-- From some line on nothing arrives, and each line is one of the above. -/
theorem SystemRun.lines (h : SystemRun turns run) :
    ∃ N, NoArrivalFrom turns N ∧ ∀ n, N ≤ n → SystemLine (turns n) (run n) (run (n + 1)) := by
  obtain ⟨N, hN⟩ := h.finite
  exact ⟨N, hN, fun n hn => systemLine (h.isRun n) (h.system n) (hN n hn)⟩

/-- Some line after which no request is pending, ever. -/
theorem SystemRun.answered (h : SystemRun turns run) {N : Nat}
    (hl : ∀ n, N ≤ n → SystemLine (turns n) (run n) (run (n + 1))) :
    ∃ M, N ≤ M ∧ ∀ n, M ≤ n → (run n).rxReady = false := by
  obtain ⟨-, hdisp, hret, -⟩ := h.fair
  suffices hx : ∃ M, N ≤ M ∧ (run M).rxReady = false by
    obtain ⟨M, hM, hr⟩ := hx
    refine ⟨M, hM, fun n hn => ?_⟩
    induction hn with
    | refl => exact hr
    | @step n hn ih => exact (hl n (hM.trans hn)).rxReady ih
  by_contra hc
  have hall : ∀ n, N ≤ n → (run n).rxReady = true := fun n hn => by
    by_contra hr
    exact hc ⟨n, hn, by simpa using hr⟩
  have hidle : ∀ n, N ≤ n → ∃ m, n ≤ m ∧ (run m).pPhase = .idle := fun n hn => by
    by_cases hb : pBusy (run n) = true
    · obtain ⟨m, hm, hp⟩ := hret n hb
      exact ⟨m, hm, by simpa [pBusy] using hp⟩
    · exact ⟨n, Nat.le_refl n, by simpa [pBusy] using hb⟩
  obtain ⟨n, hn, hp⟩ := hidle N (Nat.le_refl N)
  have hie := (h.legal n).enabledAfterInit (h.life n)
  obtain ⟨m, hm, hby⟩ := hdisp n (by simp [dispatchDue, rxRequest, hall n hn, hie, hp])
  have hNm := hn.trans hm
  have hf : (run (m + 1)).pPhase = .fetch := by
    have hr := hall (m + 1) (Nat.le_succ_of_le hNm)
    have hline := hl m hNm
    generalize turns m = turn at hline hby
    generalize run (m + 1) = t at hline hr ⊢
    generalize run m = s at hline
    cases hline with
    | wait => cases hby
    | producer _ hn _ _ => rw [hn] at hby; cases hby
    | dispatch a _ _ ht =>
      rcases ht with rfl | rfl
      · rfl
      · exact (SystemLine.fetch (turn := .resume .p) (s := enterHandler { s with issuer := a })
          (.producer rfl rfl (by simp) (.inr rfl)) rfl hr)
    | micro => cases hby
    | resume => cases hby
    | iteration a _ hi _ _ _ _ => rw [hi] at hby; cases hby
    | interpreter => cases hby
  have hstay : ∀ k, m + 1 ≤ k → (run k).pPhase = .fetch := fun k hk => by
    induction hk with
    | refl => exact hf
    | @step k hk ih =>
      have hNk : N ≤ k := hNm.trans ((Nat.le_succ m).trans hk)
      exact (hl k hNk).fetch ih (hall (k + 1) (Nat.le_succ_of_le hNk))
  obtain ⟨k, hk, hp⟩ := hidle (m + 1) (Nat.le_succ_of_le hNm)
  rw [hstay k hk] at hp
  cases hp

/-- From some line on nothing arrives, no request is pending, P is idle, and Q pops nothing: what is left to Q is to
poll. -/
theorem SystemRun.settles (h : SystemRun turns run) :
    ∃ N, NoArrivalFrom turns N ∧ ∀ n, N ≤ n →
      SystemLine (turns n) (run n) (run (n + 1)) ∧ (run n).rxReady = false ∧ (run n).pPhase = .idle ∧
      (run n).pushes = (run N).pushes ∧ (run n).pops = (run N).pops := by
  obtain ⟨-, -, hret, -⟩ := h.fair
  obtain ⟨N, hN, hl⟩ := h.lines
  obtain ⟨M, hM, hr⟩ := h.answered hl
  have hidle : ∃ m, M ≤ m ∧ (run m).pPhase = .idle := by
    by_cases hb : pBusy (run M) = true
    · obtain ⟨m, hm, hp⟩ := hret M hb
      exact ⟨m, hm, by simpa [pBusy] using hp⟩
    · exact ⟨M, Nat.le_refl M, by simpa [pBusy] using hb⟩
  obtain ⟨m, hm, hp⟩ := hidle
  have hP : ∀ n, m ≤ n → (run n).pPhase = .idle ∧ (run n).pushes = (run m).pushes := fun n hn => by
    induction hn with
    | refl => exact ⟨hp, rfl⟩
    | @step n hn ih =>
      have hMn : M ≤ n := hm.trans hn
      have := (hl n (hM.trans hMn)).idle (hr n hMn) ih.1
      exact ⟨this.1, this.2.trans ih.2⟩
  have hmono : ∀ i j, i ≤ j → (run i).pops ≤ (run j).pops := fun i j hij =>
    (run_keeps h.isRun (I := fun s => s.life = .active ∧ (run i).pops ≤ s.pops) (fun s t hmv hs =>
      ⟨move_life hmv hs.1, hs.2.trans (move_pops hmv hs.1)⟩) ⟨h.life i, Nat.le_refl _⟩ hij).2
  obtain ⟨L, hL, hpop⟩ := stands_still (f := fun n => (run n).pops) (K := (run m).pushes) hmono m fun n hn => by
    obtain ⟨-, c2, c3, -⟩ := (h.fifo n).chain
    have := (hP n hn).2
    omega
  refine ⟨L, fun k hk => hN k (hM.trans (hm.trans (hL.trans hk))), fun n hn => ?_⟩
  have hmn : m ≤ n := hL.trans hn
  exact ⟨hl n (hM.trans (hm.trans hmn)), hr n (hm.trans hmn), (hP n hmn).1,
    (hP n hmn).2.trans (hP L hL).2.symm, hpop n hn⟩

/-- Every fair run of the whole system on a finite input becomes quiescent, and stays so: from then on Q spins
(70_reset_and_hazards.md R213; 60_exceptions.md R179). -/
theorem SystemRun.becomes_quiescent (h : SystemRun turns run) :
    ∃ N, ∀ n, N ≤ n → QuiescentAt turns run n := by
  obtain ⟨N, hN, hset⟩ := h.settles
  obtain ⟨⟨hvis, -⟩, -, -, hstep⟩ := h.fair
  -- Q moves again and again, and nothing else does
  have next : ∀ n, N ≤ n → ∃ m, n ≤ m ∧ run m = run n ∧ isStepOfQ (turns m) = true := fun n hn => by
    obtain ⟨m, hm, hq⟩ := hstep n (.inr h.finite)
    obtain ⟨d, rfl⟩ := Nat.exists_eq_add_of_le hm
    clear hm
    induction d generalizing n with
    | zero => exact ⟨n, Nat.le_refl n, rfl, hq⟩
    | succ d ih =>
      by_cases hs : isStepOfQ (turns n) = true
      · exact ⟨n, Nat.le_refl n, rfl, hs⟩
      · obtain ⟨hl, hr, hp, -, -⟩ := hset n hn
        have he := hl.still hr hp (by simpa using hs)
        obtain ⟨m, hm, hrun, hq⟩ := ih (n + 1) (Nat.le_succ_of_le hn) (by rwa [Nat.add_right_comm, Nat.add_assoc])
        exact ⟨m, Nat.le_of_succ_le hm, hrun.trans he, hq⟩
  have noPop : ∀ n, N ≤ n → (run (n + 1)).pops ≠ (run n).pops + 1 := fun n hn he => by
    have h1 := (hset n hn).2.2.2.2
    have h2 := (hset (n + 1) (Nat.le_succ_of_le hn)).2.2.2.2
    omega
  have noPublish : ∀ n, N ≤ n → (run n).qPhase ≠ .publish := fun n hn hp => by
    obtain ⟨m, hm, hrun, hq⟩ := next n hn
    have hNm := hn.trans hm
    exact noPop m hNm ((hset m hNm).1.pops_of_publish hq (by rw [hrun]; exact hp))
  -- Q enters the poll loop
  have enters : ∃ n, N ≤ n ∧ Polling (run n) := by
    suffices hx : ∀ k n, N ≤ n → rank (run n) = k → ∃ m, N ≤ m ∧ Polling (run m) from hx _ N (Nat.le_refl N) rfl
    intro k
    induction k using Nat.strongRecOn with
    | ind k ih =>
      intro n hn hk
      by_cases hp : Polling (run n)
      · exact ⟨n, hn, hp⟩
      · obtain ⟨m, hm, hrun, hq⟩ := next n hn
        have hNm := hn.trans hm
        rcases (hset m hNm).1.nearer (h.legal m) hq (by rw [hrun]; exact hp) with hx | hx | hx
        · exact absurd hx (noPop m hNm)
        · exact ⟨m + 1, Nat.le_succ_of_le hNm, hx⟩
        · exact ih _ (by rw [hrun] at hx; omega) (m + 1) (Nat.le_succ_of_le hNm) rfl
  obtain ⟨P, hP, hPoll⟩ := enters
  -- and stays in it
  have step : ∀ n, N ≤ n → Polling (run n) → isStepOfQ (turns n) = true →
      Polling (run (n + 1)) ∧ ((run n).qPhase = .read → (run (n + 1)).qPhase = .sample) ∧
      ((run n).qPhase = .sample → samplesHead (turns n) (run n) = true ∧
        (turns n = .micro .q ∧ run (n + 1) = qStep (run n) ∧ (run (n + 1)).qPhase = .read ∨
          (readHeadFromQ (run n)).1 = (run n).tail)) := fun n hn hp hq => by
    rcases (hset n hn).1.poll hq hp with hx | hx | hx
    · exact absurd hx (noPop n hn)
    · exact absurd hx (noPublish (n + 1) (Nat.le_succ_of_le hn))
    · exact hx
  have polls : ∀ n, P ≤ n → Polling (run n) := fun n hn => by
    induction hn with
    | refl => exact hPoll
    | @step n hn ih =>
      have hNn := hP.trans hn
      by_cases hq : isStepOfQ (turns n) = true
      · exact (step n hNn ih hq).1
      · obtain ⟨hl, hr, hp, -, -⟩ := hset n hNn
        rw [hl.still hr hp (by simpa using hq)]
        exact ih
  -- what Q has sampled there shows no byte
  have readEmpty : ∀ n, P ≤ n → (run n).qPhase = .read → (run n).seenHeadN = (run n).pops := fun n hn hp => by
    obtain ⟨m, hm, hrun, hq⟩ := next n (hP.trans hn)
    have hPm := hn.trans hm
    have hs := (step m (hP.trans hPm) (polls m hPm) hq).2.1 (by rw [hrun]; exact hp)
    have hseen : (run n).qHeadSeen = (run n).tail := by
      by_contra hne
      have hl := (hset m (hP.trans hPm)).1
      have hpoll := polls m hPm
      rw [hrun] at hl hpoll
      generalize turns m = turn at hl hq
      have hnp := noPop m (hP.trans hPm)
      rw [hrun] at hnp
      generalize run (m + 1) = t at hl hs hnp
      cases hl with
      | wait => cases hq
      | producer hi _ _ _ => rw [hi] at hq; cases hq
      | dispatch a hi _ _ => rw [hi] at hq; cases hq
      | micro _ =>
        rcases hpoll.1 with ho | ho <;> simp [qStep, hp, qRead, popRead, ho, hne] at hs
      | resume _ =>
        have hf : finishPop (run n) = finishRead (run n) := by simp [finishPop, hp]
        exact hnp (by rw [qFinish, hf, finishWork_pops, pops_of_finishRead (.inr hpoll.1) hne])
      | iteration a _ _ _ hi _ _ => rw [hp] at hi; cases hi
      | interpreter _ hi _ => rw [hp] at hi; cases hi
    obtain ⟨c1, c2, c3, c4⟩ := (h.fifo n).chain
    have hk := (h.fifo n).sampleKept hp
    rw [hseen, (h.fifo n).tailNumber] at hk
    exact (eq_of_mod_eq c2 (by omega) hk).symm
  -- so the buffer is empty
  have samples : ∀ m, ∃ j, m ≤ j ∧ samplesHead (turns j) (run j) = true := fun m => by
    obtain ⟨j, hj, -, hq⟩ := next (max m P) (hP.trans (Nat.le_max_right m P))
    have hmj := (Nat.le_max_left m P).trans hj
    have hPj := (Nat.le_max_right m P).trans hj
    rcases (polls j hPj).2 with hp | hp
    · exact ⟨j, hmj, ((step j (hP.trans hPj) (polls j hPj) hq).2.2 hp).1⟩
    · have hs := (step j (hP.trans hPj) (polls j hPj) hq).2.1 hp
      have hPj' := Nat.le_succ_of_le hPj
      obtain ⟨k, hk, hrun, hq'⟩ := next (j + 1) (hP.trans hPj')
      have hPk := hPj'.trans hk
      exact ⟨k, hmj.trans ((Nat.le_succ j).trans hk),
        ((step k (hP.trans hPk) (polls k hPk) hq').2.2 (by rw [hrun]; exact hs)).1⟩
  have empty : (run N).pushes = (run N).pops := by
    obtain ⟨m, hm, hseen⟩ := hvis (run N).pushes P (fun m hm => ((hset m (hP.trans hm)).2.2.2.1).ge) samples
    have hNm := hP.trans hm
    obtain ⟨-, -, -, hpush, hpops⟩ := hset m hNm
    rcases (polls m hm).2 with hp | hp
    · obtain ⟨j, hj, hrun, hq⟩ := next m hNm
      have hPj := hm.trans hj
      have hval := readHeadFromQ_value (h.fifo j).headNumber (h.fifo j).chain.2.2.1
      have hch := (h.fifo j).chain
      rw [hrun] at hval hch
      rcases ((step j (hP.trans hPj) (polls j hPj) hq).2.2 (by rw [hrun]; exact hp)).2 with ⟨-, hs, hr⟩ | hs
      · have hPj' := Nat.le_succ_of_le hPj
        have he := readEmpty (j + 1) hPj' hr
        obtain ⟨-, -, -, -, hpops'⟩ := hset (j + 1) (hP.trans hPj')
        have hsn : (run (j + 1)).seenHeadN = (readHeadFromQ (run m)).2.seenHeadN := by
          rw [hs, hrun]
          have ho : (run m).qOp = .tryPop ∨ (run m).qOp = .isEmpty ∨ (run m).qOp = .readByte ∨
              (run m).qOp = .dataAvailable ∨ (run m).qOp = .ciIter := by
            rcases (polls m hm).1 with ho | ho <;> simp [ho]
          simp only [qStep, hp]
          rw [qSample_eq ho]
        omega
      · rw [hrun, hval.1, (h.fifo m).tailNumber] at hs
        have := eq_of_mod_eq (by omega) (by omega) hs.symm
        omega
    · have := readEmpty m hm hp
      have hch := (h.fifo m).chain
      omega
  refine ⟨P, fun n hn => ⟨?_, fun m hm => hN m (hP.trans (hn.trans hm))⟩⟩
  obtain ⟨-, hr, hp, hpush, hpops⟩ := hset n (hP.trans hn)
  refine ⟨hr, hp, ?_, (polls n hn).1, ?_⟩
  · rw [(h.fifo n).headNumber, (h.fifo n).tailNumber, hpush, hpops, empty]
  · rcases (polls n hn).2 with hq | hq
    · exact .inl hq
    · refine .inr ⟨hq, ?_⟩
      rw [(h.fifo n).sampleKept hq, readEmpty n hn hq, (h.fifo n).tailNumber]

end

end Sys2Proof.Machine
end

