-- ==== Sys2Proof/Tests/Slice0.lean ====
section
/-! SUPPORT. The package's own tests: expected results come from 30_encoding.md and from the vectors V<n> of
95_test_vectors.md, worked out there by hand; and for each statement with hypotheses a witness that meets them all. -/

namespace Sys2Proof.Tests

open Sys2Proof.Machine Sys2Proof.Safety

/-! ## Small states -/

/-- The parameters the vectors assume: `C = 4`, `N = 32`, `VIS = Fresh`. -/
def tiny : Config where
  C := 4
  N := 32
  legacyOverwrite := false
  vis := .fresh
  sched := .preempt
  rxOverrun := .excluded
  pinLed := 0
  msgHelp := [0x48#8]
  msgLedOn := [0x31#8]
  msgLedOff := [0x30#8]
  msgToggle := [0x54#8]
  msgStatusOn := [0x53#8, 0x31#8]
  msgStatusOff := [0x53#8, 0x30#8]
  msgBanner := [0x42#8]

/-- The legacy form of the push. -/
def tinyLegacy : Config := { tiny with legacyOverwrite := true }
/-- The overrun left open. -/
def tinyOpen : Config := { tiny with rxOverrun := .openBehaviour }
/-- Two truly concurrent domains. -/
def tinyFree : Config := { tiny with sched := .free }
/-- Stale pointer reads allowed. -/
def tinyMonotone : Config := { tiny with vis := .monotone }
/-- A line buffer of two cells. -/
def tinyLine : Config := { tiny with N := 2 }

/-- Process start with a value in every part the spec leaves unspecified. -/
def before (c : Config) : State :=
  { State.processStart c with
    rxData := 0#8, rxReady := true, pByte := 0#8, pTailSeen := 0, pOk := false, pIsr := false, qHeadSeen := 0,
    qByte := 0#8, pin := false }

/-- After INIT and the push of `bytes`, nothing popped; `a` issues the next operation. -/
def holding (c : Config) (a : Agent) (bytes : List Byte) : State :=
  { before c with
    life := .active, rxIe := true, rxReady := false, issuer := a,
    storage := bytes.mapIdx fun i b => (i, b), head := bytes.length, pushes := bytes.length,
    history := bytes.mapIdx fun i b => .pushOk b i }

/-- The same with `line` typed at the interpreter. -/
def typed (c : Config) (line : List Byte) : State :=
  { holding c .q [] with chars := line.mapIdx fun i b => (i, b), length := line.length }

/-- A byte is pending at the receiver. -/
def pending (s : State) (b : Byte) : State := { s with rxData := b, rxReady := true }

/-- Q waits in a READ_BYTE. -/
def waiting (s : State) : State := { s with qOp := .readByte, qPhase := .sample }

/-- `f` of the next state, where there is one. -/
def after {α : Type} (o : Host.Outcome State Fault Refusal) (f : State → α) : Option α :=
  match o with
  | .next t => some (f t)
  | .fault _ => none
  | .refused _ => none

/-- The reason of a refusal. -/
def reason (o : Host.Outcome State Fault Refusal) : Option Refusal :=
  match o with
  | .next _ => none
  | .fault _ => none
  | .refused r => some r

/-- The state after an outcome, or the one before where there is none. -/
def stateAfter (o : Host.Outcome State Fault Refusal) (s : State) : State :=
  match o with
  | .next t => t
  | .fault _ => s
  | .refused _ => s

/-! ## The smoke test of WellFormed: every check refuses an ill-formed term -/

theorem test_requests_of_wrong_agents_are_refused :
    Request.wf ⟨.q, .tryPush 0x41#8⟩ = false ∧ Request.wf ⟨.p, .tryPop⟩ = false ∧ Request.wf ⟨.e, .isEmpty⟩ = false ∧
    Request.wf ⟨.q, .rxIrq⟩ = false ∧ Request.wf ⟨.p, .rxArrive 0x41#8⟩ = false ∧
    Request.wf ⟨.p, .readByte⟩ = false ∧ Request.wf ⟨.p, .dataAvailable⟩ = false ∧ Request.wf ⟨.p, .ciIter⟩ = false ∧
    Request.wf ⟨.p, .ciStep 0x0D#8⟩ = false ∧ Request.wf ⟨.q, .init⟩ = false ∧
    Request.wf ⟨.further 0, .isEmpty⟩ = false := by decide

theorem test_requests_of_right_agents_are_accepted :
    Request.wf ⟨.p, .tryPush 0x41#8⟩ = true ∧ Request.wf ⟨.q, .tryPop⟩ = true ∧ Request.wf ⟨.q, .isEmpty⟩ = true ∧
    Request.wf ⟨.p, .isEmpty⟩ = true ∧ Request.wf ⟨.p, .rxIrq⟩ = true ∧ Request.wf ⟨.e, .rxArrive 0x41#8⟩ = true ∧
    Request.wf ⟨.q, .readByte⟩ = true ∧ Request.wf ⟨.q, .dataAvailable⟩ = true ∧ Request.wf ⟨.q, .ciIter⟩ = true ∧
    Request.wf ⟨.q, .ciStep 0x0D#8⟩ = true ∧ Request.wf ⟨.s, .init⟩ = true := by decide

theorem test_config_of_one_slot_is_refused : Config.wf { tiny with C := 1 } = false := by decide
theorem test_config_without_line_is_refused : Config.wf { tiny with N := 0 } = false := by decide
theorem test_config_of_least_sizes_is_accepted : Config.wf { tiny with C := 2, N := 1 } = true := by decide
theorem test_equal_status_texts_are_refused : Config.textsDiffer { tiny with msgStatusOff := tiny.msgStatusOn } = false := by
  decide

/-! ## Decoding: the words of R86 written out bit by bit, `opc` `zero` `imm8` -/

theorem test_decode_tryPush : decode 0b0001000001000001#16 = .ok (.tryPush 0x41#8) := by decide
theorem test_decode_tryPop : decode 0b0010000000000000#16 = .ok .tryPop := by decide
theorem test_decode_isEmpty : decode 0b0011000000000000#16 = .ok .isEmpty := by decide
theorem test_decode_rxIrq : decode 0b0100000000000000#16 = .ok .rxIrq := by decide
theorem test_decode_rxArrive : decode 0b0101000000001101#16 = .ok (.rxArrive 0x0D#8) := by decide
theorem test_decode_readByte : decode 0b0110000000000000#16 = .ok .readByte := by decide
theorem test_decode_dataAvailable : decode 0b0111000000000000#16 = .ok .dataAvailable := by decide
theorem test_decode_ciIter : decode 0b1000000000000000#16 = .ok .ciIter := by decide
theorem test_decode_ciStep : decode 0b1001000001111111#16 = .ok (.ciStep 0x7F#8) := by decide
theorem test_decode_init : decode 0b1010000000000000#16 = .ok .init := by decide
/-- The boundaries of part 2.5. -/
theorem test_decode_operand_boundaries :
    decode 0x1000#16 = .ok (.tryPush 0x00#8) ∧ decode 0x10FF#16 = .ok (.tryPush 0xFF#8) ∧
    decode 0x9008#16 = .ok (.ciStep 0x08#8) := by decide
/-- V50 to V55. -/
theorem test_decode_rejects :
    decode 0x0000#16 = .error .reservedOpcode ∧ decode 0xFFFF#16 = .error .reservedOpcode ∧
    decode 0xB000#16 = .error .reservedOpcode ∧ decode 0x2001#16 = .error .operandNotZero ∧
    decode 0x70FF#16 = .error .operandNotZero ∧ decode 0x4001#16 = .error .operandNotZero ∧
    decode 0xA0FF#16 = .error .operandNotZero ∧ decode 0x1141#16 = .error .zeroFieldNotZero ∧
    decode 0x3100#16 = .error .zeroFieldNotZero := by decide
theorem test_encode :
    encode (.tryPush 0x41#8) = 0x1041#16 ∧ encode .tryPop = 0x2000#16 ∧ encode .isEmpty = 0x3000#16 ∧
    encode .rxIrq = 0x4000#16 ∧ encode (.rxArrive 0x0D#8) = 0x500D#16 ∧ encode .readByte = 0x6000#16 ∧
    encode .dataAvailable = 0x7000#16 ∧ encode .ciIter = 0x8000#16 ∧ encode (.ciStep 0x7F#8) = 0x907F#16 ∧
    encode .init = 0xA000#16 := by decide
theorem test_decodeTableWord :
    decodeTableWord 16 0x1041 = some (.tryPush 0x41#8) ∧ decodeTableWord 16 0xB000 = none ∧
    decodeTableWord 32 0x1041 = none := by decide

/-! ## One step of each operation -/

/-- V3. -/
theorem test_tryPush_accepted :
    after (exec (.tryPush 0x41#8) (holding tiny .p [])) (fun t => (t.head, memGet t.storage 0, t.results)) =
      some (1, some 0x41#8, [(.p, 0x0001#16)]) := by decide
/-- V7. -/
theorem test_tryPush_rejected :
    after (exec (.tryPush 0x44#8) (holding tiny .p [0x41#8, 0x42#8, 0x43#8]))
        (fun t => (memGet t.storage 3, t.results, t.history.drop 3)) =
      some (none, [(.p, 0x0000#16)], [.dataLoss 0x44#8]) := by decide
/-- V17. -/
theorem test_tryPush_legacy :
    after (exec (.tryPush 0x44#8) (holding tinyLegacy .p [0x41#8, 0x42#8, 0x43#8]))
        (fun t => (t.head, t.tail, memGet t.storage 3, t.results)) =
      some (0, 0, some 0x44#8, [(.p, 0x0001#16)]) := by decide
/-- V9. -/
theorem test_tryPop_some :
    after (exec .tryPop (holding tiny .q [0x41#8, 0x42#8, 0x43#8])) (fun t => (t.head, t.tail, t.results)) =
      some (3, 1, [(.q, 0x0141#16)]) := by decide
/-- V2. -/
theorem test_tryPop_none :
    after (exec .tryPop (holding tiny .q [])) (fun t => (t.head, t.tail, t.results, t.history)) =
      some (0, 0, [(.q, 0x0000#16)], [.popNone]) := by decide
/-- V23: Q has sampled an empty buffer for a pop, and a byte has been pushed since. -/
def v23 : State :=
  { holding tiny .q [0x48#8] with qOp := .tryPop, qPhase := .read, qHeadSeen := 0, schedule := [.micro .q] }
/-- V23, its fourth line. -/
theorem test_micro_of_a_stale_sample :
    after (step v23) (fun t => (t.tail, t.qOp, t.results, t.history.drop 1)) =
      some (0, .none, [(.q, 0x0000#16)], [.popNone]) := by decide
/-- V1. -/
theorem test_isEmpty_by_consumer :
    after (exec .isEmpty (holding tiny .q [])) (fun t => t.results) = some [(.q, 0x0001#16)] := by decide
/-- V16, V58. -/
theorem test_isEmpty_by_producer :
    after (exec .isEmpty (holding tiny .p [0x41#8])) (fun t => t.results) = some [(.p, 0x0000#16)] := by decide
/-- V30. -/
theorem test_rxIrq :
    after (exec .rxIrq (pending (holding tiny .p []) 0x48#8)) (fun t => (t.rxReady, t.head, t.history, t.results)) =
      some (false, 1, [.isrRead 0x48#8, .pushOk 0x48#8 0], []) := by decide
/-- V31. -/
theorem test_rxIrq_full :
    after (exec .rxIrq (pending (holding tiny .p [0x41#8, 0x42#8, 0x43#8]) 0x44#8))
        (fun t => (t.rxReady, t.head, t.history.drop 3)) =
      some (false, 3, [.isrRead 0x44#8, .dataLoss 0x44#8]) := by decide
/-- V30. -/
theorem test_rxArrive :
    after (exec (.rxArrive 0x48#8) (holding tiny .e [])) (fun t => (t.rxData, t.rxReady, t.history)) =
      some (0x48#8, true, [.arrive 0x48#8]) := by decide
/-- V33. -/
theorem test_rxArrive_overrun :
    reason (exec (.rxArrive 0x49#8) (pending (holding tiny .e []) 0x48#8)) = some .overrunExcluded := by decide
/-- V40. -/
theorem test_readByte :
    after (exec .readByte (holding tiny .q [0x48#8])) (fun t => (t.head, t.tail, t.results)) =
      some (1, 1, [(.q, 0x0048#16)]) := by decide
/-- V42, the first iteration. -/
theorem test_readByte_waits :
    after (exec .readByte (holding tiny .q [])) (fun t => (t.qOp, t.tail, t.results, t.history)) =
      some (.readByte, 0, [], [.popNone]) := by decide
/-- V41. -/
theorem test_dataAvailable :
    after (exec .dataAvailable (holding tiny .q [0x48#8])) (fun t => t.results) = some [(.q, 0x0001#16)] := by decide
theorem test_dataAvailable_false :
    after (exec .dataAvailable (holding tiny .q [])) (fun t => t.results) = some [(.q, 0x0000#16)] := by decide
/-- R148, on the byte `a` of V63. -/
theorem test_ciIter :
    after (exec .ciIter (holding tiny .q [0x61#8])) (fun t => (t.tail, currentLine t, t.txOut)) =
      some (1, [0x61#8], [0x61#8]) := by decide
/-- V64. -/
theorem test_ciStep_erase :
    after (exec (.ciStep 0x7F#8) (typed tiny [])) (fun t => (t.length, t.txOut)) =
      some (0, [0x08#8, 0x20#8, 0x08#8]) := by decide
/-- V60, its last byte. -/
theorem test_ciStep_help :
    after (exec (.ciStep 0x0D#8) (typed tiny [0x48#8, 0x45#8, 0x4C#8, 0x50#8])) (fun t => (t.length, t.txOut)) =
      some (0, [0x0D#8, 0x0A#8] ++ tiny.msgHelp ++ [0x3E#8, 0x20#8]) := by decide
/-- R208, from process start with a byte pending. -/
theorem test_init :
    after (exec .init (before tiny)) (fun t => (t.head, t.tail, t.rxReady, t.rxIe)) = some (0, 0, false, true) := by decide
/-- V56, V57, V59. -/
theorem test_refusals :
    reason (exec (.tryPush 0x41#8) (holding tiny .q [])) = some .wrongAgent ∧
    reason (exec .readByte (holding tiny .p [])) = some .wrongAgent ∧
    reason (exec .tryPop (holding tiny .e [])) = some .wrongAgent ∧
    reason (exec .init (holding tiny .s [])) = some .alreadyStarted ∧
    reason (exec .tryPop { before tiny with issuer := .q }) = some .beforeInit := by decide
/-- The signals of R94 and R95, at V9, V2 and V31. -/
theorem test_signals :
    popValid 0x0141#16 = true ∧ popData 0x0141#16 = 0x41#8 ∧ popValid 0x0000#16 = false ∧
    rxRd (enterHandler (holding tiny .p [])) = true ∧ emptyQ (holding tiny .q []) = true ∧
    pushDrop { holding tiny .p [0x41#8, 0x42#8, 0x43#8] with pPhase := .sample } = true ∧
    pushDrop { holding tiny .p [0x41#8] with pPhase := .sample } = false := by decide
/-- The host's way in: every operation runs as the first one after reset. -/
theorem test_withFetchWord_runs_first :
    [0x1041, 0x2000, 0x3000, 0x4000, 0x5041, 0x6000, 0x7000, 0x8000, 0x9041, 0xA000].all
      (fun w => (after (step (State.reset.withFetchWord 16 w)) fun t => t.life) == some .active) = true := by decide

/-! ## Witnesses: states that meet the hypotheses of each statement -/

theorem operational {c : Config} {a : Agent} {l : List Byte} (hw : c.wf = true) (hi : indicesLegal (holding c a l) = true) :
    Operational (holding c a l) := ⟨hw, hi, rfl⟩

theorem readyP {c : Config} {l : List Byte} (hw : c.wf = true) (hi : indicesLegal (holding c .p l) = true) :
    ReadyP (holding c .p l) := ⟨operational hw hi, rfl, rfl⟩

theorem readyQ {c : Config} {l : List Byte} (hw : c.wf = true) (hi : indicesLegal (holding c .q l) = true) :
    ReadyQ (holding c .q l) := ⟨operational hw hi, rfl, rfl, rfl, .inr rfl⟩

theorem readyQ_typed {c : Config} {l : List Byte} (hw : c.wf = true) (hi : indicesLegal (typed c l) = true) :
    ReadyQ (typed c l) := ⟨⟨hw, hi, rfl⟩, rfl, rfl, rfl, .inr rfl⟩

theorem readyS (c : Config) (hw : c.wf = true) (hi : indicesLegal (before c) = true) : ReadyS (before c) :=
  ⟨hw, hi, rfl, rfl, rfl, rfl, rfl⟩

theorem holding_legal (a : Agent) (l : List Byte) (hl : l.length < 4) : LegalState (holding tiny a l) := by
  have hstore : memWf (holding tiny a l).storage = true ∧ memBelow 4 (holding tiny a l).storage = true := by
    rcases l with _ | ⟨b0, _ | ⟨b1, _ | ⟨b2, _ | ⟨b3, l⟩⟩⟩⟩
    case cons.cons.cons.cons =>
      simp only [List.length_cons] at hl
      omega
    all_goals exact ⟨rfl, rfl⟩
  constructor
  · rfl
  · exact hl
  · exact (by decide : 0 < 4)
  · exact (by decide : 0 < 32)
  · exact hstore
  · exact ⟨rfl, rfl⟩
  · intro i hi
    exact absurd hi (Nat.not_lt_zero i)
  · intro c hc
    exact absurd hc List.not_mem_nil
  · exact fun _ => ⟨rfl, rfl⟩
  · intro h
    cases h
  · intro h
    cases h
  · intro h
    cases h
  · intro h
    cases h
  · exact fun _ => rfl

theorem holding_fifo (a : Agent) (l : List Byte) (hl : l.length < 4) : FifoState (holding tiny a l) := by
  have hbytes : pushedBytes (holding tiny a l).history = l ∧ poppedBytes (holding tiny a l).history = [] ∧
      ∀ k, k < l.length → memGet (holding tiny a l).storage (k % 4) = l[k]? := by
    rcases l with _ | ⟨b0, _ | ⟨b1, _ | ⟨b2, _ | ⟨b3, l⟩⟩⟩⟩
    case cons.cons.cons.cons =>
      simp only [List.length_cons] at hl
      omega
    all_goals
      refine ⟨rfl, rfl, fun k hk => ?_⟩
      simp only [List.length_cons, List.length_nil] at hk
      interval_cases k <;> rfl
  obtain ⟨h1, h2, h3⟩ := hbytes
  constructor
  · exact (Nat.mod_eq_of_lt hl).symm
  · rfl
  · refine ⟨Nat.le_refl _, Nat.le_refl _, Nat.zero_le _, ?_⟩
    show l.length + 1 ≤ 0 + 4
    omega
  · rw [h1]
    rfl
  · rw [h2]
    rfl
  · intro k _ hk
    rw [h1]
    exact h3 k hk
  · rintro (h | h) <;> cases h
  all_goals
    intro h
    cases h

/-! ### Reset and refusals -/

theorem witness_InitEmptiesAndEnables : ReadyS (before tiny) := readyS tiny rfl rfl

theorem witness_InitComesFirstAndOnce :
    ((before tiny).cfg.wf = true ∧ indicesLegal { before tiny with issuer := .q } = true ∧
      Instr.tryPop.issuableBy .q = true ∧ (before tiny).life = .startup ∧ Instr.tryPop ≠ .init) ∧
    (tiny.wf = true ∧ indicesLegal (holding tiny .s []) = true ∧ Instr.init.issuableBy .s = true ∧
      (holding tiny .s []).life = .active) := by decide

theorem witness_ProcessStartIsLegalAndEmpty : tiny.wf = true ∧ Config.wf { tiny with C := 2, N := 1 } = true := by decide

theorem witness_OperationWithoutMeaningIsRefused :
    Config.C { tiny with C := 1 } < 2 ∧ Config.N { tiny with N := 0 } < 1 ∧
    (tiny.wf = true ∧ indicesLegal (holding tiny (.further 7) []) = true ∧
      (holding tiny (.further 7) []).issuer = .further 7) ∧
    (indicesLegal (holding tiny .q []) = true ∧ (holding tiny .q []).issuer = .q ∧
      Instr.rxIrq.issuableBy .q = false) := by decide

/-- A state in which P is between two micro-steps of an operation of its own. -/
def pushing (a : Agent) (p : PPhase) : State := { holding tiny a [0x41#8] with pPhase := p }

theorem witness_BusyAgentTakesNoNewOperation :
    (Operational (pushing .p .write) ∧ Instr.rxIrq.issuableBy .p = true ∧ (pushing .p .write).pPhase ≠ .idle) ∧
    (Operational (pushing .q .write) ∧ Instr.tryPop.issuableBy .q = true ∧ (pushing .q .write).cfg.sched = .preempt ∧
      (pushing .q .write).pPhase ≠ .idle) ∧
    (Operational (waiting (holding tiny .q [])) ∧ (waiting (holding tiny .q [])).pPhase = .idle ∧
      (waiting (holding tiny .q [])).qOp ≠ .none) :=
  ⟨⟨⟨rfl, rfl, rfl⟩, rfl, by decide⟩, ⟨⟨rfl, rfl, rfl⟩, rfl, rfl, by decide⟩, ⟨rfl, rfl, rfl⟩, rfl, by decide⟩

theorem witness_HandlerNeverRunsWithoutRequest :
    ReadyP (holding tiny .p []) ∧ dispatchDue (holding tiny .p []) = false := ⟨readyP rfl rfl, rfl⟩

/-! ### RingBuffer -/

/-- The three clauses of `next`, at the boundary, and a step from either side of the end of the startup. -/
theorem witness_PointersAdvanceByNextOnly :
    (2 < tiny.C ∧ 2 + 1 < tiny.C) ∧ (3 < tiny.C ∧ 3 + 1 = tiny.C) ∧ (∃ t, step (before tiny) = .next t) ∧
    (∃ t, step { holding tiny .p [0x41#8] with schedule := [.issue .p 0x1042#16] } = .next t) :=
  ⟨by decide, by decide, ⟨_, rfl⟩, ⟨_, rfl⟩⟩

/-- At both ends: full at the last index, and empty. -/
theorem witness_LiveCountTellsEmptyAndFull :
    (tiny.wf = true ∧ (holding tiny .p [0x41#8, 0x42#8, 0x43#8]).head = 3 ∧ 3 < tiny.C ∧
      (holding tiny .p [0x41#8, 0x42#8, 0x43#8]).tail < tiny.C) ∧
    (holding tiny .p []).head < tiny.C ∧ (holding tiny .p []).tail < tiny.C := by decide

theorem witness_TryPushStoresAndAdvances :
    ReadyP (holding tiny .p [0x41#8, 0x42#8]) ∧ tiny.legacyOverwrite = false ∧
    nextIndex tiny 2 ≠ (readTailFromP (holding tiny .p [0x41#8, 0x42#8])).1 :=
  ⟨readyP rfl rfl, rfl, by decide⟩

theorem witness_TryPushRejectsWhenFull :
    ReadyP (holding tiny .p [0x41#8, 0x42#8, 0x43#8]) ∧ tiny.legacyOverwrite = false ∧
    nextIndex tiny 3 = (readTailFromP (holding tiny .p [0x41#8, 0x42#8, 0x43#8])).1 :=
  ⟨readyP rfl rfl, rfl, by decide⟩

theorem witness_LegacyPushNeverLooks :
    ReadyP (holding tinyLegacy .p [0x41#8, 0x42#8, 0x43#8]) ∧ tinyLegacy.legacyOverwrite = true ∧
    isFullNow (holding tinyLegacy .p [0x41#8, 0x42#8, 0x43#8]) = true :=
  ⟨readyP rfl rfl, rfl, by decide⟩

theorem witness_TryPopReturnsTheByteAtTailOrNone :
    (ReadyQ (holding tiny .q [0x41#8]) ∧ (readHeadFromQ (holding tiny .q [0x41#8])).1 ≠ (holding tiny .q [0x41#8]).tail) ∧
    (ReadyQ (holding tiny .q []) ∧ (readHeadFromQ (holding tiny .q [])).1 = (holding tiny .q []).tail) :=
  ⟨⟨readyQ rfl rfl, by decide⟩, readyQ rfl rfl, by decide⟩

theorem witness_IsEmptyComparesOwnPointerWithSample :
    ReadyQ (holding tiny .q []) ∧ ReadyP (holding tiny .p [0x41#8, 0x42#8, 0x43#8]) := ⟨readyQ rfl rfl, readyP rfl rfl⟩

theorem witness_IsEmptyAnswersAreReliable :
    (∃ t, LegalState (holding tiny .q [0x41#8]) ∧ FifoState (holding tiny .q [0x41#8]) ∧
      exec .isEmpty (holding tiny .q [0x41#8]) = .next t ∧ t.results = [(.q, 0x0000#16)]) ∧
    (∃ t, LegalState (holding tiny .p []) ∧ FifoState (holding tiny .p []) ∧
      exec .isEmpty (holding tiny .p []) = .next t ∧ t.results = [(.p, 0x0001#16)]) :=
  ⟨⟨_, holding_legal _ _ (by decide), holding_fifo _ _ (by decide), rfl, rfl⟩,
    ⟨_, holding_legal _ _ (by decide), holding_fifo _ _ (by decide), rfl, rfl⟩⟩

theorem witness_PushIsNeverAcceptedWhenFull :
    (∃ t, LegalState (holding tiny .p [0x41#8, 0x42#8]) ∧ FifoState (holding tiny .p [0x41#8, 0x42#8]) ∧
      exec (.tryPush 0x43#8) (holding tiny .p [0x41#8, 0x42#8]) = .next t ∧
      t.history = (holding tiny .p [0x41#8, 0x42#8]).history ++ [.pushOk 0x43#8 2]) ∧
    (∃ t, LegalState (holding tiny .p [0x41#8, 0x42#8, 0x43#8]) ∧ FifoState (holding tiny .p [0x41#8, 0x42#8, 0x43#8]) ∧
      tiny.vis = .fresh ∧ exec (.tryPush 0x44#8) (holding tiny .p [0x41#8, 0x42#8, 0x43#8]) = .next t ∧
      t.history = (holding tiny .p [0x41#8, 0x42#8, 0x43#8]).history ++ [.dataLoss 0x44#8]) :=
  ⟨⟨_, holding_legal _ _ (by decide), holding_fifo _ _ (by decide), rfl, rfl⟩,
    ⟨_, holding_legal _ _ (by decide), holding_fifo _ _ (by decide), rfl, rfl, rfl⟩⟩

/-- The five values of V3 to V8, and the least buffer. -/
theorem witness_CapacityTestKeepsTheFirstValues :
    (tiny.wf = true ∧ tiny.legacyOverwrite = false ∧
      [0x41#8, 0x42#8, 0x43#8, 0x44#8, 0x45#8].length = tiny.C + 1) ∧
    (Config.wf { tiny with C := 2 } = true ∧ [0x01#8, 0x02#8, 0x03#8].length = 2 + 1) := by decide

/-! ### Receiver and event source -/

theorem readyE {c : Config} {l : List Byte} (hw : c.wf = true) (hi : indicesLegal (holding c .e l) = true) :
    ReadyE (holding c .e l) := ⟨operational hw hi, rfl⟩

theorem witness_ArrivalSetsDataAndFlag : ReadyE (holding tiny .e []) ∧ (holding tiny .e []).rxReady = false :=
  ⟨readyE rfl rfl, rfl⟩

theorem witness_OverrunIsRefusedOrOpen :
    (ReadyE (pending (holding tiny .e []) 0x41#8) ∧ (pending (holding tiny .e []) 0x41#8).rxReady = true ∧
      tiny.rxOverrun = .excluded) ∧
    (ReadyE (pending (holding tinyOpen .e []) 0x41#8) ∧ (pending (holding tinyOpen .e []) 0x41#8).rxReady = true ∧
      tinyOpen.rxOverrun = .openBehaviour) :=
  ⟨⟨⟨⟨rfl, rfl, rfl⟩, rfl⟩, rfl, rfl⟩, ⟨⟨rfl, rfl, rfl⟩, rfl⟩, rfl, rfl⟩

theorem readyP_pending {c : Config} {l : List Byte} (b : Byte) (hw : c.wf = true)
    (hi : indicesLegal (holding c .p l) = true) : ReadyP (pending (holding c .p l) b) := ⟨⟨hw, hi, rfl⟩, rfl, rfl⟩

theorem witness_HandlerPushesThePendingByte :
    ReadyP (pending (holding tiny .p [0x41#8]) 0x42#8) ∧ tiny.legacyOverwrite = false ∧
    (pending (holding tiny .p [0x41#8]) 0x42#8).rxReady = true ∧
    (pending (holding tiny .p [0x41#8]) 0x42#8).rxIe = true ∧
    nextIndex tiny 1 ≠ (readTailFromP (pending (holding tiny .p [0x41#8]) 0x42#8)).1 :=
  ⟨readyP_pending _ rfl rfl, rfl, rfl, rfl, by decide⟩

theorem witness_HandlerReadsEvenWhenFull :
    (ReadyP (pending (holding tiny .p [0x41#8, 0x42#8, 0x43#8]) 0x44#8) ∧
      (pending (holding tiny .p [0x41#8, 0x42#8, 0x43#8]) 0x44#8).rxIe = true ∧ tiny.legacyOverwrite = false ∧
      nextIndex tiny 3 = (readTailFromP (pending (holding tiny .p [0x41#8, 0x42#8, 0x43#8]) 0x44#8)).1) ∧
    (ReadyP (pending (holding tinyLegacy .p [0x41#8, 0x42#8, 0x43#8]) 0x44#8) ∧ tinyLegacy.legacyOverwrite = true) :=
  ⟨⟨readyP_pending _ rfl rfl, rfl, rfl, by decide⟩, readyP_pending _ rfl rfl, rfl⟩

theorem witness_HandlerNeverBlocksOrTouchesTail :
    ReadyP (pending (holding tiny .p [0x41#8]) 0x42#8) ∧
    dispatchDue (pending (holding tiny .p [0x41#8]) 0x42#8) = true := ⟨readyP_pending _ rfl rfl, rfl⟩

theorem witness_HandlerEntryAndReturnChangeOnlyPhase :
    (ReadyP (pending (holding tiny .p []) 0x41#8) ∧ (pending (holding tiny .p []) 0x41#8).rxReady = true ∧
      (pending (holding tiny .p []) 0x41#8).rxIe = true) ∧
    (∃ s : State, s.pPhase = .ret ∧ s.pIsr = true) :=
  ⟨⟨readyP_pending _ rfl rfl, rfl, rfl⟩, { pushing .p .ret with pIsr := true }, rfl, rfl⟩

theorem witness_ReceiverFollowsItsTransitionTable :
    (pushing .p .idle).pPhase = .idle ∧ (pushing .p .fetch).pPhase = .fetch ∧
    ((pushing .p .sample).pPhase = .sample ∧ (pushing .p .sample).cfg.legacyOverwrite = false) ∧
    (({ holding tinyLegacy .p [] with pPhase := .sample } : State).pPhase = .sample ∧ tinyLegacy.legacyOverwrite = true) ∧
    (pushing .p .write).pPhase = .write ∧ (pushing .p .publish).pPhase = .publish ∧ (pushing .p .ret).pPhase = .ret := by
  decide

theorem witness_InterruptIsNeverMasked :
    ∃ t, step { holding tiny .e [] with schedule := [.issue .e 0x5041#16] } = .next t ∧
      (holding tiny .e []).life = .active ∧ (holding tiny .e []).rxIe = true ∧ t.rxReady = true ∧ t.pPhase = .idle :=
  ⟨_, rfl, rfl, rfl, rfl, rfl⟩

/-! ### LineReader -/

theorem witness_ReadByteReturnsOrPolls :
    (ReadyQ (holding tiny .q [0x48#8]) ∧ (readHeadFromQ (holding tiny .q [0x48#8])).1 ≠ (holding tiny .q [0x48#8]).tail) ∧
    (ReadyQ (holding tiny .q []) ∧ (readHeadFromQ (holding tiny .q [])).1 = (holding tiny .q []).tail) :=
  ⟨⟨readyQ rfl rfl, by decide⟩, readyQ rfl rfl, by decide⟩

/-- A state that waits is legal where the state it waits in is. -/
theorem waiting_legal {s : State} (h : LegalState s) (hl : s.life = .active) (hw : s.qWork = []) :
    LegalState (waiting s) where
  params := h.params
  headInRange := h.headInRange
  tailInRange := h.tailInRange
  lengthInRange := h.lengthInRange
  storageForm := h.storageForm
  charsForm := h.charsForm
  lineWritten := h.lineWritten
  appendFits := h.appendFits
  qAtRest := fun h => nomatch h
  qSampling := fun _ => ⟨by simp [waiting, samplingOps], hw⟩
  qReading := fun h => nomatch h
  qPublishing := fun h => nomatch h
  beforeInit := fun h => by rw [show (waiting s).life = s.life from rfl, hl] at h; cases h
  enabledAfterInit := h.enabledAfterInit

/-- The FIFO does not depend on what Q waits for. -/
theorem waiting_fifo {s : State} (h : FifoState s) : FifoState (waiting s) where
  headNumber := h.headNumber
  tailNumber := h.tailNumber
  chain := h.chain
  pushCount := h.pushCount
  order := h.order
  liveSlots := h.liveSlots
  roomToWrite := h.roomToWrite
  slotWritten := h.slotWritten
  sampleKept := fun h => nomatch h
  byteToRead := fun h => nomatch h
  byteRead := fun h => nomatch h

/-- Q has sampled an empty buffer in the READ_BYTE it waits in. -/
def polled (s : State) : State := { waiting s with qPhase := .read }

/-- The schedule of a state plays no part in its legality. -/
theorem scheduled_legal {s : State} (h : LegalState s) (ts : List Turn) : LegalState { s with schedule := ts } :=
  ⟨h.1, h.2, h.3, h.4, h.5, h.6, h.7, h.8, h.9, h.10, h.11, h.12, h.13, h.14⟩

/-- Nor in the FIFO. -/
theorem scheduled_fifo {s : State} (h : FifoState s) (ts : List Turn) : FifoState { s with schedule := ts } :=
  ⟨h.1, h.2, h.3, h.4, h.5, h.6, h.7, h.8, h.9, h.10, h.11⟩

theorem polled_legal : LegalState (polled (holding tiny .q [])) := by
  have h := waiting_legal (holding_legal .q [] (by decide)) rfl rfl
  exact ⟨h.1, h.2, h.3, h.4, h.5, h.6, h.7, h.8, (fun hn => nomatch hn), (fun hn => nomatch hn),
    fun _ => h.10 rfl, (fun hn => nomatch hn), h.13, h.14⟩

theorem polled_fifo : FifoState (polled (holding tiny .q [])) := by
  have h := waiting_fifo (holding_fifo .q [] (by decide))
  exact ⟨h.1, h.2, h.3, h.4, h.5, h.6, h.7, h.8, fun _ => rfl, (fun hn => nomatch hn), (fun hn => nomatch hn)⟩

theorem witness_QuiescentPollChangesNothing (line : Turn) :
    (LegalState { waiting (holding tiny .q []) with schedule := [line] } ∧
      FifoState { waiting (holding tiny .q []) with schedule := [line] } ∧
      Quiescent { waiting (holding tiny .q []) with schedule := [line] }) ∧
    (LegalState { polled (holding tiny .q []) with schedule := [line] } ∧
      FifoState { polled (holding tiny .q []) with schedule := [line] } ∧
      Quiescent { polled (holding tiny .q []) with schedule := [line] }) :=
  ⟨⟨scheduled_legal (waiting_legal (holding_legal .q [] (by decide)) rfl rfl) _,
    scheduled_fifo (waiting_fifo (holding_fifo .q [] (by decide))) _, rfl, rfl, rfl, .inl rfl, .inl rfl⟩,
    scheduled_legal polled_legal _, scheduled_fifo polled_fifo _, rfl, rfl, rfl, .inl rfl, .inr ⟨rfl, rfl⟩⟩

theorem witness_DataAvailableIsNotEmpty : ReadyQ (holding tiny .q [0x48#8]) := readyQ rfl rfl

theorem witness_ReadByteReturnsAfterDataAvailable :
    ∃ t, LegalState (holding tiny .q [0x48#8]) ∧ FifoState (holding tiny .q [0x48#8]) ∧ ReadyQ (holding tiny .q [0x48#8]) ∧
      exec .dataAvailable (holding tiny .q [0x48#8]) = .next t ∧ t.results = [(.q, 0x0001#16)] :=
  ⟨_, holding_legal _ _ (by decide), holding_fifo _ _ (by decide), readyQ rfl rfl, rfl, rfl⟩

/-! ### CommandInterpreter -/

theorem witness_LookupIsExactEquality : (Text.ledOn, Command.ledOn) ∈ commandTable := by decide

/-- The last byte that fits a line. -/
theorem witness_OrdinaryByteIsAppendedAndEchoed :
    ReadyQ (typed tinyLine []) ∧ ordinary 0x61#8 = true ∧ (typed tinyLine []).length + 1 < tinyLine.N :=
  ⟨readyQ_typed rfl rfl, by decide, by decide⟩

/-- V73: the first byte that does not. -/
theorem witness_ByteBeyondTheLineIsDropped :
    ReadyQ (typed tinyLine [0x61#8]) ∧ ordinary 0x62#8 = true ∧ (typed tinyLine [0x61#8]).length + 1 = tinyLine.N :=
  ⟨readyQ_typed rfl rfl, by decide, by decide⟩

theorem witness_EraseKeyShortensTheLine :
    (ReadyQ (typed tiny []) ∧ 0x7F#8 = Text.del) ∧ (ReadyQ (typed tiny [0x61#8]) ∧ 0x08#8 = Text.backspace) :=
  ⟨⟨readyQ_typed rfl rfl, rfl⟩, readyQ_typed rfl rfl, rfl⟩

theorem witness_EmptyLineOnlyPrompts : ReadyQ (typed tiny []) ∧ (typed tiny []).length = 0 := ⟨readyQ_typed rfl rfl, rfl⟩

theorem witness_UnknownCommandIsReported :
    ReadyQ (typed tiny [0x78#8, 0x79#8, 0x7A#8]) ∧ (typed tiny [0x78#8, 0x79#8, 0x7A#8]).length > 0 ∧
    lookupCommand (currentLine (typed tiny [0x78#8, 0x79#8, 0x7A#8])) = none :=
  ⟨readyQ_typed rfl rfl, by decide, by decide⟩

theorem witness_LedCommandsSetThePin :
    (ReadyQ (typed tiny Text.ledOn) ∧ currentLine (typed tiny Text.ledOn) = Text.ledOn) ∧
    (ReadyQ (typed tiny Text.ledOff) ∧ currentLine (typed tiny Text.ledOff) = Text.ledOff) :=
  ⟨⟨readyQ_typed rfl rfl, by decide⟩, readyQ_typed rfl rfl, by decide⟩

theorem witness_HelpAndStatusOnlyReport :
    (ReadyQ (typed tiny Text.help) ∧ currentLine (typed tiny Text.help) = Text.help) ∧
    (ReadyQ (typed tiny Text.status) ∧ currentLine (typed tiny Text.status) = Text.status) :=
  ⟨⟨readyQ_typed rfl rfl, by decide⟩, readyQ_typed rfl rfl, by decide⟩

theorem witness_TypedLineIsEchoedAndKept :
    ReadyQ (typed tinyLine []) ∧ (typed tinyLine []).length = 0 ∧ [0x61#8].length < tinyLine.N ∧
    ∀ c ∈ [0x61#8], ordinary c = true :=
  ⟨readyQ_typed rfl rfl, rfl, by decide, by decide⟩

theorem witness_ToggleTwiceRestoresThePin :
    ReadyQ (typed { tiny with N := 7 } []) ∧ (typed { tiny with N := 7 } []).length = 0 ∧
    7 ≤ (typed { tiny with N := 7 } []).cfg.N :=
  ⟨readyQ_typed rfl rfl, rfl, by decide⟩

theorem witness_IterationPopsAndStepsTheTable :
    (ReadyQ (holding tiny .q [0x0D#8]) ∧ (readHeadFromQ (holding tiny .q [0x0D#8])).1 ≠ (holding tiny .q [0x0D#8]).tail) ∧
    (ReadyQ (holding tiny .q []) ∧ (readHeadFromQ (holding tiny .q [])).1 = (holding tiny .q []).tail) :=
  ⟨⟨readyQ rfl rfl, by decide⟩, readyQ rfl rfl, by decide⟩

theorem witness_InterpreterStartsOnceWithBanner :
    (ReadyQ (holding tiny .q []) ∧ (holding tiny .q []).interpStarted = false) ∧
    (∃ s : State, ReadyQ s ∧ s.interpStarted = true) :=
  ⟨⟨readyQ rfl rfl, rfl⟩, { holding tiny .q [] with interpStarted := true }, ⟨⟨rfl, rfl, rfl⟩, rfl, rfl, rfl, .inr rfl⟩, rfl⟩

/-! ### Frames -/

theorem witness_ProducerFrame :
    (∃ t, (holding tiny .p []).issuer = .p ∧ exec (.tryPush 0x41#8) (holding tiny .p []) = .next t) ∧
    (∃ t, exec .rxIrq (pending (holding tiny .p [0x41#8, 0x42#8, 0x43#8]) 0x44#8) = .next t ∧ t.pushes = 3) :=
  ⟨⟨_, rfl, rfl⟩, _, rfl, rfl⟩

theorem witness_ConsumerFrame :
    (∃ t, (holding tiny .q [0x41#8]).issuer = .q ∧ exec .tryPop (holding tiny .q [0x41#8]) = .next t) ∧
    (∃ t, exec .ciIter (holding tiny .q [0x41#8]) = .next t) := ⟨⟨_, rfl, rfl⟩, _, rfl⟩

theorem witness_InterpreterFrame :
    (∃ t, exec (.ciStep 0x61#8) (typed tiny []) = .next t ∧ (0x61#8 : Byte) ≠ Text.cr) ∧
    (∃ t, exec (.ciStep 0x0D#8) (typed tiny [0x61#8]) = .next t ∧ ordinary 0x0D#8 = false) ∧
    (∃ t, exec (.ciStep 0x62#8) (typed tinyLine [0x61#8]) = .next t ∧ tinyLine.N ≤ (typed tinyLine [0x61#8]).length + 1) :=
  ⟨⟨_, rfl, by decide⟩, ⟨_, rfl, by decide⟩, _, rfl, by decide⟩

/-- The same for CI_ITER: a byte that is appended, one that is not, one that does not fit, and none. -/
theorem witness_InterpreterFrame_iteration :
    (∃ t, exec .ciIter (holding tiny .q [0x61#8]) = .next t ∧
      slotByte (holding tiny .q [0x61#8]) (holding tiny .q [0x61#8]).tail ≠ Text.cr) ∧
    (∃ t, exec .ciIter (holding tiny .q [0x0D#8]) = .next t ∧
      ordinary (slotByte (holding tiny .q [0x0D#8]) (holding tiny .q [0x0D#8]).tail) = false) ∧
    (∃ t, exec .ciIter (holding { tiny with N := 1 } .q [0x61#8]) = .next t ∧
      Config.N { tiny with N := 1 } ≤ (holding { tiny with N := 1 } .q [0x61#8]).length + 1) ∧
    (∃ t, exec .ciIter (holding tiny .q []) = .next t ∧ t.pops = (holding tiny .q []).pops) :=
  ⟨⟨_, rfl, by decide⟩, ⟨_, rfl, by decide⟩, ⟨_, rfl, by decide⟩, _, rfl, rfl⟩

/-! ### Steps, schedules and invariants -/

theorem witness_StepRunsTheIssuedOperation :
    decode 0x2000#16 = .ok .tryPop ∧ decode 0x2001#16 = .error .operandNotZero ∧
    ({ holding tiny .q [] with schedule := [.issue .q 0x2000#16] } : State).schedule = .issue .q 0x2000#16 :: [] ∧
    (holding tiny .q []).life = .active := ⟨rfl, rfl, rfl, rfl⟩

theorem witness_StepRunsOneMicroStep :
    (∃ s : State, s.cfg.wf = true ∧ indicesLegal s = true ∧ s.schedule = [.micro .p] ∧ s.pPhase ≠ .idle) ∧
    (∃ s : State, s.cfg.wf = true ∧ indicesLegal s = true ∧ s.schedule = [.micro .q] ∧ s.pPhase = .idle ∧ s.qOp ≠ .none) :=
  ⟨⟨{ pushing .p .write with schedule := [.micro .p] }, rfl, rfl, rfl, by decide⟩,
    { waiting (holding tiny .q []) with schedule := [.micro .q] }, rfl, rfl, rfl, rfl, by decide⟩

theorem witness_WholeOperationIsItsMicroSteps :
    (∃ t, exec .tryPop (holding tiny .q [0x41#8]) = .next t) ∧ (∃ t, exec (.tryPush 0x41#8) (holding tiny .p []) = .next t) :=
  ⟨⟨_, rfl⟩, _, rfl⟩

theorem witness_QIsFrozenInsideTheHandler :
    ∃ t, step { pushing .p .write with schedule := [.micro .p] } = .next t ∧ tiny.sched = .preempt ∧
      (pushing .p .write).pPhase ≠ .idle := ⟨_, rfl, rfl, by decide⟩

theorem witness_EveryPreemptStepIsAFreeStep :
    ∃ t, ({ pushing .p .write with schedule := [.micro .p] } : State).schedule ≠ [] ∧
      step { pushing .p .write with schedule := [.micro .p] } = .next t := ⟨_, by decide, rfl⟩

theorem witness_MachineAloneIsNeverStuck :
    LegalState (holding tiny .q [0x41#8]) ∧ (holding tiny .q [0x41#8]).schedule = [] :=
  ⟨holding_legal _ _ (by decide), rfl⟩

theorem witness_ParametersNeverChange :
    (∃ t, step (before tiny) = .next t ∧ (before tiny).life = .startup ∧ t.life = .active) ∧
    (∃ t, step { holding tiny .q [] with schedule := [.wait] } = .next t ∧ (holding tiny .q []).life = .active) :=
  ⟨⟨_, rfl, rfl, rfl⟩, _, rfl, rfl⟩

/-- One legal state whose next step is a pop, for the statements about every step. -/
theorem popping_step :
    ∃ s t : State, LegalState s ∧ FifoState s ∧ s.cfg.legacyOverwrite = false ∧ s.life = .active ∧
      step s = .next t ∧ t.pops = s.pops + 1 := by
  have h1 := holding_legal .q [0x41#8] (by decide)
  have h2 := holding_fifo .q [0x41#8] (by decide)
  exact ⟨{ holding tiny .q [0x41#8] with schedule := [.issue .q 0x2000#16] }, _, scheduled_legal h1 _,
    scheduled_fifo h2 _, rfl, rfl, rfl, rfl⟩

theorem witness_EveryStepKeepsTheStateLegal : ∃ s t : State, LegalState s ∧ step s = .next t := by
  obtain ⟨s, t, h, -, -, -, hs, -⟩ := popping_step
  exact ⟨s, t, h, hs⟩

theorem witness_EveryStepKeepsTheFifo :
    ∃ s t : State, LegalState s ∧ FifoState s ∧ s.cfg.legacyOverwrite = false ∧ step s = .next t := by
  obtain ⟨s, t, h, hf, hl, -, hs, -⟩ := popping_step
  exact ⟨s, t, h, hf, hl, hs⟩

theorem witness_BytesLeaveInTheOrderTheyEntered :
    ∃ (n : Nat) (s t : State), 0 < n ∧ LegalState s ∧ FifoState s ∧ s.cfg.legacyOverwrite = false ∧
      Host.Core.run Sys2Proof.core n s = .next t ∧ t.pops = s.pops + 1 := by
  obtain ⟨s, t, h, hf, hl, -, hs, hp⟩ := popping_step
  refine ⟨1, s, t, Nat.one_pos, h, hf, hl, ?_, hp⟩
  have hc : Sys2Proof.core.step s = .next t := hs
  simp only [Host.Core.run, hc]

theorem witness_StaleReadStaysInItsWindow :
    (0 ≤ 1 ∧ 1 ≤ 2) ∧ (holding tinyMonotone .q []).cfg.vis = .monotone ∧ (holding tiny .q []).cfg.vis = .fresh := by decide

theorem witness_SamplesNeverGoBackwards :
    ∃ s t : State, LegalState s ∧ FifoState s ∧ s.cfg.legacyOverwrite = false ∧ s.life = .active ∧ step s = .next t := by
  obtain ⟨s, t, h, hf, hl, ha, hs, -⟩ := popping_step
  exact ⟨s, t, h, hf, hl, ha, hs⟩

/-! ### A fair run of the whole system, with its quiescent state -/

/-- Q waits while a byte is in the buffer. -/
def waitingWithByte : State := waiting (holding tiny .q [0x48#8])

/-- Q has popped it, and polls in the main loop. -/
def spinning : State :=
  stateAfter (takeTurn (.issue .q 0x8000#16) (stateAfter (takeTurn (.resume .q) waitingWithByte) waitingWithByte))
    waitingWithByte

/-- The schedule: Q runs on, begins the next iteration, and polls forever. -/
def fairTurns (n : Nat) : Turn :=
  match n with
  | 1 => .issue .q 0x8000#16
  | _ => .resume .q

/-- The run under that schedule. -/
def fairRun (n : Nat) : State :=
  match n with
  | 0 => waitingWithByte
  | 1 => stateAfter (takeTurn (.resume .q) waitingWithByte) waitingWithByte
  | k + 2 => { spinning with history := spinning.history ++ List.replicate k .popNone }

theorem fairRun_isRun : IsRun fairTurns fairRun := by
  intro n
  match n with
  | 0 => rfl
  | 1 => rfl
  | k + 2 =>
    simp only [fairRun, List.replicate_succ', ← List.append_assoc]
    rfl

theorem fairRun_seenHead (n : Nat) : (fairRun n).pushes = 1 ∧ (fairRun (n + 1)).seenHeadN = 1 := by
  match n with
  | 0 => exact ⟨rfl, rfl⟩
  | 1 => exact ⟨rfl, rfl⟩
  | _ + 2 => exact ⟨rfl, rfl⟩

theorem fairRun_producerIdle (n : Nat) : dispatchDue (fairRun n) = false ∧ pBusy (fairRun n) = false := by
  match n with
  | 0 => exact ⟨rfl, rfl⟩
  | 1 => exact ⟨rfl, rfl⟩
  | _ + 2 => exact ⟨rfl, rfl⟩

theorem fairTurns_ofQ (n : Nat) :
    isStepOfQ (fairTurns n) = true ∧ isArrival (fairTurns n) = false ∧
    (∀ i, issuedBy (fairTurns n) = some i → i = .ciIter) ∧ ∀ s, samplesTail (fairTurns n) s = false := by
  match n with
  | 0 => exact ⟨rfl, rfl, (fun _ h => nomatch h), fun _ => rfl⟩
  | 1 => exact ⟨rfl, rfl, fun _ h => (Option.some.inj h).symm, fun _ => rfl⟩
  | _ + 2 => exact ⟨rfl, rfl, (fun _ h => nomatch h), fun _ => rfl⟩

theorem fairRun_fair : Fair fairTurns fairRun := by
  refine ⟨⟨fun k n hk _ => ⟨n + 1, Nat.le_succ n, ?_⟩, fun k n _ hs => ?_⟩, fun n hd => ?_, fun n hb => ?_,
    fun n _ => ⟨n, Nat.le_refl n, (fairTurns_ofQ n).1⟩⟩
  · rw [(fairRun_seenHead n).2]
    exact (fairRun_seenHead n).1 ▸ hk n (Nat.le_refl n)
  · obtain ⟨j, -, h⟩ := hs 0
    rw [(fairTurns_ofQ j).2.2.2] at h
    cases h
  · rw [(fairRun_producerIdle n).1] at hd
    cases hd
  · rw [(fairRun_producerIdle n).2] at hb
    cases hb

theorem fairTurns_finite : FinitelyManyArrivals fairTurns := ⟨0, fun m _ => (fairTurns_ofQ m).2.1⟩

theorem witness_WaitingReadByteReturnsTheOldestByte :
    IsRun fairTurns fairRun ∧ LegalState (fairRun 0) ∧ FifoState (fairRun 0) ∧
    (fairRun 0).cfg.legacyOverwrite = false ∧ Fair fairTurns fairRun ∧ FinitelyManyArrivals fairTurns ∧
    (fairRun 0).qOp = .readByte ∧ (fairRun 0).pops < (fairRun 0).pushes :=
  ⟨fairRun_isRun, waiting_legal (holding_legal .q [0x48#8] (by decide)) rfl rfl,
    waiting_fifo (holding_fifo .q [0x48#8] (by decide)), rfl, fairRun_fair, fairTurns_finite, rfl, by decide⟩

theorem fairTurns_system : IsSystemSchedule fairTurns := fun n i h => .inr (.inl ((fairTurns_ofQ n).2.2.1 i h))

/-- R213: this run is one of the whole system, its input is finite, and at line 2 it is quiescent. -/
theorem fairRun_quiescent : QuiescentAt fairTurns fairRun 2 :=
  ⟨⟨rfl, rfl, rfl, .inr rfl, .inl rfl⟩, fun m _ => (fairTurns_ofQ m).2.1⟩

theorem spinning_legal : LegalState spinning := by
  constructor <;> decide

theorem fairRun_legal (n : Nat) : LegalState (fairRun n) := by
  match n with
  | 0 => exact waiting_legal (holding_legal .q [0x48#8] (by decide)) rfl rfl
  | 1 => constructor <;> decide
  | k + 2 =>
    have h := spinning_legal
    exact ⟨h.1, h.2, h.3, h.4, h.5, h.6, h.7, h.8, h.9, h.10, h.11, h.12, (fun hl => nomatch hl), h.14⟩

/-- The FIFO after one push and its pop. -/
theorem popped_once_fifo (s : State) (h1 : s.pops = 1 ∧ s.pushes = 1 ∧ s.seenTailN = 0 ∧ s.seenHeadN = 1)
    (h2 : s.head = s.pushes % s.cfg.C ∧ s.tail = s.pops % s.cfg.C ∧ 2 ≤ s.cfg.C)
    (h3 : pushedBytes s.history = [0x48#8] ∧ poppedBytes s.history = [0x48#8])
    (h4 : s.pPhase = .idle ∧ (s.qPhase = .idle ∨ s.qPhase = .sample)) : FifoState s := by
  obtain ⟨hp, hq⟩ := h4
  have hn : s.qPhase ≠ .read ∧ s.qPhase ≠ .publish := by rcases hq with h | h <;> simp [h]
  constructor
  · exact h2.1
  · exact h2.2.1
  · omega
  · rw [h3.1, h1.2.1]
    rfl
  · rw [h3.1, h3.2, h1.1]
    rfl
  · intro k _ _
    omega
  · rw [hp]
    rintro (h | h) <;> cases h
  · rw [hp]
    intro h
    cases h
  · exact fun h => absurd h hn.1
  · exact fun h => absurd h hn.2
  · exact fun h => absurd h hn.2

theorem fairRun_fifo (n : Nat) : FifoState (fairRun n) := by
  match n with
  | 0 => exact waiting_fifo (holding_fifo .q [0x48#8] (by decide))
  | 1 => exact popped_once_fifo _ (by decide) (by decide) (by decide) (by decide)
  | k + 2 =>
    refine popped_once_fifo _ ⟨rfl, rfl, rfl, rfl⟩ ⟨rfl, rfl, (by decide : 2 ≤ 4)⟩ ?_ ⟨rfl, .inr rfl⟩
    have h : pushedBytes spinning.history = [0x48#8] ∧ poppedBytes spinning.history = [0x48#8] := by decide
    show pushedBytes (spinning.history ++ List.replicate k .popNone) = _ ∧
      poppedBytes (spinning.history ++ List.replicate k .popNone) = _
    rw [← h.1]
    constructor
    · simp [pushedBytes]
    · rw [h.1, ← h.2]
      simp [poppedBytes]

/-- What the law of rule R213 assumes of a run holds of this one. -/
theorem fairRun_systemRun : SystemRun fairTurns fairRun :=
  ⟨fairRun_isRun, fairTurns_system, fairTurns_finite, fairRun_fair, rfl, rfl, fairRun_legal, fairRun_fifo⟩

end Sys2Proof.Tests
end

/-! ## The parameters and the end of the startup (00_scope.md R8; 60_exceptions.md R194) -/

namespace Sys2Proof.Machine

/-- No move writes the parameters (R8). -/
theorem move_cfg {s t : State} (h : Move s t) : t.cfg = s.cfg := by
  cases h with
  | port => rfl
  | p => simp
  | q => simp
  | push => rfl
  | dispatch => rfl
  | emptyByP => simp [isEmptyByP]
  | sampling => rfl
  | row => rfl
  | interpreter => rfl
  | arrive => rfl
  | overrun b =>
    unfold overrunByte
    dsimp only
    split <;> rfl
  | init => rfl

theorem step_cfg {s t : State} (h : step s = .next t) : t.cfg = s.cfg :=
  step_keeps (I := fun u => u.cfg = s.cfg) (fun _ _ hm hu => (move_cfg hm).trans hu) rfl h

/-- What `INIT` lets through is the startup sequence, from the startup (70_reset_and_hazards.md R207, R208). -/
theorem execInit_next {s t : State} (h : execInit s = .next t) : s.life = .startup ∧ t = initSequence s := by
  obtain ⟨-, -, h⟩ := withLegalShape_next h
  obtain ⟨-, h⟩ := withIssuer_next h
  split at h
  · cases h
  · split at h <;> cases h
    exact ⟨‹_›, rfl⟩

/-- Every operation but `INIT` begins after `INIT` has completed (R210). -/
theorem begin_life {i : Instr} {s t : State} (h : begin i s = .next t) : i = .init ∨ s.life = .active := by
  have hP : ∀ {k}, admitP s k = .next t → s.life = .active := fun h => by
    obtain ⟨⟨-, -, hl⟩, -⟩ := admitP_next h
    exact hl
  have hQ : ∀ {k}, admitQ s k = .next t → s.life = .active := fun h => by
    obtain ⟨⟨-, -, hl⟩, -⟩ := admitQ_next h
    exact hl
  have hAny : ∀ {allowed k}, withLegalShape s (withIssuer allowed s (afterInit s k)) = .next t → s.life = .active :=
    fun h => by
      obtain ⟨-, -, h⟩ := withLegalShape_next h
      obtain ⟨-, h⟩ := withIssuer_next h
      exact (afterInit_next h).1
  cases i with
  | tryPush b => exact .inr (hP h)
  | tryPop => exact .inr (hQ h)
  | isEmpty => exact .inr (hAny h)
  | rxIrq => exact .inr (hP h)
  | rxArrive b => exact .inr (hAny h)
  | readByte => exact .inr (hQ h)
  | dataAvailable => exact .inr (hQ h)
  | ciIter => exact .inr (hQ h)
  | ciStep c => exact .inr (hQ h)
  | init => exact .inl rfl

/-- A whole operation starts with its beginning. -/
theorem exec_begins {i : Instr} {s t : State} (h : exec i s = .next t) : ∃ u, begin i s = .next u := by
  have hrun : ∀ {o f}, thenRun o f = .next t → ∃ u, o = .next u := fun h => by
    obtain ⟨u, hu, -⟩ := thenRun_next h
    exact ⟨u, hu⟩
  cases i with
  | tryPush b => exact hrun h
  | tryPop => exact hrun h
  | isEmpty => exact hrun h
  | rxIrq => exact hrun h
  | rxArrive b => exact ⟨t, h⟩
  | readByte => exact hrun h
  | dataAvailable => exact hrun h
  | ciIter => exact hrun h
  | ciStep c => exact hrun h
  | init => exact ⟨t, h⟩

/-- In the startup only `INIT` begins (R210). -/
theorem begin_of_startup {i : Instr} {s t : State} (h : begin i s = .next t) (hs : s.life = .startup) : i = .init :=
  (begin_life h).resolve_right (by simp [hs])

/-- What an issued op-word lets through is its operation, with the issuer noted. -/
theorem issueWord_next {a : Agent} {w : Word} {run : Instr → State → Host.Outcome State Fault Refusal} {s t : State}
    (h : issueWord a w run s = .next t) : ∃ i, decode w = .ok i ∧ run i { s with issuer := a } = .next t := by
  unfold issueWord at h
  split at h
  · exact ⟨_, ‹_›, h⟩
  · cases h

/-- Going on with an operation is going on with P's or with Q's. -/
theorem continueOp_next {a : Agent} {fp fq : State → State} {s t : State} (h : continueOp a fp fq s = .next t) :
    t = fp s ∨ t = fq s := by
  cases a with
  | p => exact .inl (continueP_next h).2
  | q => exact .inr (continueQ_next h).2
  | e => cases h
  | s => cases h
  | further id => cases h

theorem qFinish_life (s : State) : (qFinish s).life = s.life :=
  qFinish_keeps (I := fun u => u.life = s.life) (fun u hu => by simpa using hu) rfl

/-- A schedule line of the startup ends it by `INIT`, or leaves it (60_exceptions.md R194). -/
theorem takeTurn_of_startup {turn : Turn} {s t : State} (h : takeTurn turn s = .next t) (hs : s.life = .startup) :
    t.life = .startup ∨ ∃ a, t = initSequence { s with issuer := a } := by
  cases turn with
  | issue a w =>
    obtain ⟨i, -, hi⟩ := issueWord_next h
    obtain ⟨u, hu⟩ := exec_begins hi
    cases begin_of_startup hu hs
    exact .inr ⟨a, (execInit_next hi).2⟩
  | start a w =>
    obtain ⟨i, -, hi⟩ := issueWord_next h
    cases begin_of_startup hi hs
    exact .inr ⟨a, (execInit_next hi).2⟩
  | micro a => rcases continueOp_next h with rfl | rfl <;> exact .inl (by simpa using hs)
  | resume a => rcases continueOp_next h with rfl | rfl <;> exact .inl (by simpa [qFinish_life] using hs)
  | interpreterStart =>
    obtain ⟨-, -, h⟩ := withLegalShape_next h
    obtain ⟨hl, -⟩ := afterInit_next h
    rw [hs] at hl
    cases hl
  | wait =>
    cases h
    exact .inl hs

/-- A step of the startup ends it by `INIT`, or leaves it; the port's own fields are the step's to write. -/
theorem step_of_startup {s t : State} (h : step s = .next t) (hs : s.life = .startup) :
    t.life = .startup ∨ ∃ a ts d, t = initSequence { s with issuer := a, schedule := ts, draw := d } := by
  unfold step takeNext at h
  split at h <;> exact (takeTurn_of_startup h hs).imp_right fun ⟨a, ha⟩ => ⟨a, _, _, ha⟩

/-- Settles O54: no move writes the parameters or goes back before `INIT`, and the only step that leaves the startup is
the startup sequence. -/
theorem parametersNeverChange : Obligations.ParametersNeverChange := by
  unfold Obligations.ParametersNeverChange
  intro s t h
  refine ⟨step_cfg h, fun hs => step_keeps (fun _ _ => move_life) hs h, fun hs ht => ?_⟩
  rcases step_of_startup h hs with hl | ⟨a, ts, d, rfl⟩
  · rw [hl] at ht
    cases ht
  · simp [initSequence_eq]

end Sys2Proof.Machine

/-! ## Every step keeps the state legal (10_state.md R26, R30 to R33, R37 to R39)

One rule for each named update of the state, then one for the micro-steps of P and of Q, then one case for each move. -/

namespace Sys2Proof.Machine

open Safety

/-! ### What a legal state says at once -/

/-- P does nothing before `INIT` has completed (70_reset_and_hazards.md R210). -/
theorem active_of_pBusy {s : State} (h : LegalState s) (hp : s.pPhase ≠ .idle) : s.life = .active := by
  cases hl : s.life with
  | active => rfl
  | startup =>
    obtain ⟨hi, -⟩ := h.beforeInit hl
    exact absurd hi hp

/-- Nor does Q. -/
theorem active_of_qOp {s : State} (h : LegalState s) (ho : s.qOp ≠ .none) : s.life = .active := by
  cases hl : s.life with
  | active => rfl
  | startup =>
    obtain ⟨-, hn, -⟩ := h.beforeInit hl
    exact absurd hn ho

/-- What may begin begins after `INIT` (R210). -/
theorem operational_active {s : State} (h : Operational s) : s.life = .active := by
  obtain ⟨-, -, ha⟩ := h
  exact ha

/-- An operation that samples `head` is one. -/
theorem ne_none_of_sampling {op : QOp} (h : op ∈ samplingOps) : op ≠ .none := by
  rintro rfl
  simp [samplingOps] at h

/-- An operation that pops begins by sampling `head` (40_ringbuffer.md R105). -/
theorem sampling_of_popping {op : QOp} (h : op ∈ poppingOps) : op ∈ samplingOps := by
  simp only [poppingOps, samplingOps, List.mem_cons, List.not_mem_nil, or_false] at h ⊢
  tauto

/-- What would hold in the startup holds of no machine past it. -/
theorem startup_absurd {s : State} {p : Prop} (ha : s.life = .active) (hs : s.life = .startup) : p :=
  nomatch ha.symm.trans hs

/-- A buffer has at least two slots (00_scope.md R6). -/
theorem two_le_C_of_wf {c : Config} (h : c.wf = true) : 2 ≤ c.C := by
  simp only [Config.wf, Bool.and_eq_true, decide_eq_true_eq] at h
  exact h.1

/-- A pointer in range fits the width of the pointers (10_state.md R23, R26). -/
theorem lt_two_pow_W {c : Config} (hc : 2 ≤ c.C) {i : Nat} (hi : i < c.C) : i < 2 ^ c.W := by
  have hlog : c.C - 1 < 2 ^ ((c.C - 1).log2 + 1) := Nat.lt_log2_self
  have hW : 2 ^ ((c.C - 1).log2 + 1) ≤ 2 ^ c.W := Nat.pow_le_pow_right (by decide) (Nat.le_max_right ..)
  omega

/-! ### The reads across the domains, as states -/

/-- A read of `tail` by P is a value and the state with what P has seen. -/
theorem readTailFromP_eq (s : State) :
    ∃ v n d, readTailFromP s = (v, { s with seenTailN := n, draw := d }) := by
  unfold readTailFromP
  split <;> exact ⟨_, _, _, rfl⟩

/-- A read of `head` by Q is a value and the state with what Q has seen. -/
theorem readHeadFromQ_eq (s : State) :
    ∃ v n d, readHeadFromQ s = (v, { s with seenHeadN := n, draw := d }) := by
  unfold readHeadFromQ
  split <;> exact ⟨_, _, _, rfl⟩

/-! ### The rules of the updates -/

theorem record_legal (e : Event) {s : State} (h : LegalState s) (ha : s.life = .active) : LegalState (record e s) :=
  { h with beforeInit := startup_absurd ha }

theorem deliver_legal (a : Agent) (w : Word) {s : State} (h : LegalState s) : LegalState (deliver a w s) :=
  { h with }

theorem qDone_legal {s : State} (h : LegalState s) : LegalState (qDone s) :=
  { h with
    appendFits := nofun
    qAtRest := fun _ => ⟨rfl, rfl⟩
    qSampling := nofun
    qReading := nofun
    qPublishing := nofun
    beforeInit := fun hs => by
      obtain ⟨hp, -, hi, hh, hn⟩ := h.beforeInit hs
      exact ⟨hp, rfl, hi, hh, hn⟩ }

/-- Q turns to a row of the transition table: only row APPEND stores a character, and only where one fits
(43_command_interpreter.md R152). -/
theorem beginRow_legal (c : Byte) {op : QOp} (hop : op ≠ .none) {s : State} (h : LegalState s) (ha : s.life = .active) :
    LegalState (beginRow c { s with qOp := op }) :=
  { h with
    appendFits := fun _ => append_mem_ciRow
    qAtRest := fun hn => absurd hn hop
    qSampling := nofun
    qReading := nofun
    qPublishing := nofun
    beforeInit := startup_absurd ha }

/-- Q is about to sample `head`, for an operation that does. -/
theorem sampling_legal {op : QOp} (hop : op ∈ samplingOps) {s : State} (h : LegalState s) (ha : s.life = .active)
    (hw : s.qWork = []) : LegalState { s with qOp := op, qPhase := .sample } :=
  { h with
    qAtRest := fun hn => absurd hn (ne_none_of_sampling hop)
    qSampling := fun _ => ⟨hop, hw⟩
    qReading := nofun
    qPublishing := nofun
    beforeInit := startup_absurd ha }

/-! ### P's micro-steps -/

theorem pFetch_legal {s : State} (h : LegalState s) (ha : s.life = .active) : LegalState (pFetch s) :=
  { h with beforeInit := startup_absurd ha }

theorem pSample_legal {s : State} (h : LegalState s) (ha : s.life = .active) : LegalState (pSample s) := by
  obtain ⟨v, n, d, hr⟩ := readTailFromP_eq s
  unfold pSample
  split
  · exact { h with beforeInit := startup_absurd ha }
  · simp only [hr]
    split <;> exact { h with beforeInit := startup_absurd ha }

theorem pWrite_legal {s : State} (h : LegalState s) (ha : s.life = .active) : LegalState (pWrite s) :=
  { h with
    storageForm := ⟨memWf_memPut _ _ h.storageForm.1, memBelow_memPut _ h.storageForm.2 h.headInRange⟩
    beforeInit := startup_absurd ha }

theorem pPublish_legal {s : State} (h : LegalState s) (ha : s.life = .active) : LegalState (pPublish s) :=
  { h with
    headInRange := nextIndex_lt (Nat.zero_lt_of_lt h.headInRange) _
    beforeInit := startup_absurd ha }

theorem pReturn_legal {s : State} (h : LegalState s) (ha : s.life = .active) : LegalState (pReturn s) := by
  unfold pReturn
  split <;> exact { h with beforeInit := startup_absurd ha }

theorem pStep_legal {s : State} (h : LegalState s) : LegalState (pStep s) := by
  have ha : s.pPhase ≠ .idle → s.life = .active := active_of_pBusy h
  unfold pStep
  split
  case h_1 => exact h
  case h_2 hp => exact pFetch_legal h (ha (by simp [hp]))
  case h_3 hp => exact pSample_legal h (ha (by simp [hp]))
  case h_4 hp => exact pWrite_legal h (ha (by simp [hp]))
  case h_5 hp => exact pPublish_legal h (ha (by simp [hp]))
  case h_6 hp => exact pReturn_legal h (ha (by simp [hp]))

/-! ### Q's micro-steps -/

theorem qSample_legal {s : State} (h : LegalState s) (hp : s.qPhase = .sample) : LegalState (qSample s) := by
  obtain ⟨ho, hw⟩ := h.qSampling hp
  have ha : s.life = .active := active_of_qOp h (ne_none_of_sampling ho)
  obtain ⟨v, n, d, hr⟩ := readHeadFromQ_eq s
  rw [qSample_eq (by simpa [samplingOps] using ho), hr]
  exact { h with
    qAtRest := fun hn => absurd hn (ne_none_of_sampling ho)
    qSampling := nofun
    qReading := fun _ => ⟨ho, hw⟩
    qPublishing := nofun
    beforeInit := startup_absurd ha }

theorem popEmpty_legal {s : State} (h : LegalState s) (ha : s.life = .active) (hw : s.qWork = []) :
    LegalState (popEmpty s) := by
  have hr := record_legal .popNone h ha
  unfold popEmpty
  split
  case h_1 => exact qDone_legal (deliver_legal _ _ hr)
  case h_2 ho | h_3 ho => exact sampling_legal (by simp [ho, samplingOps]) hr ha hw
  all_goals exact qDone_legal h

theorem popRead_legal {s : State} (h : LegalState s) (ho : s.qOp ∈ poppingOps) (hw : s.qWork = []) :
    LegalState (popRead s) := by
  have hn : s.qOp ≠ .none := ne_none_of_sampling (sampling_of_popping ho)
  unfold popRead
  split
  · exact popEmpty_legal h (active_of_qOp h hn) hw
  · exact { h with
      qAtRest := fun he => absurd he hn
      qSampling := nofun
      qReading := nofun
      qPublishing := fun _ => ⟨ho, hw⟩ }

theorem qRead_legal {s : State} (h : LegalState s) (hp : s.qPhase = .read) : LegalState (qRead s) := by
  obtain ⟨-, hw⟩ := h.qReading hp
  unfold qRead
  split
  case h_1 ho | h_2 ho | h_3 ho => exact popRead_legal h (by simp [ho, poppingOps]) hw
  case h_4 | h_5 => exact qDone_legal (deliver_legal _ _ h)
  all_goals exact qDone_legal h

theorem popReturn_legal {s : State} (h : LegalState s) : LegalState (popReturn s) := by
  unfold popReturn
  split
  case h_1 | h_2 => exact qDone_legal (deliver_legal _ _ h)
  case h_3 ho =>
    have hn : s.qOp ≠ .none := by simp [ho]
    exact beginRow_legal _ hn h (active_of_qOp h hn)
  all_goals exact qDone_legal h

theorem qPublish_legal {s : State} (h : LegalState s) (hp : s.qPhase = .publish) : LegalState (qPublish s) := by
  obtain ⟨ho, -⟩ := h.qPublishing hp
  have ha : s.life = .active := active_of_qOp h (ne_none_of_sampling (sampling_of_popping ho))
  have ht : nextIndex s.cfg s.tail < s.cfg.C := nextIndex_lt (Nat.zero_lt_of_lt h.tailInRange) _
  exact popReturn_legal (record_legal _ { h with tailInRange := ht } ha)

/-- What a legal state says of the line in progress (10_state.md R37 to R39). -/
structure LineLegal (s : State) : Prop where
  lengthInRange : s.length < s.cfg.N
  charsForm : memWf s.chars = true ∧ memBelow s.cfg.N s.chars = true
  lineWritten : ∀ i < s.length, (memGet s.chars i).isSome = true

theorem line_of_legal {s : State} (h : LegalState s) : LineLegal s :=
  ⟨h.lengthInRange, h.charsForm, h.lineWritten⟩

/-- The line grows by a byte where one more fits, and the cell after it is cleared (43_command_interpreter.md R152). -/
theorem appendChar_line (c : Byte) {s : State} (h : LineLegal s) (hl : s.length + 1 < s.cfg.N) :
    LineLegal (appendChar c s) where
  lengthInRange := hl
  charsForm :=
    ⟨memWf_memPut _ _ (memWf_memPut _ _ h.charsForm.1),
      memBelow_memPut _ (memBelow_memPut _ h.charsForm.2 h.lengthInRange) hl⟩
  lineWritten := fun i hi => by
    have hi : i < s.length + 1 := hi
    show (memGet (memPut (memPut s.chars s.length c) (s.length + 1) 0#8) i).isSome = true
    rw [memGet_memPut_of_ne _ (by omega)]
    by_cases he : i = s.length
    · simp [he]
    · rw [memGet_memPut_of_ne _ he]
      exact h.lineWritten i (by omega)

/-- Every act keeps the line legal, where the byte that is stored fits (R39). -/
theorem doAct_line {a : CiAct} {s : State} (h : LineLegal s) (hfit : ∀ c, a = .append c → s.length + 1 < s.cfg.N) :
    LineLegal (doAct a s) := by
  cases a with
  | transmit b => exact { h with }
  | effect cmd => cases cmd <;> exact { h with }
  | unknown line => exact { h with }
  | resetLength => exact ⟨Nat.zero_lt_of_lt h.lengthInRange, h.charsForm, fun i hi => absurd hi (Nat.not_lt_zero i)⟩
  | append c => exact appendChar_line c h (hfit c rfl)
  | erase =>
    have hle : (eraseChar s).length ≤ s.length := by
      simp only [eraseChar]
      split <;> omega
    exact ⟨hle.trans_lt h.lengthInRange, h.charsForm, fun i hi => h.lineWritten i (hi.trans_le hle)⟩
  | drop c => exact { h with }

theorem qWorkStep_legal {s : State} (h : LegalState s) (hp : s.qPhase = .idle) : LegalState (qWorkStep s) := by
  unfold qWorkStep
  split
  · exact qDone_legal h
  · rename_i a rest hw
    have ho : s.qOp ≠ .none := fun hn => by simp [(h.qAtRest hn).2] at hw
    have ha := active_of_qOp h ho
    have hfit : ∀ c, CiAct.append c ∈ a :: rest → a :: rest = rowAppend c ∧ s.length + 1 < s.cfg.N := by
      simpa only [hw] using h.appendFits
    have hline := doAct_line (line_of_legal h) (a := a) fun c hc => (hfit c (by simp [hc])).2
    have hrest : ∀ c, CiAct.append c ∉ rest := fun c hc => by
      obtain ⟨hrow, -⟩ := hfit c (List.mem_cons_of_mem _ hc)
      cases hrow
      simp at hc
    exact {
      params := by simpa using h.params
      headInRange := by simpa using h.headInRange
      tailInRange := by simpa using h.tailInRange
      lengthInRange := hline.lengthInRange
      storageForm := by simpa using h.storageForm
      charsForm := hline.charsForm
      lineWritten := hline.lineWritten
      appendFits := fun c hc => absurd hc (hrest c)
      qAtRest := by simp [ho]
      qSampling := by simp [hp]
      qReading := by simp [hp]
      qPublishing := by simp [hp]
      beforeInit := by simp [ha]
      enabledAfterInit := by simpa using h.enabledAfterInit }

theorem qStep_legal {s : State} (h : LegalState s) : LegalState (qStep s) := by
  unfold qStep
  split
  · exact qSample_legal h ‹_›
  · exact qRead_legal h ‹_›
  · exact qPublish_legal h ‹_›
  · exact qWorkStep_legal h ‹_›

/-! ### The moves -/

theorem isEmptyByP_legal {s : State} (h : LegalState s) (ha : s.life = .active) : LegalState (isEmptyByP s) := by
  obtain ⟨v, n, d, hr⟩ := readTailFromP_eq s
  simp only [isEmptyByP, hr]
  exact { h with beforeInit := startup_absurd ha }

theorem overrunByte_legal (b : Byte) {s : State} (h : LegalState s) (ha : s.life = .active) :
    LegalState (overrunByte b s) := by
  unfold overrunByte
  dsimp only
  split <;> exact { h with beforeInit := startup_absurd ha }

theorem initSequence_legal {s : State} (h : LegalState s) : LegalState (initSequence s) :=
  have hC : 0 < s.cfg.C := Nat.zero_lt_of_lt h.headInRange
  { h with headInRange := hC, tailInRange := hC, beforeInit := nofun, enabledAfterInit := fun _ => rfl }

/-- Q, at rest, turns to the interpreter's start (43_command_interpreter.md R147). -/
theorem interpreter_legal {s : State} (h : LegalState s) (ha : s.life = .active) (hp : s.qPhase = .idle) :
    LegalState { s with length := 0, interpStarted := true, qOp := .ciStart, qWork := emitActs s.cfg.msgBanner } :=
  { h with
    lengthInRange := Nat.zero_lt_of_lt h.lengthInRange
    lineWritten := fun i hi => absurd hi (Nat.not_lt_zero i)
    appendFits := fun c hc => by simp [emitActs] at hc
    qAtRest := nofun
    qSampling := fun hs => nomatch hp.symm.trans hs
    qReading := fun hs => nomatch hp.symm.trans hs
    qPublishing := fun hs => nomatch hp.symm.trans hs
    beforeInit := startup_absurd ha }

theorem move_legal {s t : State} (hm : Move s t) (h : LegalState s) : LegalState t := by
  cases hm with
  | port => exact { h with }
  | p => exact pStep_legal h
  | q => exact qStep_legal h
  | push b hop => exact { h with beforeInit := startup_absurd (operational_active hop) }
  | dispatch hop => exact { h with beforeInit := startup_absurd (operational_active hop) }
  | emptyByP hop => exact isEmptyByP_legal h (operational_active hop)
  | sampling op hop ho _ hs =>
    have hs : op ∈ samplingOps := by simpa [samplingOps] using hs
    exact sampling_legal hs h (operational_active hop) (h.qAtRest ho).2
  | row c hop => exact beginRow_legal c (op := .ciStep) nofun h (operational_active hop)
  | interpreter hop _ hp => exact interpreter_legal h (operational_active hop) hp
  | arrive b hop => exact { h with beforeInit := startup_absurd (operational_active hop) }
  | overrun b hop => exact overrunByte_legal b h (operational_active hop)
  | init => exact initSequence_legal h

/-- Settles O55: every move keeps the state legal, and a pointer below `C` fits `W` bits. -/
theorem everyStepKeepsTheStateLegal : Obligations.EveryStepKeepsTheStateLegal := by
  unfold Obligations.EveryStepKeepsTheStateLegal
  refine ⟨fun s t h hstep => step_keeps (fun _ _ => move_legal) h hstep, fun s h => ?_⟩
  have hC := two_le_C_of_wf h.params
  exact ⟨lt_two_pow_W hC h.headInRange, lt_two_pow_W hC h.tailInRange⟩

end Sys2Proof.Machine

/-! ## Every step of a conforming machine keeps the FIFO correct (10_state.md R45; 20_memory.md R67; 40_ringbuffer.md R108)

Only four updates touch what the FIFO is made of: P's sample, slot write and advance of `head`, and Q's sample, slot read
and advance of `tail`. Everything else is quiet: it records no push and no pop, and leaves the phases that promise
something. -/

namespace Sys2Proof.Machine

open Safety

/-! ### The history -/

@[simp] theorem pushedBytes_append (h k : List Event) : pushedBytes (h ++ k) = pushedBytes h ++ pushedBytes k :=
  List.filterMap_append

@[simp] theorem poppedBytes_append (h k : List Event) : poppedBytes (h ++ k) = poppedBytes h ++ poppedBytes k :=
  List.filterMap_append

@[simp] theorem pushedBytes_pushOk (b : Byte) (i : Nat) : pushedBytes [.pushOk b i] = [b] := rfl
@[simp] theorem poppedBytes_pushOk (b : Byte) (i : Nat) : poppedBytes [.pushOk b i] = [] := rfl
@[simp] theorem pushedBytes_popSome (b : Byte) (i : Nat) : pushedBytes [.popSome b i] = [] := rfl
@[simp] theorem poppedBytes_popSome (b : Byte) (i : Nat) : poppedBytes [.popSome b i] = [b] := rfl

/-- An event that is neither an accepted push nor a successful pop leaves the FIFO as it is. -/
theorem record_fifo {e : Event} (he : pushedBytes [e] = [] ∧ poppedBytes [e] = []) {s : State} (h : FifoState s) :
    FifoState (record e s) := by
  have hpush : pushedBytes (record e s).history = pushedBytes s.history := by simp [he.1]
  have hpop : poppedBytes (record e s).history = poppedBytes s.history := by simp [he.2]
  exact { h with
    pushCount := by rw [hpush]; exact h.pushCount
    order := by rw [hpush, hpop]; exact h.order
    liveSlots := by rw [hpush]; exact h.liveSlots
    byteRead := by rw [hpush]; exact h.byteRead }

/-! ### What is quiet -/

/-- Outside the two phases in which P is sure to push, what P holds is no matter of the FIFO. -/
theorem quietP_fifo {s : State} (h : FifoState s) {p : PPhase} (hw : p ≠ .write) (hp : p ≠ .publish) (b : Byte)
    (seen : Nat) (ok isr : Bool) :
    FifoState { s with pPhase := p, pByte := b, pTailSeen := seen, pOk := ok, pIsr := isr } :=
  { h with
    roomToWrite := fun hx => (hx.elim hw hp).elim
    slotWritten := fun hx => absurd hx hp }

/-- Outside the phases in which Q holds a sample or a byte of the FIFO, what Q is doing is none either. -/
theorem quietQ_fifo {s : State} (h : FifoState s) {p : QPhase} (hr : p ≠ .read) (hp : p ≠ .publish) (op : QOp)
    (work : List CiAct) : FifoState { s with qPhase := p, qOp := op, qWork := work } :=
  { h with
    sampleKept := fun hx => absurd hx hr
    byteToRead := fun hx => absurd hx hp
    byteRead := fun hx => absurd hx hp }

theorem deliver_fifo (a : Agent) (w : Word) {s : State} (h : FifoState s) : FifoState (deliver a w s) :=
  { h with }

theorem qDone_fifo {s : State} (h : FifoState s) : FifoState (qDone s) :=
  quietQ_fifo h (p := .idle) nofun nofun _ _

/-- The interpreter's acts touch neither the pointers nor the slots, and record no push and no pop
(43_command_interpreter.md R163). -/
theorem doAct_fifo (a : CiAct) {s : State} (h : FifoState s) : FifoState (doAct a s) := by
  cases a with
  | transmit b => exact record_fifo ⟨rfl, rfl⟩ { h with }
  | effect cmd =>
    cases cmd with
    | help => exact h
    | ledOn => exact record_fifo ⟨rfl, rfl⟩ { h with }
    | ledOff => exact record_fifo ⟨rfl, rfl⟩ { h with }
    | toggle => exact record_fifo ⟨rfl, rfl⟩ { h with }
    | status => exact h
  | unknown line => exact record_fifo ⟨rfl, rfl⟩ h
  | resetLength => exact { h with }
  | append c => exact { h with }
  | erase => exact { h with }
  | drop c => exact record_fifo ⟨rfl, rfl⟩ h

/-! ### P's micro-steps -/

/-- P's sample is one of the values `tail` has had since P's last one (20_memory.md R58), and the chain stands. -/
theorem readTailFromP_fifo {s : State} (h : FifoState s) :
    FifoState (readTailFromP s).2 ∧ (readTailFromP s).1 = (readTailFromP s).2.seenTailN % s.cfg.C := by
  obtain ⟨hseen, hpop, hhead, hroom⟩ := h.chain
  obtain ⟨hv, hlo, hhi⟩ := readTailFromP_value h.tailNumber hseen
  obtain ⟨v, n, d, hr⟩ := readTailFromP_eq s
  rw [hr] at hv hlo hhi ⊢
  simp only at hv hlo hhi
  refine ⟨{ h with chain := ⟨hhi, hpop, hhead, ?_⟩, roomToWrite := fun hp => ?_ }, hv⟩
  · show s.pushes + 1 ≤ n + s.cfg.C
    omega
  · show s.pushes + 2 ≤ n + s.cfg.C
    have := h.roomToWrite hp
    omega

/-- A sample that does not show the buffer full leaves room for one push more, however stale it is (40_ringbuffer.md
R104). -/
theorem room_of_sample {s : State} (h : FifoState s) {n : Nat} (hroom : s.pushes + 1 ≤ n + s.cfg.C)
    (hne : nextIndex s.cfg s.head ≠ n % s.cfg.C) : s.pushes + 2 ≤ n + s.cfg.C := by
  have hlast : s.pushes + 1 ≠ n + s.cfg.C := fun he => hne (by
    rw [h.headNumber, nextIndex_mod, he, Nat.add_mod_right])
  omega

theorem pFetch_fifo {s : State} (h : FifoState s) : FifoState (pFetch s) :=
  record_fifo ⟨rfl, rfl⟩ { quietP_fifo h (p := .sample) nofun nofun s.rxData s.pTailSeen s.pOk s.pIsr with }

theorem pSample_fifo {s : State} (h : FifoState s) (hl : s.cfg.legacyOverwrite = false) : FifoState (pSample s) := by
  obtain ⟨hs, hv⟩ := readTailFromP_fifo h
  obtain ⟨-, -, -, hroom⟩ := hs.chain
  obtain ⟨v, n, d, hr⟩ := readTailFromP_eq s
  rw [hr] at hs hv hroom
  simp only [pSample, hl, hr, Bool.false_eq_true, if_false]
  split
  · exact record_fifo ⟨rfl, rfl⟩ (quietP_fifo hs (p := .ret) nofun nofun _ _ _ _)
  · rename_i hne
    rw [show v = n % s.cfg.C from hv] at hne
    exact { hs with
      roomToWrite := fun _ => room_of_sample h hroom hne
      slotWritten := nofun }

/-- The slot P writes is not one of those still to be popped. -/
theorem pWrite_fifo {s : State} (h : FifoState s) (hp : s.pPhase = .write) : FifoState (pWrite s) := by
  obtain ⟨hseen, -, -, hroom⟩ := h.chain
  exact { h with
    liveSlots := fun k hk hlt => by
      have hlt : k < s.pushes := hlt
      have hk : s.pops ≤ k := hk
      have hne : k % s.cfg.C ≠ s.head := fun he => by
        rw [h.headNumber] at he
        have := eq_of_mod_eq hlt.le (by omega) he
        omega
      exact (memGet_memPut_of_ne _ hne).trans (h.liveSlots k hk hlt)
    roomToWrite := fun _ => h.roomToWrite (.inl hp)
    slotWritten := fun _ => memGet_memPut_self _ _ _ }

/-- The byte in the slot at `head` is the newest of those pushed. -/
theorem pPublish_fifo {s : State} (h : FifoState s) (hp : s.pPhase = .publish) : FifoState (pPublish s) := by
  obtain ⟨hseen, hpop, hhead, -⟩ := h.chain
  have hroom := h.roomToWrite (.inr hp)
  have hold : ∀ k, k < s.pushes → (pushedBytes s.history ++ [s.pByte])[k]? = (pushedBytes s.history)[k]? := fun k hk =>
    List.getElem?_append_left (by rw [h.pushCount]; exact hk)
  have hnew : (pushedBytes s.history ++ [s.pByte])[s.pushes]? = some s.pByte := by
    rw [← h.pushCount]
    simp
  have hbytes : pushedBytes (pPublish s).history = pushedBytes s.history ++ [s.pByte] := by simp [pPublish]
  have hpopped : poppedBytes (pPublish s).history = poppedBytes s.history := by simp [pPublish]
  exact { h with
    headNumber := by
      show nextIndex s.cfg s.head = (s.pushes + 1) % s.cfg.C
      rw [h.headNumber, nextIndex_mod]
    chain := ⟨hseen, hpop, hhead.trans (Nat.le_succ _), hroom⟩
    pushCount := by
      rw [hbytes, List.length_append, h.pushCount]
      rfl
    order := by
      rw [hbytes, hpopped, h.order]
      exact (List.take_append_of_le_length (by rw [h.pushCount]; omega)).symm
    liveSlots := fun k hk hlt => by
      rw [hbytes]
      rcases Nat.lt_succ_iff_lt_or_eq.mp hlt with hlt | rfl
      · exact (h.liveSlots k hk hlt).trans (hold k hlt).symm
      · rw [hnew, ← h.slotWritten hp, h.headNumber]
        rfl
    roomToWrite := by rintro (hx | hx) <;> cases hx
    slotWritten := nofun
    byteRead := fun hq => by
      have := h.byteToRead hq
      rw [hbytes]
      exact (hold s.pops (by omega)).trans (h.byteRead hq) }

theorem pReturn_fifo {s : State} (h : FifoState s) : FifoState (pReturn s) := by
  have hq := quietP_fifo h (p := .idle) nofun nofun s.pByte s.pTailSeen s.pOk s.pIsr
  unfold pReturn
  split
  · exact hq
  · exact deliver_fifo _ _ hq

theorem pStep_fifo {s : State} (h : FifoState s) (hl : s.cfg.legacyOverwrite = false) : FifoState (pStep s) := by
  unfold pStep
  split
  · exact h
  · exact pFetch_fifo h
  · exact pSample_fifo h hl
  · exact pWrite_fifo h ‹_›
  · exact pPublish_fifo h ‹_›
  · exact pReturn_fifo h

/-! ### Q's micro-steps -/

/-- Q's sample is one of the values `head` has had since Q's last one (20_memory.md R58), and is kept with its number. -/
theorem qSample_fifo {s : State} (h : FifoState s) : FifoState (qSample s) := by
  obtain ⟨hseen, hpop, hhead, hroom⟩ := h.chain
  obtain ⟨hv, hlo, hhi⟩ := readHeadFromQ_value h.headNumber hhead
  obtain ⟨v, n, d, hr⟩ := readHeadFromQ_eq s
  rw [hr] at hv hlo hhi
  simp only at hv hlo hhi
  have hread : FifoState { sampleHead s with qPhase := .read } := by
    simp only [sampleHead, hr]
    exact { h with
      chain := ⟨hseen, hpop.trans hlo, hhi, hroom⟩
      sampleKept := fun _ => hv
      byteToRead := nofun
      byteRead := nofun }
  unfold qSample
  split
  case h_6 | h_7 | h_8 => exact qDone_fifo h
  all_goals exact hread

theorem popEmpty_fifo {s : State} (h : FifoState s) : FifoState (popEmpty s) := by
  have hr : FifoState (record .popNone s) := record_fifo ⟨rfl, rfl⟩ h
  unfold popEmpty
  split
  case h_1 => exact qDone_fifo (deliver_fifo _ _ hr)
  case h_2 | h_3 => exact quietQ_fifo hr (p := .sample) nofun nofun _ _
  all_goals exact qDone_fifo h

/-- A sample that differs from `tail` shows a byte, however stale it is, and the slot at `tail` holds the oldest one
(40_ringbuffer.md R105). -/
theorem popRead_fifo {s : State} (h : FifoState s) (hp : s.qPhase = .read) : FifoState (popRead s) := by
  obtain ⟨-, hpop, hhead, -⟩ := h.chain
  unfold popRead
  split
  · exact popEmpty_fifo h
  · rename_i hne
    have hbyte : s.pops < s.seenHeadN := by
      refine lt_of_le_of_ne hpop fun he => hne ?_
      rw [h.sampleKept hp, h.tailNumber, he]
    have hlt : s.pops < s.pushes := hbyte.trans_le hhead
    have hslot : memGet s.storage s.tail = (pushedBytes s.history)[s.pops]? := by
      rw [h.tailNumber]
      exact h.liveSlots _ le_rfl hlt
    have hsome : (pushedBytes s.history)[s.pops]? = some (slotByte s s.tail) := by
      rw [slotByte, hslot, List.getElem?_eq_getElem (by rw [h.pushCount]; exact hlt)]
      rfl
    exact { h with sampleKept := nofun, byteToRead := fun _ => hbyte, byteRead := fun _ => hsome }

theorem qRead_fifo {s : State} (h : FifoState s) (hp : s.qPhase = .read) : FifoState (qRead s) := by
  unfold qRead
  split
  case h_1 | h_2 | h_3 => exact popRead_fifo h hp
  case h_4 | h_5 => exact qDone_fifo (deliver_fifo _ _ h)
  all_goals exact qDone_fifo h

/-- The return of a pop leaves `Q_PUBLISH`, so what that phase promises is not asked of the state it returns from. -/
theorem popReturn_fifo {s : State} (h : FifoState { s with qPhase := .idle }) : FifoState (popReturn s) := by
  unfold popReturn
  split <;> exact { h with }

/-- The byte Q hands over is the next of those pushed, and its slot is free from here on. -/
theorem qPublish_fifo {s : State} (h : FifoState s) (hp : s.qPhase = .publish) : FifoState (qPublish s) := by
  obtain ⟨hseen, -, hhead, hroom⟩ := h.chain
  have hbyte := h.byteToRead hp
  refine popReturn_fifo { h with
    tailNumber := ?_, chain := ⟨hseen.trans (Nat.le_succ _), hbyte, hhead, hroom⟩, pushCount := ?_, order := ?_,
    liveSlots := fun k hk hlt => ?_, sampleKept := nofun, byteToRead := nofun, byteRead := nofun }
  · show nextIndex s.cfg s.tail = (s.pops + 1) % s.cfg.C
    rw [h.tailNumber, nextIndex_mod]
  · simpa using h.pushCount
  · show poppedBytes (s.history ++ [_]) = (pushedBytes (s.history ++ [_])).take (s.pops + 1)
    simp [List.take_add_one, h.byteRead hp, h.order]
  · simpa using h.liveSlots k (Nat.le_of_succ_le hk) hlt

theorem qWorkStep_fifo {s : State} (h : FifoState s) : FifoState (qWorkStep s) := by
  unfold qWorkStep
  split
  · exact qDone_fifo h
  · exact { doAct_fifo _ h with }

theorem qStep_fifo {s : State} (h : FifoState s) : FifoState (qStep s) := by
  unfold qStep
  split
  · exact qSample_fifo h
  · exact qRead_fifo h ‹_›
  · exact qPublish_fifo h ‹_›
  · exact qWorkStep_fifo h

/-! ### The moves -/

theorem isEmptyByP_fifo {s : State} (h : FifoState s) : FifoState (isEmptyByP s) :=
  quietP_fifo (readTailFromP_fifo h).1 (p := .ret) nofun nofun _ _ _ _

theorem overrunByte_fifo (b : Byte) {s : State} (h : FifoState s) : FifoState (overrunByte b s) := by
  unfold overrunByte
  dsimp only
  split
  · exact record_fifo ⟨rfl, rfl⟩ { h with }
  · exact { h with }

/-- The startup sequence leaves an empty FIFO: nothing has been recorded before it (70_reset_and_hazards.md R208). -/
theorem initSequence_fifo {s : State} (hl : LegalState s) (hs : s.life = .startup) (hq : s.qPhase = .idle) :
    FifoState (initSequence s) := by
  obtain ⟨hp, -, -, hh, -⟩ := hl.beforeInit hs
  have hC := two_le_C_of_wf hl.params
  have hroom : 0 + 1 ≤ 0 + s.cfg.C := by omega
  exact {
    headNumber := (Nat.zero_mod _).symm
    tailNumber := (Nat.zero_mod _).symm
    chain := ⟨le_rfl, le_rfl, le_rfl, hroom⟩
    pushCount := congrArg (fun l => (pushedBytes l).length) hh
    order := congrArg poppedBytes hh
    liveSlots := fun k _ hk => absurd hk (Nat.not_lt_zero k)
    roomToWrite := fun hx => by simp [initSequence_eq, hp] at hx
    slotWritten := fun hx => nomatch hp.symm.trans hx
    sampleKept := fun hx => nomatch hq.symm.trans hx
    byteToRead := fun hx => nomatch hq.symm.trans hx
    byteRead := fun hx => nomatch hq.symm.trans hx }

theorem move_fifo {s t : State} (hm : Move s t) (hl : LegalState s) (h : FifoState s)
    (hc : s.cfg.legacyOverwrite = false) : FifoState t := by
  cases hm with
  | port => exact { h with }
  | p => exact pStep_fifo h hc
  | q => exact qStep_fifo h
  | push b => exact quietP_fifo h (p := .sample) nofun nofun b s.pTailSeen s.pOk false
  | dispatch => exact quietP_fifo h (p := .fetch) nofun nofun s.pByte s.pTailSeen s.pOk true
  | emptyByP => exact isEmptyByP_fifo h
  | sampling op => exact quietQ_fifo h (p := .sample) nofun nofun op s.qWork
  | row c => exact quietQ_fifo h (p := .idle) nofun nofun _ _
  | interpreter => exact { h with }
  | arrive b => exact record_fifo ⟨rfl, rfl⟩ { h with }
  | overrun b => exact overrunByte_fifo b h
  | init _ _ hs _ _ hq => exact initSequence_fifo hl hs hq

/-- A legal state of a conforming machine with a correct FIFO is one after every step. -/
theorem step_conforming {s t : State} (hl : LegalState s) (h : FifoState s) (hc : s.cfg.legacyOverwrite = false)
    (hstep : step s = .next t) : LegalState t ∧ FifoState t ∧ t.cfg.legacyOverwrite = false :=
  step_keeps (I := fun u => LegalState u ∧ FifoState u ∧ u.cfg.legacyOverwrite = false)
    (fun _ _ hm ⟨hl, h, hc⟩ => ⟨move_legal hm hl, move_fifo hm hl h hc, by rw [move_cfg hm, hc]⟩) ⟨hl, h, hc⟩ hstep

/-- Settles O56: legality and the parameters go with the FIFO through every move of the step. -/
theorem everyStepKeepsTheFifo : Obligations.EveryStepKeepsTheFifo := by
  unfold Obligations.EveryStepKeepsTheFifo
  intro s t hl h hc hstep
  obtain ⟨-, hfifo, -⟩ := step_conforming hl h hc hstep
  exact hfifo

end Sys2Proof.Machine

/-! ## What a read across the domains returns, and that samples never go backwards (20_memory.md R58; 10_state.md
R45) -/

namespace Sys2Proof.Machine

open Safety

/-- Every number of its window is one that a read may pick (20_memory.md R58). -/
theorem exists_pickNumber_eq {lo hi n : Nat} (hlo : lo ≤ n) (hhi : n ≤ hi) : ∃ d, pickNumber lo hi d = n := by
  refine ⟨n - lo, ?_⟩
  unfold pickNumber
  split
  · omega
  · rw [Nat.mod_eq_of_lt (by omega)]
    omega

/-- Under `VIS = Monotone` a read of `tail` by P returns the value of the number its free draw picks (R58). -/
theorem readTailFromP_monotone {s : State} (h : s.cfg.vis = .monotone) :
    (readTailFromP s).1 = pickNumber s.seenTailN s.pops (Config.freeDraw s.draw) % s.cfg.C ∧
    (readTailFromP s).2.seenTailN = pickNumber s.seenTailN s.pops (Config.freeDraw s.draw) := by
  unfold readTailFromP
  rw [h]
  exact ⟨rfl, rfl⟩

/-- Under `VIS = Monotone` a read of `head` by Q does the same (R58). -/
theorem readHeadFromQ_monotone {s : State} (h : s.cfg.vis = .monotone) :
    (readHeadFromQ s).1 = pickNumber s.seenHeadN s.pushes (Config.freeDraw s.draw) % s.cfg.C ∧
    (readHeadFromQ s).2.seenHeadN = pickNumber s.seenHeadN s.pushes (Config.freeDraw s.draw) := by
  unfold readHeadFromQ
  rw [h]
  exact ⟨rfl, rfl⟩

/-- Settles O58: the pick covers its window and stays in it, and it is what a monotone read returns. -/
theorem staleReadStaysInItsWindow : Obligations.StaleReadStaysInItsWindow := by
  unfold Obligations.StaleReadStaysInItsWindow
  refine ⟨fun _ _ _ => exists_pickNumber_eq, fun _ _ _ => pickNumber_bounds, fun s h => ?_, fun s h => ?_⟩
  · obtain ⟨htail, hseenTail⟩ := readTailFromP_monotone h
    obtain ⟨hhead, hseenHead⟩ := readHeadFromQ_monotone h
    exact ⟨htail, hseenTail, hhead, hseenHead⟩
  · rw [readTailFromP_fresh h, readHeadFromQ_fresh h]
    exact ⟨rfl, rfl⟩

/-- No sample and no counter of `t` is behind that of `s` (10_state.md R45). -/
def CountersKeepUp (s t : State) : Prop :=
  s.seenTailN ≤ t.seenTailN ∧ s.seenHeadN ≤ t.seenHeadN ∧ s.pushes ≤ t.pushes ∧ s.pops ≤ t.pops

theorem CountersKeepUp.refl (s : State) : CountersKeepUp s s := ⟨le_rfl, le_rfl, le_rfl, le_rfl⟩

theorem CountersKeepUp.trans {s t u : State} (h : CountersKeepUp s t) (h' : CountersKeepUp t u) :
    CountersKeepUp s u := by
  unfold CountersKeepUp at *
  omega

/-- What writes none of the four leaves them level. -/
theorem CountersKeepUp.of_eq {s t : State} (htail : t.seenTailN = s.seenTailN) (hhead : t.seenHeadN = s.seenHeadN)
    (hpush : t.pushes = s.pushes) (hpop : t.pops = s.pops) : CountersKeepUp s t :=
  ⟨htail.ge, hhead.ge, hpush.ge, hpop.ge⟩

theorem readTailFromP_keepsUp {s : State} (h : FifoState s) : CountersKeepUp s (readTailFromP s).2 := by
  obtain ⟨hseen, -⟩ := h.chain
  obtain ⟨-, hlo, -⟩ := readTailFromP_value h.tailNumber hseen
  exact ⟨hlo, by simp, by simp, by simp⟩

theorem sampleHead_keepsUp {s : State} (h : FifoState s) : CountersKeepUp s (sampleHead s) := by
  obtain ⟨-, -, hseen, -⟩ := h.chain
  obtain ⟨-, hlo, -⟩ := readHeadFromQ_value h.headNumber hseen
  exact ⟨by simp, hlo, by simp, by simp⟩

theorem qDone_keepsUp (s : State) : CountersKeepUp s (qDone s) := .of_eq rfl rfl rfl rfl

/-- P moves its sample forward in `P_SAMPLE` and counts a push in `P_PUBLISH` (41_receiver.md R126). -/
theorem pStep_keepsUp {s : State} (h : FifoState s) : CountersKeepUp s (pStep s) := by
  unfold pStep
  split
  · exact .refl s
  · exact .of_eq rfl rfl rfl rfl
  · unfold pSample
    split
    · exact .refl s
    · dsimp only
      split <;> exact readTailFromP_keepsUp h
  · exact .of_eq rfl rfl rfl rfl
  · exact ⟨le_rfl, le_rfl, Nat.le_succ _, le_rfl⟩
  · unfold pReturn
    split <;> exact .of_eq rfl rfl rfl rfl

theorem qSample_keepsUp {s : State} (h : FifoState s) : CountersKeepUp s (qSample s) := by
  unfold qSample
  split
  case h_6 | h_7 | h_8 => exact qDone_keepsUp s
  all_goals exact sampleHead_keepsUp h

theorem popEmpty_keepsUp (s : State) : CountersKeepUp s (popEmpty s) := by
  unfold popEmpty
  split <;> exact .of_eq rfl rfl rfl rfl

theorem qRead_keepsUp (s : State) : CountersKeepUp s (qRead s) := by
  have hpop : CountersKeepUp s (popRead s) := by
    unfold popRead
    split
    · exact popEmpty_keepsUp s
    · exact .refl s
  unfold qRead
  split
  case h_1 | h_2 | h_3 => exact hpop
  all_goals exact .of_eq rfl rfl rfl rfl

theorem qPublish_keepsUp (s : State) : CountersKeepUp s (qPublish s) := by
  unfold qPublish popReturn
  split <;> exact ⟨le_rfl, le_rfl, le_rfl, Nat.le_succ _⟩

theorem qWorkStep_keepsUp (s : State) : CountersKeepUp s (qWorkStep s) := by
  unfold qWorkStep
  split
  · exact qDone_keepsUp s
  · exact .of_eq (by simp) (by simp) (by simp) (by simp)

/-- Q moves its sample forward in `Q_SAMPLE` and counts a pop in `Q_PUBLISH` (40_ringbuffer.md R105). -/
theorem qStep_keepsUp {s : State} (h : FifoState s) : CountersKeepUp s (qStep s) := by
  unfold qStep
  split
  · exact qSample_keepsUp h
  · exact qRead_keepsUp s
  · exact qPublish_keepsUp s
  · exact qWorkStep_keepsUp s

/-- Only INIT sets the counters back, and it belongs to the startup (70_reset_and_hazards.md R207, R208). -/
theorem move_keepsUp {s t : State} (hm : Move s t) (h : FifoState s) (ha : s.life = .active) : CountersKeepUp s t := by
  cases hm with
  | port => exact .refl s
  | p => exact pStep_keepsUp h
  | q => exact qStep_keepsUp h
  | push => exact .of_eq rfl rfl rfl rfl
  | dispatch => exact .of_eq rfl rfl rfl rfl
  | emptyByP => exact readTailFromP_keepsUp h
  | sampling => exact .of_eq rfl rfl rfl rfl
  | row => exact .of_eq rfl rfl rfl rfl
  | interpreter => exact .of_eq rfl rfl rfl rfl
  | arrive => exact .of_eq rfl rfl rfl rfl
  | overrun b =>
    unfold overrunByte
    dsimp only
    split <;> exact .of_eq rfl rfl rfl rfl
  | init _ _ hs => exact startup_absurd ha hs

/-- Settles O59: the counters keep up through every move, which finds a legal state, a correct FIFO and INIT
completed. -/
theorem samplesNeverGoBackwards : Obligations.SamplesNeverGoBackwards := by
  unfold Obligations.SamplesNeverGoBackwards
  intro s t hl h hc ha hstep
  obtain ⟨-, hup⟩ := step_keeps
    (I := fun u =>
      (LegalState u ∧ FifoState u ∧ u.cfg.legacyOverwrite = false ∧ u.life = .active) ∧ CountersKeepUp s u)
    (fun u v hm ⟨⟨hl, h, hc, ha⟩, hup⟩ =>
      ⟨⟨move_legal hm hl, move_fifo hm hl h hc, by rw [move_cfg hm, hc], move_life hm ha⟩,
        hup.trans (move_keepsUp hm h ha)⟩)
    ⟨⟨hl, h, hc, ha⟩, .refl s⟩ hstep
  exact hup

end Sys2Proof.Machine

/-! ## A whole operation is its beginning and its micro-steps (20_memory.md R60; 40_ringbuffer.md R107) -/

namespace Sys2Proof.Machine

/-- The rest of P's operation is five of its micro-steps (41_receiver.md R126). -/
theorem pFinish_eq_iterate (s : State) : pFinish s = pStep^[5] s := rfl

/-- The rest of Q's operation is some number of its micro-steps. -/
theorem exists_qFinish_eq_iterate (s : State) : ∃ n, qFinish s = qStep^[n] s :=
  qFinish_keeps (I := fun t => ∃ n, t = qStep^[n] s)
    (fun _ ⟨n, hn⟩ => ⟨n + 1, by rw [Function.iterate_succ_apply', hn]⟩) ⟨0, rfl⟩

/-- Only P and Q ask whether the buffer is empty (30_encoding.md R83). -/
theorem beginIsEmpty_issuer {s t : State} (h : beginIsEmpty s = .next t) : s.issuer = .p ∨ s.issuer = .q := by
  obtain ⟨-, -, h⟩ := withLegalShape_next h
  obtain ⟨hi, -⟩ := withIssuer_next h
  simpa using hi

/-- The beginning of an operation, and then micro-steps of the agent that issued it. -/
def IsMicroStepsAfter (o : Host.Outcome State Fault Refusal) (a : Agent) (t : State) : Prop :=
  ∃ u n, o = .next u ∧ t = (if a = .q then qStep^[n] u else pStep^[n] u)

theorem microSteps_of_pFinish {o : Host.Outcome State Fault Refusal} {a : Agent} {t : State}
    (ha : ∀ u, o = .next u → a = .p) (h : thenRun o pFinish = .next t) : IsMicroStepsAfter o a t := by
  obtain ⟨u, hu, rfl⟩ := thenRun_next h
  exact ⟨u, 5, hu, by rw [if_neg (by simp [ha u hu]), pFinish_eq_iterate]⟩

theorem microSteps_of_qFinish {o : Host.Outcome State Fault Refusal} {a : Agent} {t : State}
    (ha : ∀ u, o = .next u → a = .q) (h : thenRun o qFinish = .next t) : IsMicroStepsAfter o a t := by
  obtain ⟨u, hu, rfl⟩ := thenRun_next h
  obtain ⟨n, hn⟩ := exists_qFinish_eq_iterate u
  exact ⟨u, n, hu, by rw [if_pos (ha u hu), hn]⟩

/-- An operation of one micro-step is its beginning. -/
theorem microSteps_of_begin {o : Host.Outcome State Fault Refusal} {a : Agent} {t : State} (h : o = .next t) :
    IsMicroStepsAfter o a t :=
  ⟨t, 0, h, by simp⟩

/-- Only P begins a push or the handler, and only Q a pop, a poll or a row of the interpreter's table (R83). -/
theorem exec_isMicroSteps {i : Instr} {s t : State} (h : exec i s = .next t) :
    IsMicroStepsAfter (begin i s) s.issuer t := by
  have hP : ∀ {k u}, admitP s k = .next u → s.issuer = .p := fun h => by
    obtain ⟨-, hi, -⟩ := admitP_next h
    exact hi
  have hQ : ∀ {k u}, admitQ s k = .next u → s.issuer = .q := fun h => by
    obtain ⟨-, hi, -⟩ := admitQ_next h
    exact hi
  cases i with
  | tryPush b => exact microSteps_of_pFinish (fun _ => hP) h
  | tryPop => exact microSteps_of_qFinish (fun _ => hQ) h
  | isEmpty =>
    simp only [exec, execIsEmpty] at h
    split at h
    · exact microSteps_of_pFinish (fun _ _ => ‹_›) h
    · exact microSteps_of_qFinish (fun _ hu => (beginIsEmpty_issuer hu).resolve_left ‹_›) h
  | rxIrq => exact microSteps_of_pFinish (fun _ => hP) h
  | rxArrive b => exact microSteps_of_begin h
  | readByte => exact microSteps_of_qFinish (fun _ => hQ) h
  | dataAvailable => exact microSteps_of_qFinish (fun _ => hQ) h
  | ciIter => exact microSteps_of_qFinish (fun _ => hQ) h
  | ciStep c => exact microSteps_of_qFinish (fun _ => hQ) h
  | init => exact microSteps_of_begin h

/-- Settles O50: what follows the beginning is the rest of P's or of Q's operation, and either is an iteration of that
agent's micro-step. -/
theorem wholeOperationIsItsMicroSteps : Obligations.WholeOperationIsItsMicroSteps := by
  unfold Obligations.WholeOperationIsItsMicroSteps
  exact fun _ _ _ => exec_isMicroSteps

end Sys2Proof.Machine

/-! ## `SCHED = Free` contains every scheduled step of `SCHED = Preempt` (20_memory.md R61)

Only the admission of Q reads `SCHED`, and under `Free` it refuses nothing. Every update of the state commutes with a
change of that parameter, so what a line does under `Preempt` it does under `Free`. -/

namespace Sys2Proof.Machine

/-- The same machine under `SCHED = Free`. -/
def freed (s : State) : State := { s with cfg := { s.cfg with sched := .free } }

@[simp] theorem freed_frame (s : State) :
    (freed s).life = s.life ∧ (freed s).head = s.head ∧ (freed s).tail = s.tail ∧ (freed s).rxReady = s.rxReady ∧
    (freed s).pPhase = s.pPhase ∧ (freed s).pIsr = s.pIsr ∧ (freed s).qPhase = s.qPhase ∧
    (freed s).qHeadSeen = s.qHeadSeen ∧ (freed s).qOp = s.qOp ∧ (freed s).qWork = s.qWork ∧
    (freed s).issuer = s.issuer ∧ (freed s).schedule = s.schedule ∧ (freed s).draw = s.draw ∧
    (freed s).cfg.legacyOverwrite = s.cfg.legacyOverwrite ∧ (freed s).cfg.rxOverrun = s.cfg.rxOverrun ∧
    nextIndex (freed s).cfg = nextIndex s.cfg :=
  ⟨rfl, rfl, rfl, rfl, rfl, rfl, rfl, rfl, rfl, rfl, rfl, rfl, rfl, rfl, rfl, rfl⟩

/-- An update of the state that does the same under `SCHED = Free`. -/
def Schedless (f : State → State) : Prop := ∀ s, f (freed s) = freed (f s)

/-! ### The micro-steps -/

theorem readTailFromP_freed (s : State) :
    readTailFromP (freed s) = ((readTailFromP s).1, freed (readTailFromP s).2) := by
  simp only [readTailFromP, freed]
  split <;> rfl

theorem readHeadFromQ_freed (s : State) :
    readHeadFromQ (freed s) = ((readHeadFromQ s).1, freed (readHeadFromQ s).2) := by
  simp only [readHeadFromQ, freed]
  split <;> rfl

theorem schedless_pSample : Schedless pSample := fun s => by
  simp only [pSample, readTailFromP_freed, freed_frame]
  split
  · rfl
  · split <;> rfl

theorem schedless_pReturn : Schedless pReturn := fun s => by
  simp only [pReturn, freed_frame]
  split <;> rfl

theorem schedless_pStep : Schedless pStep := fun s => by
  simp only [pStep, freed_frame]
  split
  · rfl
  · rfl
  · exact schedless_pSample s
  · rfl
  · rfl
  · exact schedless_pReturn s

theorem schedless_pFinish : Schedless pFinish := fun s => by
  simp only [pFinish, schedless_pStep _]

theorem schedless_sampleHead : Schedless sampleHead := fun s => by
  simp only [sampleHead, readHeadFromQ_freed]
  rfl

theorem schedless_qSample : Schedless qSample := fun s => by
  simp only [qSample, schedless_sampleHead _, freed_frame]
  split <;> rfl

theorem schedless_popEmpty : Schedless popEmpty := fun s => by
  simp only [popEmpty, freed_frame]
  split <;> rfl

theorem schedless_popRead : Schedless popRead := fun s => by
  simp only [popRead, schedless_popEmpty _, freed_frame]
  split <;> rfl

theorem schedless_qRead : Schedless qRead := fun s => by
  simp only [qRead, schedless_popRead _, freed_frame]
  split <;> rfl

theorem schedless_popReturn : Schedless popReturn := fun s => by
  simp only [popReturn, freed_frame]
  split <;> rfl

theorem schedless_qPublish : Schedless qPublish := fun s =>
  schedless_popReturn (record (.popSome s.qByte s.tail)
    { s with tail := nextIndex s.cfg s.tail, pops := s.pops + 1 })

theorem schedless_doAct (a : CiAct) : Schedless (doAct a) := fun s => by
  cases a with
  | effect cmd => cases cmd <;> rfl
  | transmit b => rfl
  | unknown line => rfl
  | resetLength => rfl
  | append c => rfl
  | erase => rfl
  | drop c => rfl

theorem schedless_doActs (acts : List CiAct) : Schedless (doActs acts) := fun s => by
  induction acts generalizing s with
  | nil => rfl
  | cons a rest ih => rw [doActs, schedless_doAct, ih, doActs]

theorem schedless_qWorkStep : Schedless qWorkStep := fun s => by
  simp only [qWorkStep, freed_frame]
  split
  · rfl
  · rw [schedless_doAct]
    rfl

theorem schedless_qStep : Schedless qStep := fun s => by
  simp only [qStep, freed_frame]
  split
  · exact schedless_qSample s
  · exact schedless_qRead s
  · exact schedless_qPublish s
  · exact schedless_qWorkStep s

/-! ### The rest of Q's operation -/

theorem schedless_finishWork : Schedless finishWork := fun s => by
  simp only [finishWork, schedless_doActs _ _, freed_frame]
  split <;> rfl

theorem schedless_finishRead : Schedless finishRead := fun s => by
  simp only [finishRead, schedless_qRead _, schedless_qPublish _, freed_frame]
  split <;> rfl

theorem schedless_finishPop : Schedless finishPop := fun s => by
  simp only [finishPop, schedless_qSample _, schedless_finishRead _, schedless_qPublish _, freed_frame]
  split
  · rfl
  · split <;> rfl
  · rfl
  · rfl

theorem schedless_qFinish : Schedless qFinish := fun s => by
  unfold qFinish
  rw [schedless_finishPop, schedless_finishWork]

/-! ### Admission -/

/-- What `o` answers, `o'` answers of the machine under `SCHED = Free`. -/
def FreeAllows (o o' : Host.Outcome State Fault Refusal) : Prop := ∀ t, o = .next t → o' = .next (freed t)

section
variable {s : State} {k k' : Host.Outcome State Fault Refusal}

theorem freeAllows_next {f : State → State} (hf : Schedless f) :
    FreeAllows (.next (f s)) (.next (f (freed s))) := fun t h => by
  cases h
  rw [hf]

theorem freeAllows_refused (r : Refusal) : FreeAllows (.refused r) k' := fun _ h => nomatch h

theorem FreeAllows.ite {p : Prop} [Decidable p] {o o' : Host.Outcome State Fault Refusal} (h : FreeAllows k k')
    (ho : FreeAllows o o') : FreeAllows (if p then k else o) (if p then k' else o') := by
  split <;> assumption

theorem FreeAllows.thenRun (h : FreeAllows k k') {f : State → State} (hf : Schedless f) :
    FreeAllows (thenRun k f) (thenRun k' f) := fun t ht => by
  obtain ⟨u, hu, rfl⟩ := thenRun_next ht
  rw [h u hu, Machine.thenRun, hf]

theorem FreeAllows.withLegalShape (h : FreeAllows k k') :
    FreeAllows (withLegalShape s k) (withLegalShape (freed s) k') :=
  .ite (freeAllows_refused _) (.ite (freeAllows_refused _) h)

theorem FreeAllows.withIssuer (allowed : List Agent) (h : FreeAllows k k') :
    FreeAllows (withIssuer allowed s k) (withIssuer allowed (freed s) k') := by
  simp only [Machine.withIssuer, freed_frame]
  split
  · exact freeAllows_refused _
  all_goals exact .ite h (freeAllows_refused _)

theorem FreeAllows.afterInit (h : FreeAllows k k') : FreeAllows (afterInit s k) (afterInit (freed s) k') := by
  simp only [Machine.afterInit, freed_frame]
  split
  · exact freeAllows_refused _
  · exact h

theorem FreeAllows.whenPIdle (h : FreeAllows k k') : FreeAllows (whenPIdle s k) (whenPIdle (freed s) k') :=
  .ite (freeAllows_refused _) h

/-- The one place where `SCHED` is read: under `Free` Q may always act (20_memory.md R61). -/
theorem FreeAllows.whenQMayRun (h : FreeAllows k k') : FreeAllows (whenQMayRun s k) (whenQMayRun (freed s) k') := by
  have hfree : Machine.whenQMayRun (freed s) k' = k' := by simp [Machine.whenQMayRun, freed]
  rw [hfree]
  unfold Machine.whenQMayRun
  split
  · exact freeAllows_refused _
  · exact h

theorem FreeAllows.whenQIdle (h : FreeAllows k k') : FreeAllows (whenQIdle s k) (whenQIdle (freed s) k') :=
  .whenQMayRun (.ite (freeAllows_refused _) h)

theorem FreeAllows.admitP (h : FreeAllows k k') : FreeAllows (admitP s k) (admitP (freed s) k') :=
  .withLegalShape (.withIssuer _ (.afterInit (.whenPIdle h)))

theorem FreeAllows.admitQ (h : FreeAllows k k') : FreeAllows (admitQ s k) (admitQ (freed s) k') :=
  .withLegalShape (.withIssuer _ (.afterInit (.whenQIdle h)))

end

/-! ### The operations -/

theorem beginTryPush_freed (b : Byte) (s : State) : FreeAllows (beginTryPush b s) (beginTryPush b (freed s)) :=
  .admitP (freeAllows_next (f := fun s => { s with pByte := b, pIsr := false, pPhase := .sample }) fun _ => rfl)

theorem beginRxIrq_freed (s : State) : FreeAllows (beginRxIrq s) (beginRxIrq (freed s)) :=
  .admitP (.ite (freeAllows_next (f := enterHandler) fun _ => rfl) (freeAllows_refused _))

/-- The beginning of an operation of Q that samples `head`. -/
theorem sampling_freed (op : QOp) (s : State) :
    FreeAllows (admitQ s (.next { s with qOp := op, qPhase := .sample }))
      (admitQ (freed s) (.next { freed s with qOp := op, qPhase := .sample })) :=
  .admitQ (freeAllows_next (f := fun s => { s with qOp := op, qPhase := .sample }) fun _ => rfl)

theorem schedless_isEmptyByP : Schedless isEmptyByP := fun s => by
  simp only [isEmptyByP, readTailFromP_freed]
  rfl

theorem beginIsEmpty_freed (s : State) : FreeAllows (beginIsEmpty s) (beginIsEmpty (freed s)) :=
  .withLegalShape (.withIssuer _ (.afterInit (.ite
    (.whenPIdle (freeAllows_next schedless_isEmptyByP))
    (.whenQIdle (freeAllows_next (f := fun s => { s with qOp := .isEmpty, qPhase := .sample }) fun _ => rfl)))))

theorem beginCiStep_freed (c : Byte) (s : State) : FreeAllows (beginCiStep c s) (beginCiStep c (freed s)) :=
  .admitQ (freeAllows_next (f := fun s => beginRow c { s with qOp := .ciStep }) fun _ => rfl)

theorem schedless_overrunByte (b : Byte) : Schedless (overrunByte b) := fun s => by
  simp only [overrunByte, freed_frame]
  split <;> rfl

theorem execRxArrive_freed (b : Byte) (s : State) : FreeAllows (execRxArrive b s) (execRxArrive b (freed s)) := by
  refine .withLegalShape (.withIssuer _ (.afterInit (.ite ?_ (freeAllows_next (f := arriveByte b) fun _ => rfl))))
  simp only [freed_frame]
  split
  · exact freeAllows_refused _
  · exact freeAllows_next (schedless_overrunByte b)

theorem execInit_freed (s : State) : FreeAllows (execInit s) (execInit (freed s)) := by
  refine .withLegalShape (.withIssuer _ ?_)
  simp only [freed_frame]
  split
  · exact freeAllows_refused _
  · exact .ite (freeAllows_refused _) (freeAllows_next (f := initSequence) fun _ => rfl)

theorem begin_freed (i : Instr) (s : State) : FreeAllows (begin i s) (begin i (freed s)) := by
  cases i with
  | tryPush b => exact beginTryPush_freed b s
  | tryPop => exact sampling_freed .tryPop s
  | isEmpty => exact beginIsEmpty_freed s
  | rxIrq => exact beginRxIrq_freed s
  | rxArrive b => exact execRxArrive_freed b s
  | readByte => exact sampling_freed .readByte s
  | dataAvailable => exact sampling_freed .dataAvailable s
  | ciIter => exact sampling_freed .ciIter s
  | ciStep c => exact beginCiStep_freed c s
  | init => exact execInit_freed s

theorem exec_freed (i : Instr) (s : State) : FreeAllows (exec i s) (exec i (freed s)) := by
  have hP : FreeAllows (thenRun (begin i s) pFinish) (thenRun (begin i (freed s)) pFinish) :=
    (begin_freed i s).thenRun schedless_pFinish
  have hQ : FreeAllows (thenRun (begin i s) qFinish) (thenRun (begin i (freed s)) qFinish) :=
    (begin_freed i s).thenRun schedless_qFinish
  cases i with
  | tryPush b => exact hP
  | tryPop => exact hQ
  | isEmpty =>
    simp only [exec, execIsEmpty, freed_frame]
    split
    · exact hP
    · exact hQ
  | rxIrq => exact hP
  | rxArrive b => exact execRxArrive_freed b s
  | readByte => exact hQ
  | dataAvailable => exact hQ
  | ciIter => exact hQ
  | ciStep c => exact hQ
  | init => exact execInit_freed s

/-! ### The schedule -/

theorem issueWord_freed (a : Agent) (w : Word) {run : Instr → State → Host.Outcome State Fault Refusal}
    (hrun : ∀ i s, FreeAllows (run i s) (run i (freed s))) (s : State) :
    FreeAllows (issueWord a w run s) (issueWord a w run (freed s)) := by
  unfold issueWord
  split
  · exact hrun _ { s with issuer := a }
  · exact freeAllows_refused _

theorem continueOp_freed (a : Agent) {fp fq : State → State} (hp : Schedless fp) (hq : Schedless fq) (s : State) :
    FreeAllows (continueOp a fp fq s) (continueOp a fp fq (freed s)) := by
  cases a with
  | p => exact .withLegalShape (.ite (freeAllows_next hp) (freeAllows_refused _))
  | q => exact .withLegalShape (.whenQMayRun (.ite (freeAllows_next hq) (freeAllows_refused _)))
  | e => exact freeAllows_refused _
  | s => exact freeAllows_refused _
  | further id => exact freeAllows_refused _

theorem beginInterpreter_freed (s : State) : FreeAllows (beginInterpreter s) (beginInterpreter (freed s)) :=
  .withLegalShape (.afterInit (.whenQIdle (.ite (freeAllows_refused _) (freeAllows_next
    (f := fun s => { s with
      length := 0, interpStarted := true, qOp := .ciStart, qWork := emitActs s.cfg.msgBanner }) fun _ => rfl))))

theorem takeTurn_freed (turn : Turn) (s : State) : FreeAllows (takeTurn turn s) (takeTurn turn (freed s)) := by
  cases turn with
  | issue a w => exact issueWord_freed a w exec_freed s
  | start a w => exact issueWord_freed a w begin_freed s
  | micro a => exact continueOp_freed a schedless_pStep schedless_qStep s
  | resume a => exact continueOp_freed a schedless_pFinish schedless_qFinish s
  | interpreterStart => exact beginInterpreter_freed s
  | wait => exact freeAllows_next (f := id) fun _ => rfl

/-- Settles O52: the schedule line the step takes does under `SCHED = Free` what it does under the machine's own. -/
theorem everyPreemptStepIsAFreeStep : Obligations.EveryPreemptStepIsAFreeStep := by
  unfold Obligations.EveryPreemptStepIsAFreeStep
  intro s t hsched h
  obtain ⟨turn, rest, hline⟩ := List.exists_cons_of_ne_nil hsched
  rw [step_of_line hline] at h
  show step (freed s) = .next (freed t)
  rw [step_of_line (s := freed s) hline]
  exact takeTurn_freed turn { s with schedule := rest } t h

end Sys2Proof.Machine

/-! ## The decoder, the encoder and the opcode map (30_encoding.md R80 to R87)

Everything goes by the three fields of a word: they determine it, `decode` reads them and `encode` writes them. -/

namespace Sys2Proof

/-! ### The fields -/

/-- A word is the concatenation of its fields (R80). -/
theorem append_fields (w : Word) : opcField w ++ (zeroField w ++ immField w) = w := by
  have low : zeroField w ++ immField w = w.extractLsb' 0 12 := BitVec.extractLsb'_append_extractLsb'_eq_extractLsb' rfl
  rw [low]
  exact (BitVec.extractLsb'_append_extractLsb'_eq_extractLsb' rfl).trans BitVec.extractLsb'_eq_self

theorem word_ext {w v : Word} (ho : opcField w = opcField v) (hz : zeroField w = zeroField v)
    (hi : immField w = immField v) : w = v := by
  rw [← append_fields w, ho, hz, hi, append_fields]

theorem fields_encode (i : Instr) : Laws.Fields.Statement i := by
  cases i with
  | tryPush b => exact Laws.Fields.tryPush b
  | tryPop => exact Laws.Fields.tryPop
  | isEmpty => exact Laws.Fields.isEmpty
  | rxIrq => exact Laws.Fields.rxIrq
  | rxArrive b => exact Laws.Fields.rxArrive b
  | readByte => exact Laws.Fields.readByte
  | dataAvailable => exact Laws.Fields.dataAvailable
  | ciIter => exact Laws.Fields.ciIter
  | ciStep c => exact Laws.Fields.ciStep c
  | init => exact Laws.Fields.init

@[simp] theorem opcField_encode (i : Instr) : opcField (encode i) = i.opc := (fields_encode i).1
@[simp] theorem zeroField_encode (i : Instr) : zeroField (encode i) = 0#4 := (fields_encode i).2.1
@[simp] theorem immField_encode (i : Instr) : immField (encode i) = i.imm8 := (fields_encode i).2.2

/-- The op-word with the fields of `w` is `w`. -/
theorem encode_eq_of_fields {i : Instr} {w : Word} (ho : opcField w = i.opc) (hz : zeroField w = 0#4)
    (hi : immField w = i.imm8) : encode i = w :=
  word_ext (by simp [ho]) (by simp [hz]) (by simp [hi])

/-! ### The formats (R81, R82) -/

theorem decodeOpb_eq_ok_iff {w : Word} {op : Byte → Instr} {i : Instr} :
    decodeOpb w op = .ok i ↔ zeroField w = 0#4 ∧ op (immField w) = i := by
  unfold decodeOpb
  split <;> simp [*]

theorem decodeOp0_eq_ok_iff {w : Word} {op i : Instr} :
    decodeOp0 w op = .ok i ↔ zeroField w = 0#4 ∧ immField w = 0#8 ∧ op = i := by
  unfold decodeOp0
  split
  · split <;> simp [*]
  · simp [*]

theorem decodeOpb_encode {i : Instr} {op : Byte → Instr} (h : op i.imm8 = i) : decodeOpb (encode i) op = .ok i :=
  decodeOpb_eq_ok_iff.mpr ⟨zeroField_encode i, by rw [immField_encode, h]⟩

theorem decodeOp0_encode {i : Instr} (h : i.imm8 = 0#8) : decodeOp0 (encode i) i = .ok i :=
  decodeOp0_eq_ok_iff.mpr ⟨zeroField_encode i, by rw [immField_encode, h], rfl⟩

theorem encode_of_decodeOpb {w : Word} {op : Byte → Instr} {i : Instr} (h : decodeOpb w op = .ok i)
    (ho : (opcField w).toNat = (op (immField w)).opc.toNat) (hi : (op (immField w)).imm8 = immField w) :
    encode i = w := by
  obtain ⟨hz, rfl⟩ := decodeOpb_eq_ok_iff.mp h
  exact encode_eq_of_fields (BitVec.eq_of_toNat_eq ho) hz hi.symm

theorem encode_of_decodeOp0 {w : Word} {op i : Instr} (h : decodeOp0 w op = .ok i)
    (ho : (opcField w).toNat = op.opc.toNat) (hi : op.imm8 = 0#8) : encode i = w := by
  obtain ⟨hz, himm, rfl⟩ := decodeOp0_eq_ok_iff.mp h
  exact encode_eq_of_fields (BitVec.eq_of_toNat_eq ho) hz (himm.trans hi.symm)

/-! ### The decoder -/

theorem decode_encode (i : Instr) : decode (encode i) = .ok i := by
  unfold decode
  rw [opcField_encode]
  cases i with
  | tryPush b => exact decodeOpb_encode rfl
  | tryPop => exact decodeOp0_encode rfl
  | isEmpty => exact decodeOp0_encode rfl
  | rxIrq => exact decodeOp0_encode rfl
  | rxArrive b => exact decodeOpb_encode rfl
  | readByte => exact decodeOp0_encode rfl
  | dataAvailable => exact decodeOp0_encode rfl
  | ciIter => exact decodeOp0_encode rfl
  | ciStep c => exact decodeOpb_encode rfl
  | init => exact decodeOp0_encode rfl

/-- A word that decodes has no bit that the operation does not fix. -/
theorem encode_of_decode {w : Word} {i : Instr} (h : decode w = .ok i) : encode i = w := by
  unfold decode at h
  split at h
  case h_11 => cases h
  case h_1 | h_5 | h_9 => exact encode_of_decodeOpb h ‹_› rfl
  all_goals exact encode_of_decodeOp0 h ‹_› rfl

theorem encode_injective : Function.Injective encode := fun i j h =>
  Except.ok.inj (by rw [← decode_encode i, h, decode_encode j])

/-- Settles O1: each word is decoded as the opcode map says. -/
theorem sampleWordsDecode : Obligations.SampleWordsDecode := by
  unfold Obligations.SampleWordsDecode
  decide

/-- Settles O2: each operation's opcode leads to its own format, which finds the operand in its field. -/
theorem decodeOfEncodeIsTheOperation : Obligations.DecodeOfEncodeIsTheOperation := by
  unfold Obligations.DecodeOfEncodeIsTheOperation
  exact decode_encode

/-! ### The opcode map (R86) -/

/-- The row of the opcode map that holds an operation. -/
def Instr.row (i : Instr) : OpRow :=
  match i with
  | .tryPush _ => ⟨"TRY_PUSH", 0x1000#16, 0xFF00#16⟩
  | .tryPop => ⟨"TRY_POP", 0x2000#16, 0xFFFF#16⟩
  | .isEmpty => ⟨"IS_EMPTY", 0x3000#16, 0xFFFF#16⟩
  | .rxIrq => ⟨"RX_IRQ", 0x4000#16, 0xFFFF#16⟩
  | .rxArrive _ => ⟨"RX_ARRIVE", 0x5000#16, 0xFF00#16⟩
  | .readByte => ⟨"READ_BYTE", 0x6000#16, 0xFFFF#16⟩
  | .dataAvailable => ⟨"DATA_AVAILABLE", 0x7000#16, 0xFFFF#16⟩
  | .ciIter => ⟨"CI_ITER", 0x8000#16, 0xFFFF#16⟩
  | .ciStep _ => ⟨"CI_STEP", 0x9000#16, 0xFF00#16⟩
  | .init => ⟨"INIT", 0xA000#16, 0xFFFF#16⟩

/-- A row of format OPB leaves the operand byte free. -/
theorem selects_opb_iff {m : String} {p w : Word} :
    OpRow.selects ⟨m, p, 0xFF00#16⟩ w = true ↔
      opcField w = opcField p ∧ zeroField w = zeroField p ∧ immField p = 0#8 := by
  have ho : opcField (w &&& 0xFF00#16) = opcField w := BitVec.extractLsb'_and.trans BitVec.and_allOnes
  have hz : zeroField (w &&& 0xFF00#16) = zeroField w := BitVec.extractLsb'_and.trans BitVec.and_allOnes
  have hi : immField (w &&& 0xFF00#16) = 0#8 := BitVec.extractLsb'_and.trans BitVec.and_zero
  simp only [OpRow.selects, beq_iff_eq]
  constructor
  · rintro rfl
    exact ⟨ho.symm, hz.symm, hi⟩
  · rintro ⟨ho', hz', hi'⟩
    exact word_ext (ho.trans ho') (hz.trans hz') (hi.trans hi'.symm)

/-- Of the words that a row of format OPB selects, the operand byte fixes one. -/
theorem eq_of_selects_opb {m : String} {p w v : Word} (hw : OpRow.selects ⟨m, p, 0xFF00#16⟩ w = true)
    (hv : OpRow.selects ⟨m, p, 0xFF00#16⟩ v = true) (hi : immField w = immField v) : w = v := by
  obtain ⟨ho, hz, -⟩ := selects_opb_iff.mp hw
  obtain ⟨ho', hz', -⟩ := selects_opb_iff.mp hv
  exact word_ext (ho.trans ho'.symm) (hz.trans hz'.symm) hi

/-- A row of format OP0 fixes every bit. -/
theorem selects_op0_iff {m : String} {p w : Word} : OpRow.selects ⟨m, p, 0xFFFF#16⟩ w = true ↔ w = p := by
  have hm : w &&& 0xFFFF#16 = w := BitVec.and_allOnes
  simp [OpRow.selects, hm]

theorem row_selects_encode (i : Instr) : i.row.selects (encode i) = true := by
  cases i with
  | tryPush b => exact selects_opb_iff.mpr ⟨opcField_encode _, zeroField_encode _, rfl⟩
  | tryPop => exact selects_op0_iff.mpr rfl
  | isEmpty => exact selects_op0_iff.mpr rfl
  | rxIrq => exact selects_op0_iff.mpr rfl
  | rxArrive b => exact selects_opb_iff.mpr ⟨opcField_encode _, zeroField_encode _, rfl⟩
  | readByte => exact selects_op0_iff.mpr rfl
  | dataAvailable => exact selects_op0_iff.mpr rfl
  | ciIter => exact selects_op0_iff.mpr rfl
  | ciStep c => exact selects_opb_iff.mpr ⟨opcField_encode _, zeroField_encode _, rfl⟩
  | init => exact selects_op0_iff.mpr rfl

/-- The words a row selects are op-words of the row's operation. -/
theorem exists_encode_of_selects {r : OpRow} {w : Word} (hr : r ∈ opTable) (h : r.selects w = true) :
    ∃ i : Instr, i.row = r ∧ encode i = w := by
  simp only [opTable, List.mem_cons, List.not_mem_nil, or_false] at hr
  rcases hr with rfl | rfl | rfl | rfl | rfl | rfl | rfl | rfl | rfl | rfl
  · exact ⟨.tryPush (immField w), rfl, eq_of_selects_opb (row_selects_encode _) h (immField_encode _)⟩
  · exact ⟨.tryPop, rfl, (selects_op0_iff.mp h).symm⟩
  · exact ⟨.isEmpty, rfl, (selects_op0_iff.mp h).symm⟩
  · exact ⟨.rxIrq, rfl, (selects_op0_iff.mp h).symm⟩
  · exact ⟨.rxArrive (immField w), rfl, eq_of_selects_opb (row_selects_encode _) h (immField_encode _)⟩
  · exact ⟨.readByte, rfl, (selects_op0_iff.mp h).symm⟩
  · exact ⟨.dataAvailable, rfl, (selects_op0_iff.mp h).symm⟩
  · exact ⟨.ciIter, rfl, (selects_op0_iff.mp h).symm⟩
  · exact ⟨.ciStep (immField w), rfl, eq_of_selects_opb (row_selects_encode _) h (immField_encode _)⟩
  · exact ⟨.init, rfl, (selects_op0_iff.mp h).symm⟩

/-- The map holds each operation's row once. -/
theorem filter_opTable_eq_row (i : Instr) : opTable.filter (· == i.row) = [i.row] := by
  cases i <;> rfl

theorem row_mnemonic (i : Instr) : i.row.mnemonic = i.mnemonic := by
  cases i <;> rfl

/-- An op-word selects the row of its operation and no other: what another row selects is another operation's. -/
theorem filter_selects_encode (i : Instr) : (opTable.filter fun r => r.selects (encode i)) = [i.row] := by
  rw [← filter_opTable_eq_row i]
  refine List.filter_congr fun r hr => Bool.eq_iff_iff.mpr ?_
  rw [beq_iff_eq]
  constructor
  · intro h
    obtain ⟨j, rfl, hj⟩ := exists_encode_of_selects hr h
    rw [encode_injective hj]
  · rintro rfl
    exact row_selects_encode i

/-- Settles O3: a word that decodes is the op-word of its operation, and a word that a row selects decodes. -/
theorem decoderAgreesWithTheOpcodeMap : Obligations.DecoderAgreesWithTheOpcodeMap := by
  unfold Obligations.DecoderAgreesWithTheOpcodeMap
  intro w
  split
  next i h =>
    obtain rfl := encode_of_decode h
    exact ⟨by rw [filter_selects_encode, List.map_singleton, row_mnemonic], rfl⟩
  next e h =>
    refine List.filter_eq_nil_iff.mpr fun r hr hsel => ?_
    obtain ⟨i, -, rfl⟩ := exists_encode_of_selects hr hsel
    rw [decode_encode] at h
    cases h

end Sys2Proof

/-! ## What a schedule line runs (30_encoding.md R87, R89; 20_memory.md R60, R61) -/

namespace Sys2Proof.Machine

/-! ### An op-word issued -/

theorem issueWord_of_ok {w : Word} {i : Instr} (h : decode w = .ok i) (a : Agent)
    (run : Instr → State → Host.Outcome State Fault Refusal) (s : State) :
    issueWord a w run s = run i { s with issuer := a } := by
  simp [issueWord, h]

theorem issueWord_of_error {w : Word} {e : DecodeError} (h : decode w = .error e) (a : Agent)
    (run : Instr → State → Host.Outcome State Fault Refusal) (s : State) :
    issueWord a w run s = .refused (.illegalOpWord e) := by
  simp [issueWord, h]

/-- Past its startup, a machine is presented an operation as one more schedule line. -/
theorem presentWord_encode {s : State} (h : s.life = .active) (i : Instr) :
    presentWord (encode i) s = { s with schedule := .issue (usualIssuer i) (encode i) :: s.schedule } := by
  simp [presentWord, decode_encode, readyFor, h]

/-- A word given as a number of 16 bits is that word. -/
theorem withFetchWord_toNat (s : State) (w : Word) : s.withFetchWord 16 w.toNat = presentWord w s := by
  rw [State.withFetchWord, Nat.mod_eq_of_lt w.isLt, BitVec.ofNat_toNat, BitVec.setWidth_eq]

/-- Settles O48: the line is taken, and what it issues is decoded. -/
theorem stepRunsTheIssuedOperation : Obligations.StepRunsTheIssuedOperation := by
  unfold Obligations.StepRunsTheIssuedOperation
  refine ⟨fun s a w rest hs => ⟨fun i hi => ?_, fun e he => ?_⟩, fun s i ha => ?_⟩
  · rw [step_of_line hs]
    exact issueWord_of_ok hi a exec _
  · rw [step_of_line hs]
    exact issueWord_of_error he a exec _
  · rw [withFetchWord_toNat, presentWord_encode ha, step_of_line rfl]
    exact issueWord_of_ok (decode_encode i) (usualIssuer i) exec s

/-! ### A micro-step -/

section

variable {s : State} (hw : s.cfg.wf = true) (hl : indicesLegal s = true) (f : State → State)
include hw hl

/-- An operation that P has in progress goes on. -/
theorem continueP_of_busy (hp : s.pPhase ≠ .idle) : continueP f s = .next (f s) := by
  simp [continueP, withLegalShape, hw, hl, pBusy, hp]

/-- An operation that Q has in progress goes on where the scheduler lets Q act. -/
theorem continueQ_of_busy (hs : s.cfg.sched = .free ∨ s.pPhase = .idle) (hq : s.qOp ≠ .none ∨ s.qPhase ≠ .idle) :
    continueQ f s = .next (f s) := by
  have hrun : ¬ (s.cfg.sched = .preempt ∧ pBusy s = true) := by
    rcases hs with h | h <;> simp [pBusy, h]
  have hbusy : qBusy s = true := by simpa [qBusy] using hq
  simp [continueQ, withLegalShape, whenQMayRun, hw, hl, hrun, hbusy]

end

/-- Settles O49: the line is taken, and nothing keeps the operation in progress from going on. -/
theorem stepRunsOneMicroStep : Obligations.StepRunsOneMicroStep := by
  unfold Obligations.StepRunsOneMicroStep
  refine fun s rest hw hl => ⟨fun hs hp => ?_, fun hs hsched hq => ?_⟩
  · rw [step_of_line hs]
    exact continueP_of_busy (s := { s with schedule := rest }) hw hl pStep hp
  · rw [step_of_line hs]
    exact continueQ_of_busy (s := { s with schedule := rest }) hw hl qStep hsched hq

end Sys2Proof.Machine

/-! ## The history only grows, and what it says of the order of the bytes (10_state.md R46; 40_ringbuffer.md R108) -/

namespace Sys2Proof.Machine

open Safety

/-! ### No move forgets an event -/

theorem record_grows (e : Event) (s : State) : s.history <+: (record e s).history := List.prefix_append _ _

theorem pStep_grows (s : State) : s.history <+: (pStep s).history := by
  unfold pStep
  split
  · exact List.prefix_rfl
  · exact record_grows _ _
  · unfold pSample
    split
    · exact List.prefix_rfl
    · dsimp only
      split <;> simp
  · exact List.prefix_rfl
  · exact record_grows _ _
  · unfold pReturn
    split <;> exact List.prefix_rfl

theorem doAct_grows (a : CiAct) (s : State) : s.history <+: (doAct a s).history := by
  cases a with
  | transmit b => exact record_grows _ _
  | effect cmd =>
    cases cmd with
    | help => exact List.prefix_rfl
    | ledOn => exact record_grows _ _
    | ledOff => exact record_grows _ _
    | toggle => exact record_grows _ _
    | status => exact List.prefix_rfl
  | unknown line => exact record_grows _ _
  | resetLength => exact List.prefix_rfl
  | append c => exact List.prefix_rfl
  | erase => exact List.prefix_rfl
  | drop c => exact record_grows _ _

theorem qSample_grows (s : State) : s.history <+: (qSample s).history := by
  unfold qSample
  split <;> simp

theorem popEmpty_grows (s : State) : s.history <+: (popEmpty s).history := by
  unfold popEmpty
  split <;> simp

theorem qRead_grows (s : State) : s.history <+: (qRead s).history := by
  have hpop : s.history <+: (popRead s).history := by
    unfold popRead
    split
    · exact popEmpty_grows s
    · exact List.prefix_rfl
  unfold qRead
  split
  case h_1 | h_2 | h_3 => exact hpop
  all_goals exact List.prefix_rfl

theorem qPublish_grows (s : State) : s.history <+: (qPublish s).history := by
  unfold qPublish popReturn
  split <;> exact record_grows _ _

theorem qWorkStep_grows (s : State) : s.history <+: (qWorkStep s).history := by
  unfold qWorkStep
  split
  · exact List.prefix_rfl
  · exact doAct_grows _ s

theorem qStep_grows (s : State) : s.history <+: (qStep s).history := by
  unfold qStep
  split
  · exact qSample_grows s
  · exact qRead_grows s
  · exact qPublish_grows s
  · exact qWorkStep_grows s

/-- INIT, which empties the FIFO, leaves the history as it is (70_reset_and_hazards.md R208). -/
theorem move_grows {s t : State} (hm : Move s t) : s.history <+: t.history := by
  cases hm with
  | port => exact List.prefix_rfl
  | p => exact pStep_grows s
  | q => exact qStep_grows s
  | push => exact List.prefix_rfl
  | dispatch => exact List.prefix_rfl
  | emptyByP => simp [isEmptyByP]
  | sampling => exact List.prefix_rfl
  | row => exact List.prefix_rfl
  | interpreter => exact List.prefix_rfl
  | arrive => exact record_grows _ _
  | overrun b =>
    unfold overrunByte
    dsimp only
    split
    · exact record_grows _ _
    · exact List.prefix_rfl
  | init => exact List.prefix_rfl

/-! ### Any number of steps -/

/-- A run of one step more than `n` is a step and a run of `n`. -/
theorem coreRun_succ_next {n : Nat} {s t : State} (h : Host.Core.run core (n + 1) s = .next t) :
    ∃ u, step s = .next u ∧ Host.Core.run core n u = .next t := by
  unfold core Host.Core.run at h
  split at h
  next u hu => exact ⟨u, hu, h⟩
  next => cases h
  next => cases h

/-- A property that every step keeps is kept by any number of steps. -/
theorem coreRun_keeps {I : State → Prop} (hI : ∀ s t, step s = .next t → I s → I t) {n : Nat} {s t : State}
    (h : I s) (hrun : Host.Core.run core n s = .next t) : I t := by
  induction n generalizing s with
  | zero =>
    cases hrun
    exact h
  | succ n ih =>
    obtain ⟨u, hu, hrun⟩ := coreRun_succ_next hrun
    exact ih (hI s u hu h) hrun

/-- The history only grows. -/
theorem step_grows {s t : State} (h : step s = .next t) : s.history <+: t.history :=
  step_keeps (I := fun u => s.history <+: u.history) (fun _ _ hm hu => hu.trans (move_grows hm)) List.prefix_rfl h

/-- What has been popped is a beginning of what has been pushed (R108). -/
theorem popped_prefix_pushed {s : State} (h : FifoState s) : poppedBytes s.history <+: pushedBytes s.history := by
  rw [h.order]
  exact List.take_prefix _ _

/-- No more has been popped than pushed, and at most `C - 1` bytes are left. -/
theorem occupancy_of_fifo {s : State} (h : FifoState s) :
    s.pops ≤ s.pushes ∧ s.pushes - s.pops ≤ s.cfg.C - 1 := by
  obtain ⟨hseen, hpop, hhead, hroom⟩ := h.chain
  omega

/-- Settles O57: the steps keep the FIFO correct, which orders the bytes, and they only add to the history. -/
theorem bytesLeaveInTheOrderTheyEntered : Obligations.BytesLeaveInTheOrderTheyEntered := by
  unfold Obligations.BytesLeaveInTheOrderTheyEntered
  intro n s t hl h hc hrun
  obtain ⟨⟨-, hfifo, -⟩, hgrows⟩ := coreRun_keeps
    (I := fun u => (LegalState u ∧ FifoState u ∧ u.cfg.legacyOverwrite = false) ∧ s.history <+: u.history)
    (fun _ _ hstep ⟨⟨hl, h, hc⟩, hu⟩ => ⟨step_conforming hl h hc hstep, hu.trans (step_grows hstep)⟩)
    ⟨⟨hl, h, hc⟩, List.prefix_rfl⟩ hrun
  exact ⟨popped_prefix_pushed hfifo, hgrows.filterMap _, hgrows.filterMap _, occupancy_of_fifo hfifo⟩

end Sys2Proof.Machine

/-! ## The operations of the RingBuffer (40_ringbuffer.md R101 to R112) -/

namespace Sys2Proof.Machine

open Safety

/-! ### The occupancy -/

/-- Where `head` is not behind `tail` the occupancy is what lies between them; otherwise the wrap adds `C` (R101). -/
theorem liveCount_eq {s : State} (hh : s.head < s.cfg.C) (ht : s.tail < s.cfg.C) :
    liveCount s = if s.tail ≤ s.head then s.head - s.tail else s.head + s.cfg.C - s.tail := by
  unfold liveCount
  split
  · rw [show s.head + s.cfg.C - s.tail = s.head - s.tail + s.cfg.C by omega, Nat.add_mod_right,
      Nat.mod_eq_of_lt (by omega)]
  · exact Nat.mod_eq_of_lt (by omega)

/-- The increment of an index in range, as the two cases of R100. -/
theorem nextIndex_eq_ite {c : Config} {i : Nat} (hi : i < c.C) :
    nextIndex c i = if i + 1 = c.C then 0 else i + 1 := by
  split
  · exact nextIndex_last ‹_›
  · exact nextIndex_of_lt (by omega)

/-- Settles O12: by cases on whether the bytes held wrap round the end of the array. -/
theorem liveCountTellsEmptyAndFull : Obligations.LiveCountTellsEmptyAndFull := by
  unfold Obligations.LiveCountTellsEmptyAndFull
  intro s hw hh ht
  have hC := two_le_C_of_wf hw
  simp only [isEmptyNow, isFullNow, beq_iff_eq, liveCount_eq hh ht, nextIndex_eq_ite hh]
  split <;> split <;> omega

/-! ### TRY_PUSH (R104, R109) -/

/-- P with a direct push of `b` begun (41_receiver.md R126, third row). -/
def pushBegun (b : Byte) (s : State) : State := { s with pByte := b, pIsr := false, pPhase := .sample }

/-- The sample of `tail` does not depend on the byte in hand. -/
theorem readTailFromP_pushBegun (b : Byte) (s : State) :
    readTailFromP (pushBegun b s) = ((readTailFromP s).1, pushBegun b (readTailFromP s).2) := by
  simp only [readTailFromP, pushBegun]
  split <;> rfl

/-- A direct push, and IS_EMPTY by P, return their result word. -/
theorem pReturn_direct {s : State} (h : s.pIsr = false) :
    pReturn s = { s with pPhase := .idle, results := s.results ++ [(.p, boolWord s.pOk)] } := by
  simp [pReturn, h, deliver]

/-- A push that P may begin runs to its return. -/
theorem exec_tryPush {s : State} (h : ReadyP s) (b : Byte) :
    exec (.tryPush b) s = .next (pFinish (pushBegun b s)) := by
  obtain ⟨hop, hi, hp⟩ := h
  rw [exec, execTryPush, beginTryPush, admitP_eq _ hop hi hp]
  rfl

/-- The push finds room at its sample. -/
theorem exec_tryPush_of_room {s : State} (h : ReadyP s) (b : Byte) (hl : s.cfg.legacyOverwrite = false)
    (hr : nextIndex s.cfg s.head ≠ (readTailFromP s).1) :
    exec (.tryPush b) s = .next { (readTailFromP s).2 with
      storage := memPut s.storage s.head b, head := nextIndex s.cfg s.head, pushes := s.pushes + 1,
      history := s.history ++ [.pushOk b s.head], results := s.results ++ [(.p, 0x0001#16)],
      pByte := b, pTailSeen := (readTailFromP s).1, pOk := true, pIsr := false } := by
  have hread := readTailFromP_pushBegun b s
  rw [exec_tryPush h, pFinish_of_room (s := pushBegun b s) rfl hl (by rwa [hread]), hread, pReturn_direct rfl]
  obtain ⟨-, -, hp⟩ := h
  simp [pushBegun, boolWord, hp]

/-- The push finds the buffer full at its sample. -/
theorem exec_tryPush_of_full {s : State} (h : ReadyP s) (b : Byte) (hl : s.cfg.legacyOverwrite = false)
    (hr : nextIndex s.cfg s.head = (readTailFromP s).1) :
    exec (.tryPush b) s = .next { (readTailFromP s).2 with
      history := s.history ++ [.dataLoss b], results := s.results ++ [(.p, 0x0000#16)],
      pByte := b, pTailSeen := (readTailFromP s).1, pOk := false, pIsr := false } := by
  have hread := readTailFromP_pushBegun b s
  rw [exec_tryPush h, pFinish_of_full (s := pushBegun b s) rfl hl (by rwa [hread]), hread, pReturn_direct rfl]
  obtain ⟨-, -, hp⟩ := h
  simp [pushBegun, boolWord, hp]

/-- Settles O13: what a push does whose sample shows room. -/
theorem tryPushStoresAndAdvances : Obligations.TryPushStoresAndAdvances := by
  unfold Obligations.TryPushStoresAndAdvances
  exact fun _ b h => exec_tryPush_of_room h b

/-- Settles O14: what a push does whose sample shows the buffer full. -/
theorem tryPushRejectsWhenFull : Obligations.TryPushRejectsWhenFull := by
  unfold Obligations.TryPushRejectsWhenFull
  exact fun _ b h => exec_tryPush_of_full h b

/-- Settles O15: the legacy push has no sample, and on a full buffer `next(head)` is `tail`. -/
theorem legacyPushNeverLooks : Obligations.LegacyPushNeverLooks := by
  unfold Obligations.LegacyPushNeverLooks
  intro s b h hl
  have hexec : exec (.tryPush b) s = _ := exec_tryPush h b
  rw [pFinish_of_legacy (s := pushBegun b s) rfl hl, pReturn_direct rfl] at hexec
  refine ⟨_, hexec, ?_, id⟩
  obtain ⟨-, -, hp⟩ := h
  simp [pushBegun, boolWord, hp]

/-! ### TRY_POP (R105) -/

/-- An operation of Q that samples `head`, begun. -/
def samplingBegun (op : QOp) (s : State) : State := { s with qOp := op, qPhase := .sample }

/-- The sample of `head` does not depend on the operation. -/
theorem readHeadFromQ_samplingBegun (op : QOp) (s : State) :
    readHeadFromQ (samplingBegun op s) = ((readHeadFromQ s).1, samplingBegun op (readHeadFromQ s).2) :=
  readHeadFromQ_withOp s op .sample

/-- Q may begin an operation where nothing of P's keeps it out (20_memory.md R61). -/
theorem not_preempted {s : State} (h : s.cfg.sched = .free ∨ s.pPhase = .idle) :
    ¬ (s.cfg.sched = .preempt ∧ pBusy s = true) := by
  rcases h with h | h <;> simp [pBusy, h]

/-- A pop that Q may begin runs to its return. -/
theorem exec_tryPop {s : State} (h : ReadyQ s) : exec .tryPop s = .next (qFinish (samplingBegun .tryPop s)) := by
  obtain ⟨hop, hi, ho, hp, hs⟩ := h
  rw [exec, execTryPop, beginTryPop, admitQ_eq _ hop hi ho hp (not_preempted hs)]
  rfl

/-- Settles O16: the pop ends at once, with the byte or with the `None` that its sample shows. -/
theorem tryPopReturnsTheByteAtTailOrNone : Obligations.TryPopReturnsTheByteAtTailOrNone := by
  unfold Obligations.TryPopReturnsTheByteAtTailOrNone
  intro s h
  have hread := readHeadFromQ_samplingBegun .tryPop s
  rw [exec_tryPop h]
  obtain ⟨-, -, ho, hp, -⟩ := h
  refine ⟨fun hb => ?_, fun hb => ?_⟩
  · rw [qFinish_of_byte (s := samplingBegun .tryPop s) rfl (.inl rfl) (by rwa [hread]), hread, popReturn]
    simp [samplingBegun, slotByte, finishWork, doActs, qDone, deliver, optionByteWord, ho, hp]
  · rw [qFinish_of_none (s := samplingBegun .tryPop s) rfl (.inl rfl) (by rwa [hread]), hread, popEmpty]
    simp [samplingBegun, finishWork, doActs, qDone, deliver, record, optionByteWord, ho, hp]

/-! ### IS_EMPTY (R106) -/

/-- Q's answer is that its sample is its own pointer. -/
theorem exec_isEmpty_of_readyQ {s : State} (h : ReadyQ s) :
    exec .isEmpty s = .next { (readHeadFromQ s).2 with
      results := s.results ++ [(.q, if (readHeadFromQ s).1 = s.tail then 0x0001#16 else 0x0000#16)],
      qHeadSeen := (readHeadFromQ s).1, qWork := [] } := by
  obtain ⟨⟨hw, hl, ha⟩, hi, ho, hp, hs⟩ := h
  have hread := readHeadFromQ_samplingBegun .isEmpty s
  have hbegin : beginIsEmpty s = .next (samplingBegun .isEmpty s) := by
    simp [beginIsEmpty, withLegalShape, withIssuer, afterInit, whenQIdle, whenQMayRun, qBusy, not_preempted hs,
      hw, hl, ha, hi, ho, hp, samplingBegun]
  rw [exec, execIsEmpty, hbegin, hi, if_neg nofun, thenRun,
    qFinish_of_isEmpty (s := samplingBegun .isEmpty s) rfl rfl, hread]
  simp [samplingBegun, qDone, deliver, boolWord, ho, hp]

/-- P's answer is that its own pointer is its sample. -/
theorem exec_isEmpty_of_readyP {s : State} (h : ReadyP s) :
    exec .isEmpty s = .next { (readTailFromP s).2 with
      results := s.results ++ [(.p, if s.head = (readTailFromP s).1 then 0x0001#16 else 0x0000#16)],
      pTailSeen := (readTailFromP s).1, pOk := s.head == (readTailFromP s).1, pIsr := false } := by
  obtain ⟨⟨hw, hl, ha⟩, hi, hp⟩ := h
  have hbegin : beginIsEmpty s = .next (isEmptyByP s) := by
    simp [beginIsEmpty, withLegalShape, withIssuer, afterInit, whenPIdle, pBusy, hw, hl, ha, hi, hp]
  have hfinish : pFinish (isEmptyByP s) = pReturn (isEmptyByP s) := by
    have hstep : pStep (isEmptyByP s) = pReturn (isEmptyByP s) := rfl
    simp only [pFinish, hstep, pStep_of_idle (pReturn_idle _)]
  rw [exec, execIsEmpty, hbegin, if_pos hi, thenRun, hfinish, pReturn_direct rfl]
  simp [isEmptyByP, boolWord, hp]

/-- Settles O17: the operation is one sample and the return of the comparison, from either side. -/
theorem isEmptyComparesOwnPointerWithSample : Obligations.IsEmptyComparesOwnPointerWithSample := by
  unfold Obligations.IsEmptyComparesOwnPointerWithSample
  exact ⟨fun _ => exec_isEmpty_of_readyQ, fun _ => exec_isEmpty_of_readyP⟩

/-! ### What an answer says of the pointers themselves, however stale the sample (R104, R106; 20_memory.md R58, R68) -/

/-- A push is admitted where P may begin it. -/
theorem readyP_of_tryPush {b : Byte} {s t : State} (h : exec (.tryPush b) s = .next t) : ReadyP s := by
  obtain ⟨u, hu⟩ := exec_begins h
  obtain ⟨hop, hi, hp, -⟩ := admitP_next hu
  exact ⟨hop, hi, hp⟩

/-- IS_EMPTY is admitted where P, or Q, may begin it. -/
theorem ready_of_isEmpty {s t : State} (h : exec .isEmpty s = .next t) : ReadyP s ∨ ReadyQ s := by
  obtain ⟨u, hu⟩ := exec_begins h
  obtain ⟨hw, hl, hu⟩ := withLegalShape_next hu
  obtain ⟨hi, hu⟩ := withIssuer_next hu
  obtain ⟨ha, hu⟩ := afterInit_next hu
  split at hu
  next hip =>
    obtain ⟨hp, -⟩ := whenPIdle_next hu
    exact .inl ⟨⟨hw, hl, ha⟩, hip, hp⟩
  next hip =>
    obtain ⟨ho, hp, hs, -⟩ := whenQIdle_next hu
    refine .inr ⟨⟨hw, hl, ha⟩, ?_, ho, hp, ?_⟩
    · simpa [hip] using hi
    · cases hsched : s.cfg.sched with
      | free => exact .inl rfl
      | preempt => exact .inr (by simpa [hsched, pBusy] using hs)

/-- The pointers are equal where the counters are: the counters are less than `C` apart. -/
theorem head_eq_tail_iff {s : State} (h : FifoState s) : s.head = s.tail ↔ s.pushes = s.pops := by
  obtain ⟨hseen, hpop, hhead, hroom⟩ := h.chain
  rw [h.headNumber, h.tailNumber]
  exact ⟨fun he => (eq_of_mod_eq (hpop.trans hhead) (by omega) he.symm).symm, fun he => by rw [he]⟩

/-- The buffer is full where one push more would bring the counters `C` apart. -/
theorem isFullNow_iff {s : State} (h : FifoState s) : isFullNow s = true ↔ s.pushes + 1 = s.pops + s.cfg.C := by
  obtain ⟨hseen, hpop, hhead, hroom⟩ := h.chain
  rw [isFullNow, beq_iff_eq, h.headNumber, h.tailNumber, nextIndex_mod]
  constructor
  · intro he
    by_contra hne
    have := eq_of_mod_eq (show s.pops ≤ s.pushes + 1 by omega) (by omega) he.symm
    omega
  · intro he
    rw [he, Nat.add_mod_right]

/-- A sample of `head` that is not `tail` shows a byte that is there. -/
theorem head_ne_tail_of_sample {s : State} (h : FifoState s) (hne : (readHeadFromQ s).1 ≠ s.tail) :
    s.head ≠ s.tail := by
  obtain ⟨-, hpop, hhead, -⟩ := h.chain
  obtain ⟨hv, hlo, hhi⟩ := readHeadFromQ_value h.headNumber hhead
  rw [Ne, head_eq_tail_iff h]
  intro he
  refine hne ?_
  rw [hv, h.tailNumber, show (readHeadFromQ s).2.seenHeadN = s.pops by omega]

/-- A sample of `tail` that `head` has reached is not behind it. -/
theorem head_eq_tail_of_sample {s : State} (h : FifoState s) (he : s.head = (readTailFromP s).1) :
    s.head = s.tail := by
  obtain ⟨hseen, hpop, hhead, hroom⟩ := h.chain
  obtain ⟨hv, hlo, hhi⟩ := readTailFromP_value h.tailNumber hseen
  rw [hv, h.headNumber] at he
  have := eq_of_mod_eq (show (readTailFromP s).2.seenTailN ≤ s.pushes by omega) (by omega) he.symm
  rw [head_eq_tail_iff h]
  omega

/-- Settles O18: the samples are behind the pointers, so what Q sees is there and what P sees gone is gone. -/
theorem isEmptyAnswersAreReliable : Obligations.IsEmptyAnswersAreReliable := by
  unfold Obligations.IsEmptyAnswersAreReliable
  intro s t _ h _ hexec
  rcases ready_of_isEmpty hexec with hr | hr
  · rw [exec_isEmpty_of_readyP hr] at hexec
    obtain ⟨-, hi, -⟩ := hr
    cases hexec
    refine ⟨fun hq => absurd (hi.symm.trans hq) nofun, fun _ hres => ?_⟩
    have he : s.head = (readTailFromP s).1 := by simpa using hres
    simpa [isEmptyNow] using head_eq_tail_of_sample h he
  · rw [exec_isEmpty_of_readyQ hr] at hexec
    obtain ⟨-, hi, -⟩ := hr
    cases hexec
    refine ⟨fun _ hres => ?_, fun hp => absurd (hi.symm.trans hp) nofun⟩
    have hne : (readHeadFromQ s).1 ≠ s.tail := by simpa using hres
    simpa [isEmptyNow] using head_ne_tail_of_sample h hne

/-- Settles O19: an accepted push leaves P's sample, and so `tail` itself, one slot more than the buffer was short of;
under `VIS = Fresh` the sample is `tail`. -/
theorem pushIsNeverAcceptedWhenFull : Obligations.PushIsNeverAcceptedWhenFull := by
  unfold Obligations.PushIsNeverAcceptedWhenFull
  intro s t b _ h hl hexec
  have hr := readyP_of_tryPush hexec
  by_cases hfull : nextIndex s.cfg s.head = (readTailFromP s).1
  · rw [exec_tryPush_of_full hr b hl hfull] at hexec
    cases hexec
    refine ⟨fun hh => by simp at hh, fun hv _ => ?_⟩
    rw [readTailFromP_fresh hv] at hfull
    simpa [isFullNow] using hfull
  · rw [exec_tryPush_of_room hr b hl hfull] at hexec
    cases hexec
    refine ⟨fun _ => ?_, fun _ hh => by simp at hh⟩
    obtain ⟨hs, hv⟩ := readTailFromP_fifo h
    obtain ⟨hseen, -, -, hroom⟩ := hs.chain
    have hroom := room_of_sample h (by simpa using hroom) (hv ▸ hfull)
    rw [Bool.eq_false_iff, Ne, isFullNow_iff h]
    simp only [readTailFromP_frame] at hseen
    omega

end Sys2Proof.Machine

/-! ## A pointer moves by `next` only (40_ringbuffer.md R100)

Each agent advances its own pointer in one micro-step, and the rest of its operation does not come back to it. -/

namespace Sys2Proof.Machine

open Safety

/-! ### P and `head` -/

/-- P advances `head` in `P_PUBLISH` and only there (41_receiver.md R126). -/
theorem pStep_head (s : State) :
    (pStep s).head = if s.pPhase = .publish then nextIndex s.cfg s.head else s.head := by
  unfold pStep
  split
  case h_3 hp =>
    unfold pSample
    split
    · simp [hp]
    · dsimp only
      split <;> simp [hp]
  case h_6 hp =>
    unfold pReturn
    split <;> simp [hp]
  all_goals simp [pFetch, pWrite, pPublish, *]

/-- `head` is where it was in `s`, or P has advanced it once and only the return is left. -/
def HeadAdvancedAtMostOnce (s t : State) : Prop :=
  t.cfg = s.cfg ∧ (t.head = s.head ∨ t.head = nextIndex s.cfg s.head ∧ (t.pPhase = .ret ∨ t.pPhase = .idle))

/-- Once `head` has advanced, P only returns. -/
theorem pStep_headAdvancedAtMostOnce {s t : State} (h : HeadAdvancedAtMostOnce s t) :
    HeadAdvancedAtMostOnce s (pStep t) := by
  obtain ⟨hc, hh | ⟨hh, hp⟩⟩ := h
  · refine ⟨by simp [hc], ?_⟩
    by_cases hp : t.pPhase = .publish
    · exact .inr ⟨by simp [pStep_head, hp, hc, hh], .inl (by simp [pStep, hp, pPublish])⟩
    · exact .inl (by simp [pStep_head, hp, hh])
  · refine ⟨by simp [hc], .inr ?_⟩
    rcases hp with hp | hp
    · exact ⟨by simp [pStep_head, hp, hh], .inr (by simp [pStep, hp, pReturn_idle])⟩
    · simp [pStep_of_idle hp, hp, hh]

/-- The rest of P's operation advances `head` at most once. -/
theorem pFinish_head (s : State) : (pFinish s).head = s.head ∨ (pFinish s).head = nextIndex s.cfg s.head := by
  obtain ⟨-, hh⟩ := pFinish_keeps (I := HeadAdvancedAtMostOnce s) (fun _ => pStep_headAdvancedAtMostOnce)
    ⟨rfl, .inl rfl⟩
  exact hh.imp_right And.left

/-! ### Q and `tail` -/

/-- The return of a pop moves no pointer, and leaves `Q_PUBLISH`. -/
theorem popReturn_tail (s : State) : (popReturn s).tail = s.tail ∧ (popReturn s).qPhase = .idle := by
  unfold popReturn
  split <;> simp [beginRow]

/-- Q advances `tail` in `Q_PUBLISH` and only there (40_ringbuffer.md R105). -/
theorem qStep_tail (s : State) :
    (qStep s).tail = if s.qPhase = .publish then nextIndex s.cfg s.tail else s.tail := by
  unfold qStep
  split
  case h_1 hp =>
    unfold qSample
    split <;> simp [hp]
  case h_2 hp =>
    have hpop : (popRead s).tail = s.tail := by
      unfold popRead popEmpty
      split
      · split <;> simp
      · rfl
    unfold qRead
    split <;> simp [hp, hpop]
  case h_3 hp => simp [hp, qPublish, popReturn_tail]
  case h_4 hp =>
    unfold qWorkStep
    split <;> simp [hp]

/-- `tail` is where it was in `s`, or Q has advanced it once and only the interpreter's work is left. -/
def TailAdvancedAtMostOnce (s t : State) : Prop :=
  t.cfg = s.cfg ∧ (t.tail = s.tail ∨ t.tail = nextIndex s.cfg s.tail ∧ t.qPhase = .idle)

/-- At the interpreter's work Q stays in `Q_IDLE` (10_state.md R32). -/
theorem qStep_phase_of_idle {s : State} (h : s.qPhase = .idle) : (qStep s).qPhase = .idle := by
  simp only [qStep, h, qWorkStep]
  split <;> simp [h]

/-- Once `tail` has advanced, Q only works off the byte's row. -/
theorem qStep_tailAdvancedAtMostOnce {s t : State} (h : TailAdvancedAtMostOnce s t) :
    TailAdvancedAtMostOnce s (qStep t) := by
  obtain ⟨hc, ht | ⟨ht, hp⟩⟩ := h
  · refine ⟨by simp [hc], ?_⟩
    by_cases hp : t.qPhase = .publish
    · exact .inr ⟨by simp [qStep_tail, hp, hc, ht], by simp [qStep, hp, qPublish, popReturn_tail]⟩
    · exact .inl (by simp [qStep_tail, hp, ht])
  · exact ⟨by simp [hc], .inr ⟨by simp [qStep_tail, hp, ht], qStep_phase_of_idle hp⟩⟩

/-- The rest of Q's operation advances `tail` at most once. -/
theorem qFinish_tail (s : State) : (qFinish s).tail = s.tail ∨ (qFinish s).tail = nextIndex s.cfg s.tail := by
  obtain ⟨-, ht⟩ := qFinish_keeps (I := TailAdvancedAtMostOnce s) (fun _ => qStep_tailAdvancedAtMostOnce)
    ⟨rfl, .inl rfl⟩
  exact ht.imp_right And.left

theorem qFinish_head (s : State) : (qFinish s).head = s.head :=
  qFinish_keeps (I := fun t => t.head = s.head) (fun t ht => by simpa using ht) rfl

/-! ### The schedule -/

/-- Each pointer of `t` is that of `s`, or the next, or INIT has set it (70_reset_and_hazards.md R208). -/
def PointersAdvance (s t : State) : Prop :=
  (t.head = s.head ∨ t.head = nextIndex s.cfg s.head ∨ (s.life = .startup ∧ t.head = 0)) ∧
  (t.tail = s.tail ∨ t.tail = nextIndex s.cfg s.tail ∨ (s.life = .startup ∧ t.tail = 0))

/-- The pointers of `t`, and the `C` they wrap at, are those of `s`. -/
def PointersStay (s t : State) : Prop := t.cfg = s.cfg ∧ t.head = s.head ∧ t.tail = s.tail

theorem PointersStay.advance {s t : State} (h : PointersStay s t) : PointersAdvance s t := by
  obtain ⟨-, hh, ht⟩ := h
  exact ⟨.inl hh, .inl ht⟩

theorem PointersStay.pFinish {s t : State} (h : PointersStay s t) : PointersAdvance s (pFinish t) := by
  obtain ⟨hc, hh, ht⟩ := h
  have hhead := pFinish_head t
  rw [hc, hh] at hhead
  exact ⟨hhead.imp_right .inl, .inl (by simp [ht])⟩

theorem PointersStay.qFinish {s t : State} (h : PointersStay s t) : PointersAdvance s (qFinish t) := by
  obtain ⟨hc, hh, ht⟩ := h
  have htail := qFinish_tail t
  rw [hc, ht] at htail
  exact ⟨.inl (by rw [qFinish_head, hh]), htail.imp_right .inl⟩

theorem pStep_pointers (s : State) : PointersAdvance s (pStep s) := by
  refine ⟨?_, .inl (by simp)⟩
  rw [pStep_head]
  split <;> simp

theorem qStep_pointers (s : State) : PointersAdvance s (qStep s) := by
  refine ⟨.inl (by simp), ?_⟩
  rw [qStep_tail]
  split <;> simp

theorem initSequence_pointers {s : State} (h : s.life = .startup) : PointersAdvance s (initSequence s) :=
  ⟨.inr (.inr ⟨h, rfl⟩), .inr (.inr ⟨h, rfl⟩)⟩

theorem overrunByte_pointers (b : Byte) (s : State) : PointersStay s (overrunByte b s) := by
  unfold overrunByte
  dsimp only
  split <;> exact ⟨rfl, rfl, rfl⟩

/-- The beginning of an operation moves no pointer, INIT's apart. -/
theorem begin_pointers {i : Instr} {s t : State} (h : begin i s = .next t) (hi : i ≠ .init) : PointersStay s t := by
  have hQ : ∀ {u}, admitQ s (.next u) = .next t → t = u := fun h => by
    obtain ⟨-, -, -, -, -, h⟩ := admitQ_next h
    exact (Host.Outcome.next.inj h).symm
  cases i with
  | tryPush b =>
    obtain ⟨-, -, -, h⟩ := admitP_next h
    cases h
    exact ⟨rfl, rfl, rfl⟩
  | isEmpty =>
    obtain ⟨-, -, h⟩ := withLegalShape_next h
    obtain ⟨-, h⟩ := withIssuer_next h
    obtain ⟨-, h⟩ := afterInit_next h
    split at h
    · obtain ⟨-, h⟩ := whenPIdle_next h
      cases h
      simp [PointersStay, isEmptyByP]
    · obtain ⟨-, -, -, h⟩ := whenQIdle_next h
      cases h
      exact ⟨rfl, rfl, rfl⟩
  | rxIrq =>
    obtain ⟨-, -, rfl⟩ := beginRxIrq_next h
    exact ⟨rfl, rfl, rfl⟩
  | rxArrive b =>
    obtain ⟨-, -, h⟩ := withLegalShape_next h
    obtain ⟨-, h⟩ := withIssuer_next h
    obtain ⟨-, h⟩ := afterInit_next h
    split at h
    · split at h <;> cases h
      exact overrunByte_pointers b s
    · cases h
      exact ⟨rfl, rfl, rfl⟩
  | init => exact absurd rfl hi
  | ciStep c | tryPop | readByte | dataAvailable | ciIter =>
    obtain rfl := hQ h
    exact ⟨rfl, rfl, rfl⟩

/-- A whole operation is its beginning alone, or its beginning and the rest of P's or of Q's operation. -/
theorem exec_next {i : Instr} {s t : State} (h : exec i s = .next t) :
    begin i s = .next t ∨ i ≠ .init ∧ ∃ u, begin i s = .next u ∧ (t = pFinish u ∨ t = qFinish u) := by
  have hP : ∀ {o}, thenRun o pFinish = .next t → ∃ u, o = .next u ∧ (t = pFinish u ∨ t = qFinish u) := fun h => by
    obtain ⟨u, hu, ht⟩ := thenRun_next h
    exact ⟨u, hu, .inl ht⟩
  have hQ : ∀ {o}, thenRun o qFinish = .next t → ∃ u, o = .next u ∧ (t = pFinish u ∨ t = qFinish u) := fun h => by
    obtain ⟨u, hu, ht⟩ := thenRun_next h
    exact ⟨u, hu, .inr ht⟩
  cases i with
  | tryPush b => exact .inr ⟨nofun, hP h⟩
  | tryPop => exact .inr ⟨nofun, hQ h⟩
  | isEmpty =>
    simp only [exec, execIsEmpty] at h
    split at h
    · exact .inr ⟨nofun, hP h⟩
    · exact .inr ⟨nofun, hQ h⟩
  | rxIrq => exact .inr ⟨nofun, hP h⟩
  | rxArrive b => exact .inl h
  | readByte => exact .inr ⟨nofun, hQ h⟩
  | dataAvailable => exact .inr ⟨nofun, hQ h⟩
  | ciIter => exact .inr ⟨nofun, hQ h⟩
  | ciStep c => exact .inr ⟨nofun, hQ h⟩
  | init => exact .inl h

theorem begin_advances {i : Instr} {s t : State} (h : begin i s = .next t) : PointersAdvance s t := by
  by_cases hi : i = .init
  · subst hi
    obtain ⟨hs, rfl⟩ := execInit_next h
    exact initSequence_pointers hs
  · exact (begin_pointers h hi).advance

theorem exec_advances {i : Instr} {s t : State} (h : exec i s = .next t) : PointersAdvance s t := by
  rcases exec_next h with h | ⟨hi, u, hu, rfl | rfl⟩
  · exact begin_advances h
  · exact (begin_pointers hu hi).pFinish
  · exact (begin_pointers hu hi).qFinish

theorem takeTurn_advances {turn : Turn} {s t : State} (h : takeTurn turn s = .next t) : PointersAdvance s t := by
  have hstay : PointersStay s s := ⟨rfl, rfl, rfl⟩
  cases turn with
  | issue a w =>
    obtain ⟨i, -, h⟩ := issueWord_next h
    exact exec_advances (s := { s with issuer := a }) h
  | start a w =>
    obtain ⟨i, -, h⟩ := issueWord_next h
    exact begin_advances (s := { s with issuer := a }) h
  | micro a =>
    rcases continueOp_next h with rfl | rfl
    · exact pStep_pointers s
    · exact qStep_pointers s
  | resume a =>
    rcases continueOp_next h with rfl | rfl
    · exact hstay.pFinish
    · exact hstay.qFinish
  | interpreterStart =>
    obtain ⟨-, -, h⟩ := withLegalShape_next h
    obtain ⟨-, h⟩ := afterInit_next h
    obtain ⟨-, -, -, h⟩ := whenQIdle_next h
    split at h
    · cases h
    · cases h
      exact ⟨.inl rfl, .inl rfl⟩
  | wait =>
    cases h
    exact hstay.advance

theorem step_advances {s t : State} (h : step s = .next t) : PointersAdvance s t := by
  cases hs : s.schedule with
  | cons turn rest =>
    rw [step_of_line hs] at h
    exact takeTurn_advances (s := { s with schedule := rest }) h
  | nil =>
    rw [step_of_no_line hs] at h
    exact takeTurn_advances (s := { s with draw := s.draw + 1 }) h

/-- Settles O11: a step is one turn, and a turn takes each pointer past at most one advance. -/
theorem pointersAdvanceByNextOnly : Obligations.PointersAdvanceByNextOnly := by
  unfold Obligations.PointersAdvanceByNextOnly
  exact ⟨fun _ _ _ => ⟨nextIndex_of_lt, nextIndex_last, rfl⟩, fun _ _ => step_advances⟩

end Sys2Proof.Machine

/-! ## The capacity test (40_ringbuffer.md R112)

The reserved slot leaves `C - 1` places. The state after any number of pushes is described once, and every push,
accepted or rejected, leads from one such state to the next. -/

namespace Sys2Proof.Machine

open Safety

/-- A machine past INIT, P at rest and no line begun, in which nothing has been popped. -/
structure NoPopSinceInit (c : Config) (s : State) : Prop where
  config : s.cfg = c
  active : s.life = .active
  pIdle : s.pPhase = .idle
  noLine : s.length = 0
  tailIndex : s.tail = 0
  noPop : s.pops = 0
  noPopSeen : s.seenTailN = 0

/-- The same, after the values `vs` have been pushed. -/
structure PushedSinceInit (c : Config) (vs : List Byte) (s : State) : Prop extends NoPopSinceInit c s where
  headIndex : s.head = min vs.length (c.C - 1)
  slots : ∀ i, memGet s.storage i = (vs.take (c.C - 1))[i]?
  answers : s.results = List.replicate (min vs.length (c.C - 1)) (.p, 0x0001#16) ++
    List.replicate (vs.length - (c.C - 1)) (.p, 0x0000#16)
  eventCount : s.history.length = vs.length
  kept : pushedBytes s.history = vs.take (c.C - 1)
  lost : s.history.drop (c.C - 1) = (vs.drop (c.C - 1)).map .dataLoss

/-- The sizes the model is defined for (00_scope.md R6, R7). -/
theorem config_wf_iff {c : Config} : c.wf = true ↔ 2 ≤ c.C ∧ 1 ≤ c.N := by
  simp [Config.wf]

/-- The indices the model is defined for (10_state.md R26, R38). -/
theorem indicesLegal_iff {s : State} :
    indicesLegal s = true ↔ s.head < s.cfg.C ∧ s.tail < s.cfg.C ∧ s.length < s.cfg.N := by
  simp [indicesLegal, and_assoc]

/-- INIT runs where it may (70_reset_and_hazards.md R208). -/
theorem exec_init {s : State} (h : ReadyS s) : exec .init s = .next (initSequence s) := by
  obtain ⟨hw, hl, ha, hi, hp, ho, hq⟩ := h
  simp [exec, execInit, withLegalShape, withIssuer, pBusy, qBusy, hw, hl, ha, hi, hp, ho, hq]

/-- INIT runs at process start. -/
theorem readyS_processStart {c : Config} (hw : c.wf = true) : ReadyS (State.processStart c) := by
  obtain ⟨hC, hN⟩ := config_wf_iff.mp hw
  have hC : 0 < c.C := by omega
  exact ⟨hw, indicesLegal_iff.mpr ⟨hC, hC, hN⟩, rfl, rfl, rfl, rfl, rfl⟩

/-- Right after INIT nothing has been pushed. -/
theorem pushedSinceInit_nil (c : Config) : PushedSinceInit c [] (initSequence (State.processStart c)) where
  config := rfl
  active := rfl
  pIdle := rfl
  noLine := rfl
  tailIndex := rfl
  noPop := rfl
  noPopSeen := rfl
  headIndex := (Nat.zero_min _).symm
  slots := fun i => by simp [initSequence_eq, State.processStart]
  answers := by simp [initSequence_eq, State.processStart]
  eventCount := rfl
  kept := by simp [initSequence_eq, State.processStart, pushedBytes]
  lost := by simp [initSequence_eq, State.processStart]

section

variable {c : Config} {vs : List Byte} {s : State}

/-- P's sample of `tail` is 0 under either `VIS`, and P has seen no pop (20_memory.md R58). -/
theorem NoPopSinceInit.sample (h : NoPopSinceInit c s) :
    (readTailFromP s).1 = 0 ∧ (readTailFromP s).2.seenTailN = 0 := by
  unfold readTailFromP
  split <;> simp [h.tailIndex, h.noPop, h.noPopSeen]

/-- What a push writes beside its sample is of no matter here. -/
theorem NoPopSinceInit.afterPush (h : NoPopSinceInit c s) (m : Memory) (hd n : Nat) (es : List Event)
    (rs : List (Agent × Word)) (b : Byte) (seen : Nat) (ok isr : Bool) :
    NoPopSinceInit c { (readTailFromP s).2 with
      storage := m, head := hd, pushes := n, history := es, results := rs, pByte := b, pTailSeen := seen, pOk := ok,
      pIsr := isr } where
  config := by simp [h.config]
  active := by simp [h.active]
  pIdle := by simp [h.pIdle]
  noLine := by simp [h.noLine]
  tailIndex := by simp [h.tailIndex]
  noPop := by simp [h.noPop]
  noPopSeen := h.sample.2

/-- P may begin its next push. -/
theorem PushedSinceInit.readyP (h : PushedSinceInit c vs s) (hw : c.wf = true) (hi : s.issuer = .p) : ReadyP s := by
  obtain ⟨hC, hN⟩ := config_wf_iff.mp hw
  have hindices : indicesLegal s = true := by
    rw [indicesLegal_iff, h.config, h.headIndex, h.tailIndex, h.noLine]
    omega
  exact ⟨⟨h.config ▸ hw, hindices, h.active⟩, hi, h.pIdle⟩

/-- Each of the first `C - 1` values is accepted. -/
theorem PushedSinceInit.accepts (h : PushedSinceInit c vs s) (hready : ReadyP s) (hl : c.legacyOverwrite = false)
    (v : Byte) (hroom : vs.length < c.C - 1) :
    ∃ t, exec (.tryPush v) s = .next t ∧ PushedSinceInit c (vs ++ [v]) t := by
  obtain ⟨hsample, -⟩ := h.sample
  have hlen : (vs ++ [v]).length ≤ c.C - 1 := by simpa using hroom
  have hhead : s.head = vs.length := h.headIndex.trans (Nat.min_eq_left hroom.le)
  have hnext : nextIndex s.cfg s.head = vs.length + 1 := by rw [h.config, hhead, nextIndex_of_lt (by omega)]
  have hslots := h.slots
  have hanswers := h.answers
  have hkept := h.kept
  rw [List.take_of_length_le hroom.le] at hkept
  simp only [List.take_of_length_le hroom.le] at hslots
  rw [Nat.min_eq_left hroom.le, Nat.sub_eq_zero_of_le hroom.le] at hanswers
  refine ⟨_, exec_tryPush_of_room hready v (by rwa [h.config]) (by simp [hsample, hnext]), ?_⟩
  exact {
    toNoPopSinceInit := h.afterPush ..
    headIndex := by simpa [hnext] using hroom
    slots := fun i => by
      rw [List.take_of_length_le hlen, hhead]
      rcases Nat.lt_trichotomy i vs.length with hi | rfl | hi
      · rw [memGet_memPut_of_ne _ hi.ne, hslots, List.getElem?_append_left hi]
      · simp
      · rw [memGet_memPut_of_ne _ hi.ne', hslots, List.getElem?_eq_none hi.le,
          List.getElem?_eq_none (by simpa using hi)]
    answers := by
      rw [Nat.min_eq_left hlen, Nat.sub_eq_zero_of_le hlen]
      simp [hanswers, List.replicate_succ']
    eventCount := by simp [h.eventCount]
    kept := by simp [List.take_of_length_le hlen, hkept]
    lost := by
      rw [List.drop_of_length_le hlen, List.drop_of_length_le (by simpa [h.eventCount] using hroom)]
      rfl }

/-- Every value after them is rejected. -/
theorem PushedSinceInit.rejects (h : PushedSinceInit c vs s) (hC : 2 ≤ c.C) (hready : ReadyP s)
    (hl : c.legacyOverwrite = false) (v : Byte) (hfull : c.C - 1 ≤ vs.length) :
    ∃ t, exec (.tryPush v) s = .next t ∧ PushedSinceInit c (vs ++ [v]) t := by
  obtain ⟨hsample, -⟩ := h.sample
  have hhead : s.head = c.C - 1 := h.headIndex.trans (Nat.min_eq_right hfull)
  have hnext : nextIndex s.cfg s.head = 0 := by rw [h.config, hhead, nextIndex_last (by omega)]
  have hlen : c.C - 1 ≤ s.history.length := h.eventCount ▸ hfull
  have hfull' : c.C - 1 ≤ (vs ++ [v]).length := by simp; omega
  refine ⟨_, exec_tryPush_of_full hready v (by rwa [h.config]) (by rw [hsample, hnext]), ?_⟩
  exact {
    toNoPopSinceInit := h.afterPush ..
    headIndex := by
      rw [Nat.min_eq_right hfull']
      simpa using hhead
    slots := fun i => by
      rw [List.take_append_of_le_length hfull]
      simpa using h.slots i
    answers := by
      rw [Nat.min_eq_right hfull']
      simp [h.answers, Nat.min_eq_right hfull, Nat.succ_sub hfull, List.replicate_succ']
    eventCount := by simp [h.eventCount]
    kept := by
      rw [List.take_append_of_le_length hfull]
      simpa [pushedBytes] using h.kept
    lost := by
      rw [List.drop_append_of_le_length hlen, List.drop_append_of_le_length hfull, h.lost, List.map_append]
      rfl }

/-- Each value pushed, accepted or rejected, leads to the state after it. -/
theorem PushedSinceInit.execAll (h : PushedSinceInit c vs s) (hw : c.wf = true) (hl : c.legacyOverwrite = false)
    (ws : List Byte) :
    ∃ t, execAll (ws.map fun v => ⟨.p, .tryPush v⟩) s = .next t ∧ PushedSinceInit c (vs ++ ws) t := by
  induction ws generalizing vs s with
  | nil => exact ⟨s, rfl, by simpa using h⟩
  | cons v ws ih =>
    have hissued : PushedSinceInit c vs { s with issuer := .p } := { h with }
    have hready := hissued.readyP hw rfl
    obtain ⟨u, hu, hpush⟩ : ∃ u, exec (.tryPush v) { s with issuer := .p } = .next u ∧
        PushedSinceInit c (vs ++ [v]) u := by
      rcases Nat.lt_or_ge vs.length (c.C - 1) with hroom | hfull
      · exact hissued.accepts hready hl v hroom
      · exact hissued.rejects (two_le_C_of_wf hw) hready hl v hfull
    obtain ⟨t, ht, hall⟩ := ih hpush
    exact ⟨t, by simp only [List.map_cons, Safety.execAll, hu, ht], by simpa using hall⟩

end

/-- Settles O20: the state after `C + 1` pushes, of which `C - 1` found room. -/
theorem capacityTestKeepsTheFirstValues : Obligations.CapacityTestKeepsTheFirstValues := by
  unfold Obligations.CapacityTestKeepsTheFirstValues
  intro c vs hw hl hlen
  have hC := two_le_C_of_wf hw
  have hmin : min vs.length (c.C - 1) = c.C - 1 := by omega
  have hlost : vs.length - (c.C - 1) = 2 := by omega
  obtain ⟨t, ht, h⟩ := (pushedSinceInit_nil c).execAll hw hl vs
  rw [List.nil_append] at h
  have hinit : exec .init { State.processStart c with issuer := .s } = .next (initSequence (State.processStart c)) :=
    exec_init (readyS_processStart hw)
  refine ⟨t, by simp only [Safety.execAll, hinit, ht], h.headIndex.trans hmin, h.tailIndex, fun i hi => ?_, ?_, ?_,
    h.kept, h.lost⟩
  · rw [h.slots, List.getElem?_take_of_lt hi]
  · rw [h.slots, List.getElem?_eq_none (by simp)]
  · rw [h.answers, hmin, hlost]

end Sys2Proof.Machine

/-! ## The Receiver and its event source (41_receiver.md R120 to R131) -/

namespace Sys2Proof.Machine

open Safety

/-! ### What admission answers -/

/-- Legal parameters and indices keep nothing out. -/
theorem withLegalShape_eq {s : State} (k : Host.Outcome State Fault Refusal) (h : Operational s) :
    withLegalShape s k = k := by
  obtain ⟨hw, hl, -⟩ := h
  simp [withLegalShape, hw, hl]

/-- Once `INIT` has completed it keeps nothing out. -/
theorem afterInit_eq {s : State} (k : Host.Outcome State Fault Refusal) (h : Operational s) : afterInit s k = k := by
  rw [afterInit, operational_active h]

/-- An agent that the operation is given to may issue it once `INIT` has completed (60_exceptions.md R193). -/
theorem admitted_eq {allowed : List Agent} {s : State} {a : Agent} (k : Host.Outcome State Fault Refusal)
    (h : Operational s) (hi : s.issuer = a) (ha : a ∈ allowed) (hne : ∀ id, a ≠ .further id) :
    withLegalShape s (withIssuer allowed s (afterInit s k)) = k := by
  rw [withLegalShape_eq _ h, afterInit_eq _ h, withIssuer, hi]
  cases a with
  | further id => exact absurd rfl (hne id)
  | p => simp [ha]
  | q => simp [ha]
  | e => simp [ha]
  | s => simp [ha]

/-! ### An agent that is busy (R129, R131; 20_memory.md R61) -/

/-- P inside an operation takes no new one. -/
theorem whenPIdle_of_busy {s : State} (hp : s.pPhase ≠ .idle) (k : Host.Outcome State Fault Refusal) :
    whenPIdle s k = .refused .agentBusy := by
  simp [whenPIdle, pBusy, hp]

/-- Under `SCHED = Preempt` an operation of P holds Q out. -/
theorem whenQMayRun_of_preempted {s : State} (hs : s.cfg.sched = .preempt) (hp : s.pPhase ≠ .idle)
    (k : Host.Outcome State Fault Refusal) : whenQMayRun s k = .refused .notSchedulable := by
  simp [whenQMayRun, pBusy, hs, hp]

/-- Q inside an operation takes no new one. -/
theorem whenQIdle_of_busy {s : State} (hs : s.cfg.sched = .free ∨ s.pPhase = .idle)
    (hq : s.qOp ≠ .none ∨ s.qPhase ≠ .idle) (k : Host.Outcome State Fault Refusal) :
    whenQIdle s k = .refused .agentBusy := by
  have hbusy : qBusy s = true := by simpa [qBusy] using hq
  rw [whenQIdle, whenQMayRun, if_neg (not_preempted hs), if_pos hbusy]

/-- What keeps P from a new operation keeps it from every one it may issue. -/
theorem exec_refused_of_p {i : Instr} {s : State} {r : Refusal} (hop : Operational s) (hi : s.issuer = .p)
    (hissue : i.issuableBy .p = true) (hr : ∀ k, whenPIdle s k = .refused r) : exec i s = .refused r := by
  have hadmit : ∀ k f, thenRun (admitP s k) f = .refused r := fun k f => by
    rw [admitP, admitted_eq _ hop hi (by simp) nofun, hr]
    rfl
  cases i with
  | tryPush b => exact hadmit _ _
  | rxIrq => exact hadmit _ _
  | isEmpty =>
    rw [exec, execIsEmpty, beginIsEmpty, admitted_eq _ hop hi (by simp) nofun, if_pos hi, hr]
    rfl
  | tryPop => cases hissue
  | rxArrive b => cases hissue
  | readByte => cases hissue
  | dataAvailable => cases hissue
  | ciIter => cases hissue
  | ciStep c => cases hissue
  | init => cases hissue

/-- What keeps Q from a new operation keeps it from every one it may issue. -/
theorem exec_refused_of_q {i : Instr} {s : State} {r : Refusal} (hop : Operational s) (hi : s.issuer = .q)
    (hissue : i.issuableBy .q = true) (hr : ∀ k, whenQIdle s k = .refused r) : exec i s = .refused r := by
  have hadmit : ∀ k f, thenRun (admitQ s k) f = .refused r := fun k f => by
    rw [admitQ, admitted_eq _ hop hi (by simp) nofun, hr]
    rfl
  cases i with
  | tryPop => exact hadmit _ _
  | readByte => exact hadmit _ _
  | dataAvailable => exact hadmit _ _
  | ciIter => exact hadmit _ _
  | ciStep c => exact hadmit _ _
  | isEmpty =>
    rw [exec, execIsEmpty, beginIsEmpty, admitted_eq _ hop hi (by simp) nofun, if_neg (by simp [hi]), hr]
    rfl
  | tryPush b => cases hissue
  | rxIrq => cases hissue
  | rxArrive b => cases hissue
  | init => cases hissue

/-- Settles O9: every operation of P passes the test that P is idle, and every line of Q the test that Q may act. -/
theorem busyAgentTakesNoNewOperation : Obligations.BusyAgentTakesNoNewOperation := by
  unfold Obligations.BusyAgentTakesNoNewOperation
  refine ⟨fun i s hop hissue => ⟨fun hi hp => ?_, fun hi hs hp => ?_, fun hi hs hq => ?_⟩,
    fun s hop hs hp => ⟨?_, ?_, ?_⟩⟩
  · exact exec_refused_of_p hop hi (hi ▸ hissue) (whenPIdle_of_busy hp)
  · exact exec_refused_of_q hop hi (hi ▸ hissue) fun _ => whenQMayRun_of_preempted hs hp _
  · exact exec_refused_of_q hop hi (hi ▸ hissue) (whenQIdle_of_busy hs hq)
  · exact (withLegalShape_eq _ hop).trans (whenQMayRun_of_preempted hs hp _)
  · exact (withLegalShape_eq _ hop).trans (whenQMayRun_of_preempted hs hp _)
  · exact (withLegalShape_eq _ hop).trans ((afterInit_eq _ hop).trans (whenQMayRun_of_preempted hs hp _))

/-! ### RX_ARRIVE (R120, R122) -/

/-- What E delivers is taken, or is an overrun, by the flag alone. -/
theorem exec_rxArrive {s : State} (h : ReadyE s) (b : Byte) :
    exec (.rxArrive b) s =
      if s.rxReady then
        if s.cfg.rxOverrun = .excluded then .refused .overrunExcluded else .next (overrunByte b s)
      else .next (arriveByte b s) := by
  obtain ⟨hop, hi⟩ := h
  rw [exec, execRxArrive, admitted_eq _ hop hi (by simp) nofun]
  cases s.cfg.rxOverrun <;> rfl

/-- Settles O21: an arrival that finds the flag clear. -/
theorem arrivalSetsDataAndFlag : Obligations.ArrivalSetsDataAndFlag := by
  unfold Obligations.ArrivalSetsDataAndFlag
  intro s b h hr
  rw [exec_rxArrive h, hr]
  rfl

/-- Settles O22: the parameter decides; an overrun that happens is recorded or not, and touches nothing else beyond
the register and the flags. -/
theorem overrunIsRefusedOrOpen : Obligations.OverrunIsRefusedOrOpen := by
  unfold Obligations.OverrunIsRefusedOrOpen
  intro s b h hr
  rw [exec_rxArrive h, if_pos hr]
  refine ⟨fun ho => if_pos ho, fun ho => ?_⟩
  rw [if_neg (by simp [ho]), overrunByte]
  split
  · exact ⟨_, _, _, _, _, rfl, rfl, .inr rfl⟩
  · exact ⟨_, _, _, _, _, rfl, rfl, .inl rfl⟩

/-! ### The transitions of P (R126) -/

section

variable {s : State}

theorem pStep_of_fetch (h : s.pPhase = .fetch) : pStep s = pFetch s := by simp [pStep, h]

theorem pStep_of_sample (h : s.pPhase = .sample) : pStep s = pSample s := by simp [pStep, h]

theorem pStep_of_write (h : s.pPhase = .write) : pStep s = pWrite s := by simp [pStep, h]

theorem pStep_of_publish (h : s.pPhase = .publish) : pStep s = pPublish s := by simp [pStep, h]

theorem pStep_of_ret (h : s.pPhase = .ret) : pStep s = pReturn s := by simp [pStep, h]

end

/-- The conforming sample decides between the return and the write, and is kept (40_ringbuffer.md R104). -/
theorem pSample_of_conforming {s : State} (h : s.cfg.legacyOverwrite = false) :
    (pSample s).pPhase = (if nextIndex s.cfg s.head = (readTailFromP s).1 then .ret else .write) ∧
    (pSample s).pTailSeen = (readTailFromP s).1 := by
  by_cases hfull : nextIndex s.cfg s.head = (readTailFromP s).1 <;> simp [pSample, h, hfull]

/-- Settles O27: the transition out of each phase, and the five that `pFinish` makes. -/
theorem receiverFollowsItsTransitionTable : Obligations.ReceiverFollowsItsTransitionTable := by
  unfold Obligations.ReceiverFollowsItsTransitionTable
  refine fun s => ⟨pStep_of_idle, fun h => ?_, fun h hl => ?_, fun h hl => ?_, fun h => ?_, fun h => ?_, fun h => ?_,
    pFinish_idle s⟩
  · exact pStep_of_fetch h ▸ ⟨rfl, rfl, rfl⟩
  · exact pStep_of_sample h ▸ pSample_of_conforming hl
  · rw [pStep_of_sample h, pSample, if_pos hl]
  · exact pStep_of_write h
  · exact pStep_of_publish h ▸ ⟨rfl, rfl, rfl⟩
  · exact pStep_of_ret h ▸ pReturn_idle s

/-! ### RX_IRQ (R124, R125) -/

/-- RX_IRQ from a P that may begin an operation is refused or runs to its return, by the dispatch condition alone. -/
theorem exec_rxIrq {s : State} (h : ReadyP s) :
    exec .rxIrq s = if dispatchDue s then .next (pFinish (enterHandler s)) else .refused .noPendingByte := by
  obtain ⟨hop, hi, hp⟩ := h
  rw [exec, execRxIrq, beginRxIrq, admitP_eq _ hop hi hp]
  split <;> rfl

/-- Settles O10: P may begin an operation, so the dispatch condition is the only ground left. -/
theorem handlerNeverRunsWithoutRequest : Obligations.HandlerNeverRunsWithoutRequest := by
  unfold Obligations.HandlerNeverRunsWithoutRequest
  intro s h hd
  rw [exec_rxIrq h, hd]
  rfl

/-- The handler with its byte in hand (R125 step 1). -/
def handlerFetched (s : State) : State :=
  { s with
    pByte := s.rxData, pIsr := true, pPhase := .sample, rxReady := false,
    history := s.history ++ [.isrRead s.rxData] }

/-- The handler begins with the read of the data register, whatever follows. -/
theorem exec_rxIrq_of_due {s : State} (h : ReadyP s) (hd : dispatchDue s = true) :
    exec .rxIrq s = .next (pFinish (handlerFetched s)) := by
  rw [exec_rxIrq h, if_pos hd, pFinish_of_fetch rfl]
  rfl

/-- The sample of `tail` does not depend on the byte in hand, nor on how it came there. -/
theorem readTailFromP_handlerFetched (s : State) :
    readTailFromP (handlerFetched s) = ((readTailFromP s).1, handlerFetched (readTailFromP s).2) := by
  rw [handlerFetched, readTailFromP_withByte]
  simp [handlerFetched]

/-- The handler's return drops the push result (R125 step 3). -/
theorem pReturn_handler {s : State} (h : s.pIsr = true) : pReturn s = { s with pPhase := .idle } := by
  simp [pReturn, h, leaveHandler]

/-- P is idle where it may begin an operation (R131). -/
theorem idle_of_readyP {s : State} (h : ReadyP s) : s.pPhase = .idle := by
  obtain ⟨-, -, hp⟩ := h
  exact hp

/-- A pending, enabled request is due where P may begin an operation (R124). -/
theorem dispatchDue_of_readyP {s : State} (h : ReadyP s) (hready : s.rxReady = true) (hie : s.rxIe = true) :
    dispatchDue s = true := by
  simp [dispatchDue, rxRequest, hready, hie, idle_of_readyP h]

section

variable {s : State} (h : ReadyP s) (hd : dispatchDue s = true)
include h hd

/-- The handler's push finds room at its sample (40_ringbuffer.md R104). -/
theorem exec_rxIrq_of_room (hl : s.cfg.legacyOverwrite = false) (hr : nextIndex s.cfg s.head ≠ (readTailFromP s).1) :
    exec .rxIrq s = .next { (readTailFromP s).2 with
      rxReady := false, storage := memPut s.storage s.head s.rxData, head := nextIndex s.cfg s.head,
      pushes := s.pushes + 1, history := s.history ++ [.isrRead s.rxData, .pushOk s.rxData s.head],
      pByte := s.rxData, pTailSeen := (readTailFromP s).1, pOk := true, pIsr := true } := by
  have hread := readTailFromP_handlerFetched s
  rw [exec_rxIrq_of_due h hd, pFinish_of_room (s := handlerFetched s) rfl hl (by rwa [hread]), hread,
    pReturn_handler rfl]
  simp [handlerFetched, idle_of_readyP h]

/-- The handler's push finds the buffer full at its sample (R125, corner case a). -/
theorem exec_rxIrq_of_full (hl : s.cfg.legacyOverwrite = false) (hr : nextIndex s.cfg s.head = (readTailFromP s).1) :
    exec .rxIrq s = .next { (readTailFromP s).2 with
      rxReady := false, history := s.history ++ [.isrRead s.rxData, .dataLoss s.rxData],
      pByte := s.rxData, pTailSeen := (readTailFromP s).1, pOk := false, pIsr := true } := by
  have hread := readTailFromP_handlerFetched s
  rw [exec_rxIrq_of_due h hd, pFinish_of_full (s := handlerFetched s) rfl hl (by rwa [hread]), hread,
    pReturn_handler rfl]
  simp [handlerFetched, idle_of_readyP h]

/-- The handler's push in the legacy form has no sample (40_ringbuffer.md R109). -/
theorem exec_rxIrq_of_legacy (hl : s.cfg.legacyOverwrite = true) :
    exec .rxIrq s = .next { s with
      rxReady := false, storage := memPut s.storage s.head s.rxData, head := nextIndex s.cfg s.head,
      pushes := s.pushes + 1, history := s.history ++ [.isrRead s.rxData, .pushOk s.rxData s.head],
      pByte := s.rxData, pOk := true, pIsr := true } := by
  rw [exec_rxIrq_of_due h hd, pFinish_of_legacy (s := handlerFetched s) rfl hl, pReturn_handler rfl]
  simp [handlerFetched, idle_of_readyP h]

end

/-- Settles O23: what the handler does whose sample shows room. -/
theorem handlerPushesThePendingByte : Obligations.HandlerPushesThePendingByte := by
  unfold Obligations.HandlerPushesThePendingByte
  intro s h hl hready hie hr
  exact exec_rxIrq_of_room h (dispatchDue_of_readyP h hready hie) hl hr

/-- Settles O24: what the handler does whose sample shows the buffer full, and what it does without a sample. -/
theorem handlerReadsEvenWhenFull : Obligations.HandlerReadsEvenWhenFull := by
  unfold Obligations.HandlerReadsEvenWhenFull
  intro s h hready hie
  have hd := dispatchDue_of_readyP h hready hie
  exact ⟨exec_rxIrq_of_full h hd, exec_rxIrq_of_legacy h hd⟩

/-! ### The handler's frame (R127) -/

/-- A write of one slot leaves every other. -/
theorem slotByte_of_memPut {s t : State} {i j : Nat} {b : Byte} (ht : t.storage = memPut s.storage i b) (h : j ≠ i) :
    slotByte t j = slotByte s j := by
  rw [slotByte, ht, memGet_memPut_of_ne b h, slotByte]

/-- Settles O25: the handler ends in one of three states, each written out, and none of them touches more. -/
theorem handlerNeverBlocksOrTouchesTail : Obligations.HandlerNeverBlocksOrTouchesTail := by
  unfold Obligations.HandlerNeverBlocksOrTouchesTail
  intro s h hd
  have hp := idle_of_readyP h
  by_cases hl : s.cfg.legacyOverwrite = true
  · refine ⟨_, exec_rxIrq_of_legacy h hd hl, ?_⟩
    simpa [hp] using fun j => slotByte_of_memPut rfl
  · rw [Bool.not_eq_true] at hl
    by_cases hr : nextIndex s.cfg s.head = (readTailFromP s).1
    · refine ⟨_, exec_rxIrq_of_full h hd hl hr, ?_⟩
      simp [hp, slotByte]
    · refine ⟨_, exec_rxIrq_of_room h hd hl hr, ?_⟩
      simpa [hp] using fun j => slotByte_of_memPut rfl

end Sys2Proof.Machine

/-! ## The LineReader (42_linereader.md R135, R136) -/

namespace Sys2Proof.Machine

open Safety

/-! ### The operations, begun and run without a break -/

section

variable {s : State}

/-- Where Q may begin an operation, admission keeps nothing out. -/
theorem admitQ_of_readyQ (h : ReadyQ s) (k : Host.Outcome State Fault Refusal) : admitQ s k = k := by
  obtain ⟨hop, hi, ho, hp, hs⟩ := h
  exact admitQ_eq k hop hi ho hp (not_preempted hs)

/-- A READ_BYTE that Q may begin runs to its return, or through one poll. -/
theorem exec_readByte (h : ReadyQ s) : exec .readByte s = .next (qFinish (samplingBegun .readByte s)) := by
  rw [exec, execReadByte, beginReadByte, admitQ_of_readyQ h]
  rfl

/-- A DATA_AVAILABLE that Q may begin runs to its return. -/
theorem exec_dataAvailable (h : ReadyQ s) :
    exec .dataAvailable s = .next (qFinish (samplingBegun .dataAvailable s)) := by
  rw [exec, execDataAvailable, beginDataAvailable, admitQ_of_readyQ h]
  rfl

end

/-! ### READ_BYTE (R135) and DATA_AVAILABLE (R136), whole -/

/-- Settles O29: the sample decides between the return of a pop and the first step of the next poll. -/
theorem readByteReturnsOrPolls : Obligations.ReadByteReturnsOrPolls := by
  unfold Obligations.ReadByteReturnsOrPolls
  intro s h
  have hread := readHeadFromQ_samplingBegun .readByte s
  rw [exec_readByte h]
  obtain ⟨-, -, ho, hp, -⟩ := h
  refine ⟨fun hb => ?_, fun hb => ?_⟩
  · rw [qFinish_of_byte (s := samplingBegun .readByte s) rfl (.inr (.inl rfl)) (by rwa [hread]), hread, popReturn]
    simp [samplingBegun, slotByte, finishWork, doActs, qDone, deliver, byteWord, ho, hp]
  · rw [qFinish_of_none (s := samplingBegun .readByte s) rfl (.inr (.inl rfl)) (by rwa [hread]), hread, popEmpty]
    simp [samplingBegun, finishWork, record]

/-- Settles O31: the answer is the negation of the one IS_EMPTY gives for the same sample. -/
theorem dataAvailableIsNotEmpty : Obligations.DataAvailableIsNotEmpty := by
  unfold Obligations.DataAvailableIsNotEmpty
  intro s h
  have hread := readHeadFromQ_samplingBegun .dataAvailable s
  rw [exec_dataAvailable h, qFinish_of_dataAvailable (s := samplingBegun .dataAvailable s) rfl rfl, hread]
  obtain ⟨-, -, ho, hp, -⟩ := h
  simp [samplingBegun, qDone, deliver, boolWord, ho, hp]

/-! ### A true answer is reliable (R136, corner case a; 20_memory.md R58) -/

section

variable {s t : State}

/-- A sample of `head` differs from `tail` where its number is above the count of pops: the two are less than `C`
apart. -/
theorem sample_ne_tail_iff (h : FifoState s) :
    (readHeadFromQ s).1 ≠ s.tail ↔ s.pops < (readHeadFromQ s).2.seenHeadN := by
  obtain ⟨hseen, hpop, hhead, hroom⟩ := h.chain
  obtain ⟨hv, hlo, hhi⟩ := readHeadFromQ_value h.headNumber hhead
  rw [hv, h.tailNumber]
  constructor
  · intro hne
    exact lt_of_le_of_ne (hpop.trans hlo) fun he => hne (by rw [← he])
  · intro hlt he
    have := eq_of_mod_eq hlt.le (by omega) he.symm
    omega

/-- What Q has once seen it sees again: a sample never goes back behind the one before it. -/
theorem sample_ne_tail_of_seen (h : FifoState s) (hb : s.pops < s.seenHeadN) : (readHeadFromQ s).1 ≠ s.tail := by
  obtain ⟨-, -, hhead, -⟩ := h.chain
  obtain ⟨-, hlo, -⟩ := readHeadFromQ_value h.headNumber hhead
  exact (sample_ne_tail_iff h).mpr (hb.trans_le hlo)

/-- The FIFO is correct after a DATA_AVAILABLE where it was before. -/
theorem dataAvailable_fifo (hr : ReadyQ s) (h : FifoState s) (hexec : exec .dataAvailable s = .next t) :
    FifoState t := by
  rw [exec_dataAvailable hr] at hexec
  cases hexec
  exact qFinish_keeps (I := FifoState) (fun _ => qStep_fifo)
    (quietQ_fifo h (p := .sample) nofun nofun .dataAvailable s.qWork)

/-- A DATA_AVAILABLE leaves Q free to begin its next operation. -/
theorem dataAvailable_readyQ (hr : ReadyQ s) (hexec : exec .dataAvailable s = .next t) : ReadyQ t := by
  rw [dataAvailableIsNotEmpty s hr] at hexec
  cases hexec
  simpa [ReadyQ, Operational, indicesLegal] using hr

/-- After a true answer Q has seen a byte that has not been popped. -/
theorem pops_lt_seenHeadN_of_dataAvailable (hr : ReadyQ s) (h : FifoState s) (hexec : exec .dataAvailable s = .next t)
    (htrue : t.results = s.results ++ [(.q, 0x0001#16)]) : t.pops < t.seenHeadN := by
  rw [dataAvailableIsNotEmpty s hr] at hexec
  cases hexec
  have hne : (readHeadFromQ s).1 ≠ s.tail := by simpa using htrue
  simpa using (sample_ne_tail_iff h).mp hne

end

/-- Settles O32: the byte that DATA_AVAILABLE has seen is in the sample of the READ_BYTE, which so pops it. -/
theorem readByteReturnsAfterDataAvailable : Obligations.ReadByteReturnsAfterDataAvailable := by
  unfold Obligations.ReadByteReturnsAfterDataAvailable
  intro s t _ h _ hr hexec htrue
  have hrt := dataAvailable_readyQ hr hexec
  have hseen := pops_lt_seenHeadN_of_dataAvailable hr h hexec htrue
  have hne := sample_ne_tail_of_seen (dataAvailable_fifo hr h hexec) hseen
  obtain ⟨hreturns, -⟩ := readByteReturnsOrPolls t hrt
  obtain ⟨-, -, hidle, -⟩ := hrt
  refine ⟨_, hreturns hne, by simpa using hidle, ?_⟩
  rw [dataAvailableIsNotEmpty s hr] at hexec
  cases hexec
  simp [slotByte]

end Sys2Proof.Machine

/-! ## The CommandInterpreter (43_command_interpreter.md R145 to R162)

A CI_STEP is the row of its byte: what each row's acts come to is said once, and every statement of CI_STEP, CI_ITER and
a typed line follows from that. -/

namespace Sys2Proof.Machine

open Safety

/-! ### Whole operations, one after another -/

/-- A run of whole operations goes on where the run before it ends. -/
theorem execAll_append {as bs : List Request} {s t : State} (h : execAll as s = .next t) :
    execAll (as ++ bs) s = execAll bs t := by
  induction as generalizing s with
  | nil =>
    cases h
    rfl
  | cons r rest ih =>
    rw [List.cons_append, execAll]
    rw [execAll] at h
    split at h
    · exact ih h
    · cases h
    · cases h

/-- What one operation answers, run alone by an agent that already is the issuer. -/
theorem execAll_single {i : Instr} {a : Agent} {s t : State} (ha : s.issuer = a) (h : exec i s = .next t) :
    execAll [⟨a, i⟩] s = .next t := by
  subst ha
  rw [execAll, h]
  rfl

/-! ### CI_STEP is the row of its byte -/

/-- The interpreter's acts do not look at the operation they belong to. -/
theorem doAct_withOp (a : CiAct) (s : State) (op : QOp) (p : QPhase) :
    doAct a { s with qOp := op, qPhase := p } = { doAct a s with qOp := op, qPhase := p } := by
  cases a with
  | effect cmd => cases cmd <;> rfl
  | append c => rfl
  | erase => rfl
  | transmit b => rfl
  | unknown line => rfl
  | resetLength => rfl
  | drop c => rfl

/-- The same of a list of them. -/
theorem doActs_withOp (acts : List CiAct) (s : State) (op : QOp) (p : QPhase) :
    doActs acts { s with qOp := op, qPhase := p } = { doActs acts s with qOp := op, qPhase := p } := by
  induction acts generalizing s with
  | nil => rfl
  | cons a rest ih => simp only [doActs, doAct_withOp, ih]

/-- A byte's row comes to the same whichever operation brought the byte (R148, R149). -/
theorem qFinish_row_withOp (c : Byte) (s : State) (op : QOp) (p : QPhase) :
    qFinish (beginRow c { s with qOp := op, qPhase := p }) = qDone (doActs (ciRow c s) s) := by
  have hrow : ciRow c { s with qOp := op, qPhase := p } = ciRow c s := rfl
  rw [qFinish_of_row, hrow, doActs_withOp]
  rfl

section

variable {s t : State} {c : Byte}

/-- Where Q was at rest, a byte's row leaves it at rest. -/
theorem qDone_row (h : ReadyQ s) : qDone (doActs (ciRow c s) s) = { doActs (ciRow c s) s with qWork := [] } := by
  obtain ⟨-, -, ho, hp, -⟩ := h
  simp [qDone, ho, hp]

/-- A CI_STEP that Q may begin is its byte's row, from start to end. -/
theorem exec_ciStep (h : ReadyQ s) (c : Byte) :
    exec (.ciStep c) s = .next { doActs (ciRow c s) s with qWork := [] } := by
  rw [exec, execCiStep, beginCiStep, admitQ_of_readyQ h, ← qDone_row h, ← qFinish_row_withOp c s .ciStep s.qPhase]
  rfl

/-- Every operation that `admitQ` lets through finds Q ready. -/
theorem readyQ_of_admitQ {k : Host.Outcome State Fault Refusal} (h : admitQ s k = .next t) : ReadyQ s := by
  obtain ⟨hop, hi, ho, hp, hs, -⟩ := admitQ_next h
  refine ⟨hop, hi, ho, hp, ?_⟩
  cases hsched : s.cfg.sched
  · exact .inr (by simpa [hsched, pBusy] using hs)
  · exact .inl rfl

/-- Q is ready where nothing that keeps it so has changed but `tail` and `length`, and those are in range. -/
theorem readyQ_of_eq (h : ReadyQ s) (hc : t.cfg = s.cfg) (hlife : t.life = s.life) (hi : t.issuer = s.issuer)
    (ho : t.qOp = s.qOp) (hq : t.qPhase = s.qPhase) (hp : t.pPhase = s.pPhase) (hhead : t.head = s.head)
    (htail : t.tail < s.cfg.C) (hlen : t.length < s.cfg.N) : ReadyQ t := by
  simp only [ReadyQ, Operational, indicesLegal_iff, hc, hlife, hi, ho, hq, hp, hhead, htail, hlen, and_true] at h ⊢
  tauto

/-- The indices of a state in which Q may begin an operation (10_state.md R26, R38). -/
theorem indices_of_readyQ (h : ReadyQ s) : s.head < s.cfg.C ∧ s.tail < s.cfg.C ∧ s.length < s.cfg.N := by
  obtain ⟨⟨-, hindices, -⟩, -⟩ := h
  exact indicesLegal_iff.mp hindices

theorem readyQ_of_ciStep (h : exec (.ciStep c) s = .next t) : ReadyQ s := by
  obtain ⟨u, hu, -⟩ := thenRun_next h
  exact readyQ_of_admitQ hu

theorem readyQ_of_ciIter (h : exec .ciIter s = .next t) : ReadyQ s := by
  obtain ⟨u, hu, -⟩ := thenRun_next h
  exact readyQ_of_admitQ hu

/-! ### The row of each byte (R149) -/

theorem ciRow_cr (s : State) : ciRow Text.cr s = rowCr s := if_pos rfl

theorem ciRow_of_erase (h : c = Text.del ∨ c = Text.backspace) : ciRow c s = rowErase := by
  have hcr : c ≠ Text.cr := by rcases h with rfl | rfl <;> decide
  rw [ciRow, if_neg hcr, if_pos h]

/-- What makes a byte ordinary. -/
theorem ordinary_iff : ordinary c = true ↔ c ≠ Text.cr ∧ c ≠ Text.del ∧ c ≠ Text.backspace := by
  simp [ordinary, and_assoc]

theorem ciRow_of_fits (ho : ordinary c = true) (hl : s.length + 1 < s.cfg.N) : ciRow c s = rowAppend c := by
  obtain ⟨hcr, hdel, hback⟩ := ordinary_iff.mp ho
  rw [ciRow, if_neg hcr, if_neg (by simp [hdel, hback]), if_pos (by omega)]

theorem ciRow_of_full (ho : ordinary c = true) (hl : s.cfg.N ≤ s.length + 1) : ciRow c s = rowDrop c := by
  obtain ⟨hcr, hdel, hback⟩ := ordinary_iff.mp ho
  rw [ciRow, if_neg hcr, if_neg (by simp [hdel, hback]), if_neg (by omega)]

end

/-! ### Rows APPEND, DROP and ERASE (R151 to R153) -/

theorem doActs_rowAppend (c : Byte) (s : State) :
    doActs (rowAppend c) s = { s with
      chars := memPut (memPut s.chars s.length c) (s.length + 1) 0x00#8, length := s.length + 1,
      txOut := s.txOut ++ [c], history := s.history ++ [.tx c] } := rfl

theorem doActs_rowErase (s : State) :
    doActs rowErase s = { s with
      length := s.length - 1, txOut := s.txOut ++ Text.erase, history := s.history ++ Text.erase.map .tx } := by
  have hlen : (if s.length > 0 then s.length - 1 else s.length) = s.length - 1 := by split <;> omega
  rw [rowErase, doActs, doActs_emit, doAct, eraseChar, hlen]

/-- Settles O34: row APPEND is the byte's row. -/
theorem ordinaryByteIsAppendedAndEchoed : Obligations.OrdinaryByteIsAppendedAndEchoed := by
  unfold Obligations.OrdinaryByteIsAppendedAndEchoed
  intro s c h ho hl
  rw [exec_ciStep h, ciRow_of_fits ho hl, doActs_rowAppend]

/-- Settles O35: row DROP is the byte's row. -/
theorem byteBeyondTheLineIsDropped : Obligations.ByteBeyondTheLineIsDropped := by
  unfold Obligations.ByteBeyondTheLineIsDropped
  intro s c h ho hl
  rw [exec_ciStep h, ciRow_of_full ho hl.ge]
  rfl

/-- Settles O36: row ERASE is the row of either key. -/
theorem eraseKeyShortensTheLine : Obligations.EraseKeyShortensTheLine := by
  unfold Obligations.EraseKeyShortensTheLine
  intro s c h hc
  rw [exec_ciStep h, ciRow_of_erase hc, doActs_rowErase]
  rfl

/-! ### Row CR (R150, R155 to R161) -/

/-- Settles O33: a command has one text in the table, and two lines are equal where their lengths and their bytes are. -/
theorem lookupIsExactEquality : Obligations.LookupIsExactEquality := by
  unfold Obligations.LookupIsExactEquality
  intro bytes text cmd hmem
  have hunique : ∀ entry ∈ commandTable, entry.2 = cmd → entry.1 = text := by
    have hdistinct : ∀ x ∈ commandTable, ∀ y ∈ commandTable, x.2 = y.2 → x.1 = y.1 := by decide
    exact fun entry he heq => hdistinct entry he (text, cmd) hmem heq
  have htext : lookupCommand bytes = some cmd ↔ bytes = text := by
    rw [lookupCommand_some_iff]
    exact ⟨fun h => hunique _ h rfl, fun h => h ▸ hmem⟩
  rw [htext]
  refine ⟨fun h => ⟨congrArg _ h, fun i _ => by rw [h]⟩, fun ⟨hlen, hbytes⟩ => ?_⟩
  refine List.ext_getElem hlen fun i hi hi' => ?_
  simpa [List.getElem?_eq_getElem, hi, hi'] using hbytes i hi'

/-- The level a command writes to the pin, where it writes one (R155 to R159). -/
def levelWritten (cmd : Command) (level : Bool) : Option Bool :=
  match cmd with
  | .help => none
  | .ledOn => some true
  | .ledOff => some false
  | .toggle => some (!level)
  | .status => none

/-- The effect of a command is the level it writes, and the record of it. -/
theorem runEffect_eq (cmd : Command) (s : State) :
    runEffect cmd s = { s with
      pin := (levelWritten cmd s.pin).getD s.pin,
      history := s.history ++ (levelWritten cmd s.pin).toList.map .setOutput } := by
  cases cmd <;> simp [runEffect, levelWritten, setOutput, getOutput, record]

/-- Row CR is the line ending, then what the line asks for, then an empty line and the prompt (R150). -/
theorem doActs_rowCr {s t : State}
    (h : doActs (dispatchActs s (currentLine s)) { s with
      txOut := s.txOut ++ Text.crlf, history := s.history ++ Text.crlf.map .tx } = t) :
    doActs (rowCr s) s = { t with
      length := 0, txOut := t.txOut ++ Text.prompt, history := t.history ++ Text.prompt.map .tx } := by
  rw [rowCr, List.append_assoc, doActs_append, doActs_emit, doActs_append, h, doActs, doActs_emit]
  rfl

section

variable {s : State} {cmd : Command}

/-- CR on a command: the command's effect, its message and a fresh prompt. -/
theorem exec_cr_of_command (h : ReadyQ s) (hcmd : lookupCommand (currentLine s) = some cmd) :
    exec (.ciStep Text.cr) s = .next { s with
      pin := (levelWritten cmd s.pin).getD s.pin, length := 0,
      txOut := s.txOut ++ Text.crlf ++ messageOf s.cfg s.pin cmd ++ Text.prompt,
      history := s.history ++ Text.crlf.map .tx ++ (levelWritten cmd s.pin).toList.map .setOutput ++
        (messageOf s.cfg s.pin cmd ++ Text.prompt).map .tx,
      qWork := [] } := by
  have hacts : dispatchActs s (currentLine s) = .effect cmd :: emitActs (messageOf s.cfg s.pin cmd) := by
    rw [dispatchActs, hcmd]
    rfl
  rw [exec_ciStep h, ciRow_cr, doActs_rowCr (by rw [hacts, doActs, doAct, runEffect_eq, doActs_emit])]
  simp

/-- The command that a line in the table is. -/
theorem lookupCommand_of_line {text : List Byte} (hmem : (text, cmd) ∈ commandTable) (hline : currentLine s = text) :
    lookupCommand (currentLine s) = some cmd := by
  rw [hline]
  exact (lookupCommand_some_iff text cmd).mpr hmem

end

/-- Settles O37: the empty line is no command, and nothing is reported of it. -/
theorem emptyLineOnlyPrompts : Obligations.EmptyLineOnlyPrompts := by
  unfold Obligations.EmptyLineOnlyPrompts
  intro s h hl
  have hline : currentLine s = [] := by simp [currentLine, hl]
  have hacts : dispatchActs s (currentLine s) = [] := by
    rw [hline, dispatchActs, show lookupCommand [] = none by decide]
    simp [hl]
  rw [exec_ciStep h, ciRow_cr, doActs_rowCr (by rw [hacts, doActs])]
  simp [Text.crlf, Text.prompt, hl]

/-- Settles O38: the report of the line stands between the line ending and the prompt. -/
theorem unknownCommandIsReported : Obligations.UnknownCommandIsReported := by
  unfold Obligations.UnknownCommandIsReported
  intro s h hl hnone
  have hacts : dispatchActs s (currentLine s) =
      .unknown (currentLine s) :: emitActs (Text.unknownCommand ++ currentLine s ++ Text.hint) := by
    rw [dispatchActs, hnone]
    exact if_pos hl
  rw [exec_ciStep h, ciRow_cr, doActs_rowCr (by rw [hacts, doActs, doAct, doActs_emit])]
  simp [record]

/-- Settles O39: either line is a command that writes its level. -/
theorem ledCommandsSetThePin : Obligations.LedCommandsSetThePin := by
  unfold Obligations.LedCommandsSetThePin
  intro s v h hline
  cases v with
  | true => exact ⟨_, exec_cr_of_command h (lookupCommand_of_line (cmd := .ledOn) (by decide) hline), rfl, rfl⟩
  | false => exact ⟨_, exec_cr_of_command h (lookupCommand_of_line (cmd := .ledOff) (by decide) hline), rfl, rfl⟩

/-- Settles O40: either line is a command that writes no level. -/
theorem helpAndStatusOnlyReport : Obligations.HelpAndStatusOnlyReport := by
  unfold Obligations.HelpAndStatusOnlyReport
  rintro s msg h (⟨hline, rfl⟩ | ⟨hline, rfl⟩)
  · rw [exec_cr_of_command h (lookupCommand_of_line (cmd := .help) (by decide) hline)]
    simp [levelWritten, messageOf]
  · rw [exec_cr_of_command h (lookupCommand_of_line (cmd := .status) (by decide) hline)]
    simp [levelWritten, messageOf]

/-! ### A typed line (R149, R152, R162; 10_state.md R39) -/

/-- Q's operations that apply the table to the bytes of `line`, one after another. -/
def typing (line : List Byte) : List Request := line.map fun c => ⟨.q, .ciStep c⟩

/-- What the typing of `line` from the state `s` leads to, where every byte of it is ordinary and fits. -/
structure LineTyped (s : State) (line : List Byte) (t : State) : Prop where
  config : t.cfg = s.cfg
  ready : ReadyQ t
  kept : currentLine t = currentLine s ++ line
  grown : t.length = s.length + line.length
  echoed : t.txOut = s.txOut ++ line
  recorded : t.history = s.history ++ line.map .tx
  pinLeft : t.pin = s.pin

/-- Row APPEND leaves every other cell as it was (R152). -/
theorem charByte_appended {s t : State} {i j : Nat} {c d : Byte}
    (hc : t.chars = memPut (memPut s.chars i c) (i + 1) d) (hj : j ≠ i) (hj' : j ≠ i + 1) :
    charByte t j = charByte s j := by
  rw [charByte, hc, memGet_memPut_of_ne _ hj', memGet_memPut_of_ne _ hj, charByte]

/-- The line with the byte appended to it, as row APPEND writes it (R152). -/
theorem currentLine_appended {s t : State} {c : Byte}
    (hc : t.chars = memPut (memPut s.chars s.length c) (s.length + 1) 0x00#8) (hl : t.length = s.length + 1) :
    currentLine t = currentLine s ++ [c] := by
  have hold : ∀ j ∈ List.range s.length, charByte t j = charByte s j := fun j hj => by
    have hj := List.mem_range.mp hj
    exact charByte_appended hc (by omega) (by omega)
  have hnew : charByte t s.length = c := by
    rw [charByte, hc, memGet_memPut_of_ne _ (by omega), memGet_memPut_self]
    rfl
  rw [currentLine, hl, List.range_succ, List.map_append, List.map_congr_left hold]
  simp [currentLine, hnew]

section

variable {s t u : State} {c : Byte} {line : List Byte}

theorem lineTyped_nil (h : ReadyQ s) : LineTyped s [] s :=
  ⟨rfl, h, by simp, rfl, by simp, by simp, rfl⟩

/-- One ordinary byte that fits. -/
theorem lineTyped_single (h : ReadyQ s) (ho : ordinary c = true) (hl : s.length + 1 < s.cfg.N) :
    ∃ t, exec (.ciStep c) s = .next t ∧ LineTyped s [c] t := by
  obtain ⟨-, htail, -⟩ := indices_of_readyQ h
  have hready := readyQ_of_eq (t := { s with length := s.length + 1 }) h rfl rfl rfl rfl rfl rfl rfl htail hl
  exact ⟨_, ordinaryByteIsAppendedAndEchoed s c h ho hl, rfl, hready, currentLine_appended rfl rfl, rfl, rfl, rfl, rfl⟩

/-- What is typed after it is kept after it. -/
theorem LineTyped.trans {line' : List Byte} (h : LineTyped s line t) (h' : LineTyped t line' u) :
    LineTyped s (line ++ line') u where
  config := h'.config.trans h.config
  ready := h'.ready
  kept := by rw [h'.kept, h.kept, List.append_assoc]
  grown := by rw [h'.grown, h.grown, List.length_append, Nat.add_assoc]
  echoed := by rw [h'.echoed, h.echoed, List.append_assoc]
  recorded := by rw [h'.recorded, h.recorded, List.map_append, List.append_assoc]
  pinLeft := h'.pinLeft.trans h.pinLeft

/-- A line of ordinary bytes that fits is typed to its end. -/
theorem execAll_typing (h : ReadyQ s) (hfit : s.length + line.length < s.cfg.N) (ho : ∀ c ∈ line, ordinary c = true) :
    ∃ t, execAll (typing line) s = .next t ∧ LineTyped s line t := by
  induction line generalizing s with
  | nil => exact ⟨s, rfl, lineTyped_nil h⟩
  | cons c rest ih =>
    rw [List.length_cons] at hfit
    obtain ⟨u, hu, hone⟩ := lineTyped_single h (ho c List.mem_cons_self) (by omega)
    have hrest : u.length + rest.length < u.cfg.N := by
      rw [hone.grown, hone.config, List.length_singleton]
      omega
    obtain ⟨t, ht, hmany⟩ := ih hone.ready hrest fun d hd => ho d (List.mem_cons_of_mem c hd)
    obtain ⟨-, hi, -⟩ := h
    exact ⟨t, (execAll_append (as := [⟨.q, .ciStep c⟩]) (execAll_single hi hu)).trans ht, hone.trans hmany⟩

/-- A command typed from an empty line, and CR: the command is echoed, and carried out as CR on its text is (R150). -/
theorem execAll_typing_command {text : List Byte} {cmd : Command} (hmem : (text, cmd) ∈ commandTable) (h : ReadyQ s)
    (hempty : s.length = 0) (hfit : text.length < s.cfg.N) :
    ∃ t, execAll (typing (text ++ [Text.cr])) s = .next t ∧ ReadyQ t ∧ t.cfg = s.cfg ∧ t.length = 0 ∧
      t.pin = (levelWritten cmd s.pin).getD s.pin ∧
      t.txOut = s.txOut ++ text ++ Text.crlf ++ messageOf s.cfg s.pin cmd ++ Text.prompt ∧
      t.history = s.history ++ (text ++ Text.crlf).map .tx ++ (levelWritten cmd s.pin).toList.map .setOutput ++
        (messageOf s.cfg s.pin cmd ++ Text.prompt).map .tx := by
  have hordinary : ∀ entry ∈ commandTable, ∀ c ∈ entry.1, ordinary c = true := by decide
  obtain ⟨u, hu, hcfg, hr, hkept, -, hecho, hrec, hpin⟩ :=
    execAll_typing h (line := text) (by omega) (hordinary _ hmem)
  have hline : currentLine u = text := by simpa [currentLine, hempty] using hkept
  have hcr := exec_cr_of_command hr (lookupCommand_of_line hmem hline)
  obtain ⟨-, htail, hlen⟩ := indices_of_readyQ hr
  have hready := readyQ_of_eq (t := { u with length := 0 }) hr rfl rfl rfl rfl rfl rfl rfl htail (Nat.zero_lt_of_lt hlen)
  obtain ⟨-, hi, -⟩ := hr
  have hall := (execAll_append hu).trans (execAll_single hi hcr)
  have hsplit : typing (text ++ [Text.cr]) = typing text ++ [⟨.q, .ciStep Text.cr⟩] := List.map_append
  rw [hcfg, hpin, hecho, hrec] at hall
  rw [hsplit]
  exact ⟨_, hall, by rwa [hcfg] at hready, rfl, rfl, rfl, rfl, by simp⟩

end

/-- Settles O41: from an empty line, what is in progress after the typing is what was typed. -/
theorem typedLineIsEchoedAndKept : Obligations.TypedLineIsEchoedAndKept := by
  unfold Obligations.TypedLineIsEchoedAndKept
  intro s line h hempty hfit ho
  obtain ⟨t, ht, htyped⟩ := execAll_typing h (by omega) ho
  have hline : currentLine s = [] := by simp [currentLine, hempty]
  exact ⟨t, ht, htyped.ready, by rw [htyped.kept, hline, List.nil_append], by rw [htyped.grown, hempty, Nat.zero_add],
    htyped.echoed, htyped.pinLeft⟩

/-- Settles O42: each time the level written is the inverse of the level there. -/
theorem toggleTwiceRestoresThePin : Obligations.ToggleTwiceRestoresThePin := by
  unfold Obligations.ToggleTwiceRestoresThePin
  intro s h hempty hfit
  have hmem : (Text.toggle, Command.toggle) ∈ commandTable := by decide
  obtain ⟨t, ht, hready, hcfg, hlen, hpin, hecho, hrec⟩ := execAll_typing_command hmem h hempty hfit
  obtain ⟨u, hu, -, -, hlen', hpin', -⟩ := execAll_typing_command hmem hready hlen (hcfg ▸ hfit)
  exact ⟨t, u, ht, hpin, hlen, hecho, hrec, hu, by simp [hpin', hpin, levelWritten], hlen'⟩

/-! ### CI_ITER (R148) -/

section

variable {s t : State}

/-- The state after the pop of a CI_ITER whose sample shows a byte (40_ringbuffer.md R105). -/
def popped (s : State) : State :=
  { (readHeadFromQ s).2 with
    tail := nextIndex s.cfg s.tail, pops := s.pops + 1,
    history := s.history ++ [.popSome (slotByte s s.tail) s.tail],
    qHeadSeen := (readHeadFromQ s).1, qByte := slotByte s s.tail }

@[simp] theorem popped_tail : (popped s).tail = nextIndex s.cfg s.tail := rfl
@[simp] theorem popped_pops : (popped s).pops = s.pops + 1 := rfl
@[simp] theorem popped_frame :
    (popped s).cfg = s.cfg ∧ (popped s).life = s.life ∧ (popped s).head = s.head ∧ (popped s).pPhase = s.pPhase ∧
    (popped s).qPhase = s.qPhase ∧ (popped s).qOp = s.qOp ∧ (popped s).chars = s.chars ∧
    (popped s).length = s.length ∧ (popped s).pin = s.pin ∧ (popped s).issuer = s.issuer ∧
    (popped s).results = s.results := by
  simp [popped]

theorem readyQ_popped (h : ReadyQ s) : ReadyQ (popped s) := by
  obtain ⟨-, htail, hlen⟩ := indices_of_readyQ h
  have hnext : nextIndex s.cfg s.tail < s.cfg.C := nextIndex_lt (Nat.zero_lt_of_lt htail) _
  exact readyQ_of_eq h (by simp) (by simp) (by simp) (by simp) (by simp) (by simp) (by simp) hnext (by simpa using hlen)

/-- A CI_ITER that Q may begin pops a byte and works off its row, or polls once. -/
theorem exec_ciIter (h : ReadyQ s) : exec .ciIter s = .next (qFinish (samplingBegun .ciIter s)) := by
  rw [exec, execCiIter, beginCiIter, admitQ_of_readyQ h]
  rfl

/-- A CI_ITER that sees a byte is the pop of it and then its CI_STEP. -/
theorem exec_ciIter_of_byte (h : ReadyQ s) (hb : (readHeadFromQ s).1 ≠ s.tail) :
    exec .ciIter s = exec (.ciStep (slotByte s s.tail)) (popped s) := by
  have hread := readHeadFromQ_samplingBegun .ciIter s
  have hready := readyQ_popped h
  rw [exec_ciIter h, exec_ciStep hready, ← qDone_row hready, ← qFinish_row_withOp _ _ .ciIter .publish,
    qFinish_of_byte (s := samplingBegun .ciIter s) rfl (.inr (.inr rfl)) (by rwa [hread]), hread]
  rfl

/-- A CI_ITER that sees none has polled once and waits (R135, R148). -/
theorem exec_ciIter_of_none (h : ReadyQ s) (hb : (readHeadFromQ s).1 = s.tail) :
    exec .ciIter s = .next { (readHeadFromQ s).2 with
      history := s.history ++ [.popNone], qHeadSeen := (readHeadFromQ s).1, qOp := .ciIter, qPhase := .sample } := by
  have hread := readHeadFromQ_samplingBegun .ciIter s
  rw [exec_ciIter h, qFinish_of_none (s := samplingBegun .ciIter s) rfl (.inr (.inr rfl)) (by rwa [hread]), hread,
    popEmpty]
  simp [samplingBegun, finishWork, record]

end

/-- Settles O43: the iteration is the CI_STEP of the byte popped, which leaves the pop as it is and Q at rest. -/
theorem iterationPopsAndStepsTheTable : Obligations.IterationPopsAndStepsTheTable := by
  unfold Obligations.IterationPopsAndStepsTheTable
  refine fun s h => ⟨fun hb => ?_, exec_ciIter_of_none h⟩
  have hready := readyQ_popped h
  have hstep := exec_ciStep hready (slotByte s s.tail)
  obtain ⟨-, -, hidle, -⟩ := hready
  exact ⟨_, (exec_ciIter_of_byte h hb).trans hstep, by simp, by simp, by simpa using hidle, hstep⟩

/-! ### What CI_STEP and CI_ITER leave unchanged (R148, R150 to R153) -/

/-- A property that each of the acts keeps is kept by all of them in order. -/
theorem doActs_keeps {I : State → Prop} {acts : List CiAct} (hI : ∀ a ∈ acts, ∀ s, I s → I (doAct a s)) {s : State}
    (h : I s) : I (doActs acts s) := by
  induction acts generalizing s with
  | nil => exact h
  | cons a rest ih =>
    exact ih (fun b hb => hI b (List.mem_cons_of_mem a hb)) (hI a List.mem_cons_self s h)

/-- Only APPEND writes the line buffer. -/
theorem doAct_chars {a : CiAct} (h : ∀ c, a ≠ .append c) (s : State) : (doAct a s).chars = s.chars := by
  cases a with
  | append c => exact absurd rfl (h c)
  | effect cmd => cases cmd <;> rfl
  | transmit b => rfl
  | unknown line => rfl
  | resetLength => rfl
  | erase => rfl
  | drop c => rfl

/-- Only the effect of a command writes the pin. -/
theorem doAct_pin {a : CiAct} (h : ∀ cmd, a ≠ .effect cmd) (s : State) : (doAct a s).pin = s.pin := by
  cases a with
  | effect cmd => exact absurd rfl (h cmd)
  | append c => rfl
  | transmit b => rfl
  | unknown line => rfl
  | resetLength => rfl
  | erase => rfl
  | drop c => rfl

section

variable {s t : State} {c : Byte}

/-- A byte that is no ordinary one, or does not fit, is not appended. -/
theorem append_notMem_ciRow (h : ordinary c = false ∨ s.cfg.N ≤ s.length + 1) (d : Byte) :
    CiAct.append d ∉ ciRow c s := by
  obtain ⟨-, hr⟩ | ⟨-, -, hr⟩ | ⟨hcr, hdel, hback, hl, -⟩ | ⟨-, -, -, -, hr⟩ := ciRow_cases c s
  · intro hd
    obtain ⟨hrow, -⟩ := append_mem_ciRow hd
    simp [hr, rowCr, rowAppend, emitActs, Text.crlf] at hrow
  · simp [hr, rowErase, emitActs]
  · have ho : ordinary c = true := ordinary_iff.mpr ⟨hcr, hdel, hback⟩
    rcases h with h | h
    · rw [ho] at h
      cases h
    · omega
  · simp [hr, rowDrop]

/-- Only CR runs a command. -/
theorem effect_notMem_ciRow (h : c ≠ Text.cr) (cmd : Command) : CiAct.effect cmd ∉ ciRow c s := by
  obtain ⟨hcr, -⟩ | ⟨-, -, hr⟩ | ⟨-, -, -, -, hr⟩ | ⟨-, -, -, -, hr⟩ := ciRow_cases c s
  · exact absurd hcr h
  · simp [hr, rowErase, emitActs]
  · simp [hr, rowAppend]
  · simp [hr, rowDrop]

/-- The row of a byte that is not appended leaves the line buffer as it was. -/
theorem doActs_row_chars (h : ordinary c = false ∨ s.cfg.N ≤ s.length + 1) :
    (doActs (ciRow c s) s).chars = s.chars :=
  doActs_keeps (I := fun u => u.chars = s.chars)
    (fun _ ha u hu => (doAct_chars (fun d hd => append_notMem_ciRow h d (hd ▸ ha)) u).trans hu) rfl

/-- The row of any byte but CR leaves the pin as it was. -/
theorem doActs_row_pin (h : c ≠ Text.cr) : (doActs (ciRow c s) s).pin = s.pin :=
  doActs_keeps (I := fun u => u.pin = s.pin)
    (fun _ ha u hu => (doAct_pin (fun cmd hcmd => effect_notMem_ciRow h cmd (hcmd ▸ ha)) u).trans hu) rfl

/-- Any row leaves every cell but those at `length` and `length + 1` as it was. -/
theorem charByte_row {j : Nat} (hj : j ≠ s.length) (hj' : j ≠ s.length + 1) :
    charByte (doActs (ciRow c s) s) j = charByte s j := by
  by_cases hfits : ordinary c = true ∧ s.length + 1 < s.cfg.N
  · obtain ⟨ho, hl⟩ := hfits
    rw [ciRow_of_fits ho hl]
    exact charByte_appended rfl hj hj'
  · rw [not_and_or, Bool.not_eq_true, not_lt] at hfits
    rw [charByte, doActs_row_chars hfits, charByte]

/-- What CI_STEP leaves alone. -/
theorem ciStep_frame (h : exec (.ciStep c) s = .next t) :
    (∀ j, j ≠ s.length → j ≠ s.length + 1 → charByte t j = charByte s j) ∧
    (ordinary c = false ∨ s.cfg.N ≤ s.length + 1 → ∀ j, charByte t j = charByte s j) ∧
    (c ≠ Text.cr → t.pin = s.pin) ∧ t.tail = s.tail ∧ t.pops = s.pops ∧ t.seenHeadN = s.seenHeadN ∧
    t.qHeadSeen = s.qHeadSeen ∧ t.qByte = s.qByte ∧ t.results = s.results ∧ t.draw = s.draw := by
  rw [exec_ciStep (readyQ_of_ciStep h)] at h
  cases h
  refine ⟨fun j => charByte_row, fun hc j => ?_, doActs_row_pin, by simp⟩
  simp only [charByte, doActs_row_chars hc]

/-- What CI_ITER leaves alone: it is the CI_STEP of the byte it pops, or one poll. -/
theorem ciIter_frame (h : exec .ciIter s = .next t) :
    (∀ j, j ≠ s.length → j ≠ s.length + 1 → charByte t j = charByte s j) ∧
    (ordinary (slotByte s s.tail) = false ∨ s.cfg.N ≤ s.length + 1 → ∀ j, charByte t j = charByte s j) ∧
    (slotByte s s.tail ≠ Text.cr → t.pin = s.pin) ∧
    (t.pops = s.pops → t.tail = s.tail ∧ (∀ j, charByte t j = charByte s j) ∧ t.length = s.length ∧ t.pin = s.pin ∧
      t.txOut = s.txOut) ∧
    t.results = s.results := by
  have hready := readyQ_of_ciIter h
  by_cases hb : (readHeadFromQ s).1 = s.tail
  · rw [exec_ciIter_of_none hready hb] at h
    cases h
    simp [charByte]
  · rw [exec_ciIter_of_byte hready hb] at h
    have hchars : ∀ j, charByte (popped s) j = charByte s j := fun j => by simp [charByte]
    obtain ⟨hcells, hkept, hpin, -, hpops, -, -, -, hresults, -⟩ := ciStep_frame h
    simp only [popped_frame, popped_pops, hchars] at hcells hkept hpin hpops hresults
    exact ⟨hcells, hkept, hpin, fun hnone => absurd (hpops.symm.trans hnone) (by omega), hresults⟩

end

/-- Settles O47: the frames of the two operations. -/
theorem interpreterFrame : Obligations.InterpreterFrame := by
  unfold Obligations.InterpreterFrame
  exact ⟨fun _ _ _ => ciStep_frame, fun _ _ => ciIter_frame⟩

/-! ### The interpreter's start (R147) -/

/-- The interpreter's start, begun. -/
def bannerBegun (s : State) : State :=
  { s with length := 0, interpStarted := true, qOp := .ciStart, qWork := emitActs s.cfg.msgBanner }

/-- At the interpreter's work, the rest of Q's operation is that work. -/
theorem qFinish_of_idle {s : State} (h : s.qPhase = .idle) : qFinish s = qDone (doActs s.qWork s) := by
  simp [qFinish, finishPop, finishWork, h]

section

variable {s : State}

/-- Where Q may begin an operation, only a start made before keeps the interpreter from its start (60_exceptions.md
R194). -/
theorem beginInterpreter_of_readyQ (h : ReadyQ s) :
    beginInterpreter s = if s.interpStarted then .refused .alreadyStarted else .next (bannerBegun s) := by
  obtain ⟨hop, -, ho, hp, hs⟩ := h
  rw [beginInterpreter, withLegalShape_eq _ hop, afterInit_eq _ hop, whenQIdle, whenQMayRun, if_neg (not_preempted hs),
    if_neg (by simp [qBusy, ho, hp])]
  rfl

/-- The rest of the start is the banner (R147). -/
theorem resume_bannerBegun (h : ReadyQ s) :
    takeTurn (.resume .q) (bannerBegun s) = .next { s with
      length := 0, interpStarted := true, qWork := [],
      txOut := s.txOut ++ s.cfg.msgBanner, history := s.history ++ s.cfg.msgBanner.map .tx } := by
  obtain ⟨hhead, htail, hlen⟩ := indices_of_readyQ h
  obtain ⟨⟨hw, -, -⟩, -, ho, hp, hs⟩ := h
  have hindices : indicesLegal (bannerBegun s) = true :=
    indicesLegal_iff.mpr ⟨hhead, htail, Nat.zero_lt_of_lt hlen⟩
  have hresume : takeTurn (.resume .q) (bannerBegun s) = .next (qFinish (bannerBegun s)) :=
    continueQ_of_busy (s := bannerBegun s) hw hindices qFinish hs (.inl nofun)
  have hwork : (bannerBegun s).qWork = emitActs s.cfg.msgBanner := rfl
  rw [hresume, qFinish_of_idle (s := bannerBegun s) hp, hwork, doActs_emit]
  simp [qDone, bannerBegun, ho, hp]

end

/-- Settles O44: the rest of the start transmits the banner. -/
theorem interpreterStartsOnceWithBanner : Obligations.InterpreterStartsOnceWithBanner := by
  unfold Obligations.InterpreterStartsOnceWithBanner
  intro s h
  have hstart : takeTurn .interpreterStart s = beginInterpreter s := rfl
  rw [hstart, beginInterpreter_of_readyQ h]
  exact ⟨fun hi => ⟨bannerBegun s, if_neg (by simp [hi]), resume_bannerBegun h⟩, fun hi => if_pos hi⟩

end Sys2Proof.Machine

/-! ## Requests without a meaning, the interrupt, and what each agent leaves alone (60_exceptions.md R175 to R199) -/

namespace Sys2Proof.Machine

open Safety

/-! ### Who may issue an operation (R193, R199; 30_encoding.md R83) -/

/-- The agents that `exec` admits an operation from. -/
def issuersOf (i : Instr) : List Agent :=
  match i with
  | .tryPush _ | .rxIrq => [.p]
  | .isEmpty => [.p, .q]
  | .tryPop | .readByte | .dataAvailable | .ciIter | .ciStep _ => [.q]
  | .rxArrive _ => [.e]
  | .init => [.s]

/-- They are the ones the operation is given to. -/
theorem mem_issuersOf_iff {i : Instr} {a : Agent} : a ∈ issuersOf i ↔ i.issuableBy a = true := by
  cases i with
  | isEmpty => simp [issuersOf, Instr.issuableBy, or_comm]
  | _ => simp [issuersOf, Instr.issuableBy]

/-- Every operation begins with the tests of the parameters, of the indices and of its issuer, in that order. -/
theorem begin_admission (i : Instr) (s : State) :
    ∃ k, begin i s = withLegalShape s (withIssuer (issuersOf i) s k) := by
  cases i <;> exact ⟨_, rfl⟩

/-- What keeps an operation from beginning keeps it from running. -/
theorem exec_of_begin_refused {i : Instr} {s : State} {r : Refusal} (h : begin i s = .refused r) :
    exec i s = .refused r := by
  have hrun : ∀ {o f}, o = .refused r → thenRun o f = .refused r := fun ho => by rw [ho, thenRun]
  cases i with
  | rxArrive b => exact h
  | init => exact h
  | _ => exact hrun h

/-- An operation that runs was issued by an agent it is given to. -/
theorem issuableBy_of_exec {i : Instr} {s t : State} (h : exec i s = .next t) : i.issuableBy s.issuer = true := by
  obtain ⟨u, hu⟩ := exec_begins h
  obtain ⟨k, hk⟩ := begin_admission i s
  obtain ⟨-, -, hi⟩ := withLegalShape_next (hk.symm.trans hu)
  obtain ⟨hmem, -⟩ := withIssuer_next hi
  exact mem_issuersOf_iff.mp hmem

section

variable {s : State} (k : Host.Outcome State Fault Refusal)

theorem withLegalShape_of_badParameters (h : s.cfg.wf = false) : withLegalShape s k = .refused .badParameters :=
  if_pos h

theorem withIssuer_of_further {id : Nat} (h : s.issuer = .further id) (allowed : List Agent) :
    withIssuer allowed s k = .refused .furtherAgent := by
  rw [withIssuer, h]

theorem withIssuer_of_notMem {allowed : List Agent} (hne : ∀ id, s.issuer ≠ .further id) (h : s.issuer ∉ allowed) :
    withIssuer allowed s k = .refused .wrongAgent := by
  unfold withIssuer
  split
  next id hi => exact absurd hi (hne id)
  all_goals exact if_neg (by simp_all)

end

/-- Settles O8: the parameters are the first test that every operation makes and its issuer the third, after that of the
indices. -/
theorem operationWithoutMeaningIsRefused : Obligations.OperationWithoutMeaningIsRefused := by
  unfold Obligations.OperationWithoutMeaningIsRefused
  intro i s
  obtain ⟨k, hk⟩ := begin_admission i s
  refine ⟨fun hsize => ?_, fun hw hl => ⟨fun id hi => ?_, fun hne hi => ?_⟩⟩ <;>
    refine exec_of_begin_refused (hk.trans ?_)
  · have hw : s.cfg.wf = false := by
      rw [← Bool.not_eq_true, config_wf_iff]
      omega
    exact withLegalShape_of_badParameters _ hw
  · simp [withLegalShape, hw, hl, withIssuer_of_further k hi]
  · have hmem : s.issuer ∉ issuersOf i := by simp [mem_issuersOf_iff, hi]
    simp [withLegalShape, hw, hl, withIssuer_of_notMem k hne hmem]

/-! ### The request, its dispatch and the return (R182 to R191; 41_receiver.md R124) -/

/-- A request that is due to a P that may begin an operation is taken by the entry to the handler, and nothing else. -/
theorem begin_rxIrq_of_due {s : State} (h : ReadyP s) (hd : dispatchDue s = true) :
    begin .rxIrq s = .next (enterHandler s) := by
  obtain ⟨hop, hi, hp⟩ := h
  rw [begin, beginRxIrq, admitP_eq _ hop hi hp, if_pos hd]

/-- Settles O26: the entry is admitted, and the return of the handler drops its result. -/
theorem handlerEntryAndReturnChangeOnlyPhase : Obligations.HandlerEntryAndReturnChangeOnlyPhase := by
  unfold Obligations.HandlerEntryAndReturnChangeOnlyPhase
  refine ⟨fun s h hready hie => begin_rxIrq_of_due h (dispatchDue_of_readyP h hready hie), fun s hp hisr => ?_⟩
  rw [pStep_of_ret hp, pReturn_handler hisr]

/-- No move clears the enable of the interrupt: `INIT` does so in its first action and sets it in its last
(70_reset_and_hazards.md R208). -/
theorem move_rxIe {s t : State} (h : Move s t) (hs : s.rxIe = true) : t.rxIe = true := by
  cases h with
  | port => exact hs
  | p => simpa using hs
  | q => simpa using hs
  | push => exact hs
  | dispatch => exact hs
  | emptyByP => simpa [isEmptyByP] using hs
  | sampling => exact hs
  | row => exact hs
  | interpreter => exact hs
  | arrive => exact hs
  | overrun b =>
    unfold overrunByte
    dsimp only
    split <;> exact hs
  | init => rfl

/-- Settles O28: no move masks the request, and an enabled, pending one is due to an idle P by definition. -/
theorem interruptIsNeverMasked : Obligations.InterruptIsNeverMasked := by
  unfold Obligations.InterruptIsNeverMasked
  intro s t h ha hie
  have ht : t.rxIe = true := step_keeps (fun _ _ => move_rxIe) hie h
  exact ⟨step_keeps (fun _ _ => move_life) ha h, ht, fun hready hp => by simp [dispatchDue, rxRequest, ht, hready, hp]⟩

/-! ### What P leaves alone (R193; 10_state.md R22, R25) -/

/-- P's operation has written the slot at `head` and counted its push, or has written no slot and counted none. -/
def SlotWrittenIfPushed (s t : State) : Prop :=
  (t.storage = s.storage ∧ t.pushes = s.pushes) ∨
  ((∃ b, t.storage = memPut s.storage s.head b) ∧ t.pushes = s.pushes + 1)

/-- The slots that an operation of P leaves as they were. -/
theorem SlotWrittenIfPushed.slots {s t : State} (h : SlotWrittenIfPushed s t) :
    (∀ j, j ≠ s.head → slotByte t j = slotByte s j) ∧ (t.pushes = s.pushes → ∀ j, slotByte t j = slotByte s j) := by
  obtain ⟨hst, -⟩ | ⟨⟨b, hst⟩, hn⟩ := h
  · have hslots : ∀ j, slotByte t j = slotByte s j := fun j => by rw [slotByte, hst, slotByte]
    exact ⟨fun j _ => hslots j, fun _ => hslots⟩
  · exact ⟨fun j => slotByte_of_memPut hst, fun he => by omega⟩

/-- P's return touches no slot, no counter and no flag of E's. -/
theorem pReturn_frame (s : State) :
    (pReturn s).storage = s.storage ∧ (pReturn s).pushes = s.pushes ∧ (pReturn s).rxReady = s.rxReady := by
  unfold pReturn
  split <;> simp

/-- At `P_RET` the rest of P's operation is its return (41_receiver.md R126). -/
theorem pFinish_of_ret {s : State} (hp : s.pPhase = .ret) : pFinish s = pReturn s := by
  simp only [pFinish, pStep_of_ret hp, pStep_of_idle (pReturn_idle _)]

/-- From P's sample on, or from its return on, a slot is written exactly where a push is accepted, and the flag of the
data register is let be. -/
theorem pFinish_slotWrittenIfPushed {s : State} (hp : s.pPhase = .sample ∨ s.pPhase = .ret) :
    SlotWrittenIfPushed s (pFinish s) ∧ (pFinish s).rxReady = s.rxReady := by
  rcases hp with hp | hp
  · by_cases hl : s.cfg.legacyOverwrite = true
    · rw [pFinish_of_legacy hp hl]
      simp [SlotWrittenIfPushed, pReturn_frame]
    · rw [Bool.not_eq_true] at hl
      by_cases hr : nextIndex s.cfg s.head = (readTailFromP s).1
      · rw [pFinish_of_full hp hl hr]
        simp [SlotWrittenIfPushed, pReturn_frame]
      · rw [pFinish_of_room hp hl hr]
        simp [SlotWrittenIfPushed, pReturn_frame]
  · rw [pFinish_of_ret hp]
    simp [SlotWrittenIfPushed, pReturn_frame]

/-- The handler is admitted where P may begin an operation and the request is due. -/
theorem ready_of_rxIrq {s t : State} (h : exec .rxIrq s = .next t) : ReadyP s ∧ dispatchDue s = true := by
  obtain ⟨u, hu⟩ := exec_begins h
  obtain ⟨hop, hi, hp, -⟩ := admitP_next hu
  obtain ⟨-, hd, -⟩ := beginRxIrq_next hu
  exact ⟨⟨hop, hi, hp⟩, hd⟩

/-- IS_EMPTY that P may begin runs to its return. -/
theorem exec_isEmpty_byP {s : State} (h : ReadyP s) : exec .isEmpty s = .next (pFinish (isEmptyByP s)) := by
  obtain ⟨hop, hi, hp⟩ := h
  rw [exec, execIsEmpty, beginIsEmpty, admitted_eq _ hop hi (by simp) nofun, if_pos hi, if_pos hi, whenPIdle,
    if_neg (by simp [pBusy, hp]), thenRun]

/-- What runs of P's is the push of a byte, the handler or the poll, each from its beginning to its return. -/
theorem exec_of_p {i : Instr} {s t : State} (hi : s.issuer = .p) (h : exec i s = .next t) :
    (∃ b, i = .tryPush b ∧ t = pFinish (pushBegun b s)) ∨ (i = .rxIrq ∧ t = pFinish (handlerFetched s)) ∨
    (i = .isEmpty ∧ t = pFinish (isEmptyByP s)) := by
  have hissue := issuableBy_of_exec h
  rw [hi] at hissue
  cases i with
  | tryPush b =>
    rw [exec_tryPush (readyP_of_tryPush h)] at h
    exact .inl ⟨b, rfl, (Host.Outcome.next.inj h).symm⟩
  | rxIrq =>
    obtain ⟨hready, hd⟩ := ready_of_rxIrq h
    rw [exec_rxIrq_of_due hready hd] at h
    exact .inr (.inl ⟨rfl, (Host.Outcome.next.inj h).symm⟩)
  | isEmpty =>
    have hready : ReadyP s := (ready_of_isEmpty h).resolve_right fun ⟨_, hq, _⟩ => nomatch hi.symm.trans hq
    rw [exec_isEmpty_byP hready] at h
    exact .inr (.inr ⟨rfl, (Host.Outcome.next.inj h).symm⟩)
  | tryPop => cases hissue
  | rxArrive b => cases hissue
  | readByte => cases hissue
  | dataAvailable => cases hissue
  | ciIter => cases hissue
  | ciStep c => cases hissue
  | init => cases hissue

/-- Everything of Q's, of the collaborators' and of E's data register but its flag, with the parameters and the schedule,
is in `t` what it is in `s`. -/
def LeftByP (s t : State) : Prop :=
  t.chars = s.chars ∧ t.cfg = s.cfg ∧ t.life = s.life ∧ t.tail = s.tail ∧ t.pops = s.pops ∧
  t.seenHeadN = s.seenHeadN ∧ t.rxData = s.rxData ∧ t.rxIe = s.rxIe ∧ t.rxFurther = s.rxFurther ∧
  t.qPhase = s.qPhase ∧ t.qHeadSeen = s.qHeadSeen ∧ t.qByte = s.qByte ∧ t.qOp = s.qOp ∧ t.qWork = s.qWork ∧
  t.length = s.length ∧ t.interpStarted = s.interpStarted ∧ t.pin = s.pin ∧ t.txOut = s.txOut ∧
  t.schedule = s.schedule

/-- The micro-steps of P keep it so. -/
theorem LeftByP.pFinish {s t : State} (h : LeftByP s t) : LeftByP s (pFinish t) := by
  simpa [LeftByP] using h

theorem leftByP_isEmptyByP (s : State) : LeftByP s (isEmptyByP s) := by simp [LeftByP, isEmptyByP]

/-- P's poll touches no slot, not `head`, and not the flag of the data register. -/
theorem isEmptyByP_frame (s : State) :
    (isEmptyByP s).storage = s.storage ∧ (isEmptyByP s).head = s.head ∧ (isEmptyByP s).pushes = s.pushes ∧
    (isEmptyByP s).rxReady = s.rxReady := by
  simp [isEmptyByP]

/-- What an operation of P leaves alone, and the one slot it may write. -/
theorem exec_producer_frame {i : Instr} {s t : State} (hi : s.issuer = .p) (h : exec i s = .next t) :
    LeftByP s t ∧ SlotWrittenIfPushed s t ∧ (i ≠ .rxIrq → t.rxReady = s.rxReady) := by
  obtain ⟨b, -, rfl⟩ | ⟨rfl, rfl⟩ | ⟨-, rfl⟩ := exec_of_p hi h
  · obtain ⟨hslot, hready⟩ := pFinish_slotWrittenIfPushed (s := pushBegun b s) (.inl rfl)
    exact ⟨LeftByP.pFinish (by simp [LeftByP, pushBegun]), hslot, fun _ => hready⟩
  · obtain ⟨hslot, -⟩ := pFinish_slotWrittenIfPushed (s := handlerFetched s) (.inl rfl)
    exact ⟨LeftByP.pFinish (by simp [LeftByP, handlerFetched]), hslot, fun hne => absurd rfl hne⟩
  · obtain ⟨hslot, hready⟩ := pFinish_slotWrittenIfPushed (s := isEmptyByP s) (.inr rfl)
    simp only [SlotWrittenIfPushed, isEmptyByP_frame] at hslot hready
    exact ⟨(leftByP_isEmptyByP s).pFinish, hslot, fun _ => hready⟩

/-- Settles O45: the frame of P's three operations. -/
theorem producerFrame : Obligations.ProducerFrame := by
  unfold Obligations.ProducerFrame
  intro i s t hi h
  obtain ⟨hleft, hslot, hready⟩ := exec_producer_frame hi h
  obtain ⟨hother, hnone⟩ := hslot.slots
  obtain ⟨hchars, hcfg, hlife, htail, hpops, hseen, hdata, hie, hfurther, hq⟩ := hleft
  exact ⟨hother, hnone, fun j => by rw [charByte, hchars, charByte], hcfg, hlife, htail, hpops, hseen, hdata, hie,
    hfurther, hready, hq⟩

/-! ### What Q leaves alone (R193; 10_state.md R22, R25) -/

/-- Every slot, everything of P's and the data register with its flags, with the parameters and the schedule, is in `t`
what it is in `s`. -/
def LeftByQ (s t : State) : Prop :=
  t.storage = s.storage ∧ t.cfg = s.cfg ∧ t.life = s.life ∧ t.head = s.head ∧ t.pushes = s.pushes ∧
  t.seenTailN = s.seenTailN ∧ t.rxData = s.rxData ∧ t.rxReady = s.rxReady ∧ t.rxIe = s.rxIe ∧
  t.rxFurther = s.rxFurther ∧ t.pPhase = s.pPhase ∧ t.pByte = s.pByte ∧ t.pTailSeen = s.pTailSeen ∧ t.pOk = s.pOk ∧
  t.pIsr = s.pIsr ∧ t.interpStarted = s.interpStarted ∧ t.schedule = s.schedule

theorem LeftByQ.qStep {s t : State} (h : LeftByQ s t) : LeftByQ s (qStep t) := by
  simpa [LeftByQ] using h

theorem LeftByQ.qFinish {s t : State} (h : LeftByQ s t) : LeftByQ s (qFinish t) :=
  qFinish_keeps (I := LeftByQ s) (fun _ => LeftByQ.qStep) h

/-- Q is in no operation of the interpreter, and the line buffer, the pin and the outbound stream are in `t` what they
are in `s`. -/
def ClientLeft (s t : State) : Prop :=
  (t.qOp ≠ .ciIter ∧ (t.qPhase = .idle → t.qWork = [])) ∧
  t.chars = s.chars ∧ t.length = s.length ∧ t.pin = s.pin ∧ t.txOut = s.txOut

/-- Outside the interpreter's operations Q has no work of the interpreter's to do, and comes to none
(43_command_interpreter.md R163). -/
theorem ClientLeft.qStep {s t : State} (h : ClientLeft s t) : ClientLeft s (qStep t) := by
  obtain ⟨⟨hop, hwork⟩, hclient⟩ := h
  cases hp : t.qPhase with
  | idle => simpa [ClientLeft, Machine.qStep, hp, qWorkStep, hwork hp] using hclient
  | sample =>
    cases ho : t.qOp with
    | ciIter => exact absurd ho hop
    | _ => simpa [ClientLeft, Machine.qStep, hp, qSample, ho] using hclient
  | read =>
    by_cases he : t.qHeadSeen = t.tail
    all_goals
      cases ho : t.qOp with
      | ciIter => exact absurd ho hop
      | _ => simpa [ClientLeft, Machine.qStep, hp, qRead, popRead, popEmpty, ho, he] using hclient
  | publish =>
    cases ho : t.qOp with
    | ciIter => exact absurd ho hop
    | _ => simpa [ClientLeft, Machine.qStep, hp, qPublish, popReturn, ho] using hclient

theorem ClientLeft.qFinish {s t : State} (h : ClientLeft s t) : ClientLeft s (qFinish t) :=
  qFinish_keeps (I := ClientLeft s) (fun _ => ClientLeft.qStep) h

/-- Where the scheduler lets Q act and Q is at rest, nothing keeps it from a new operation. -/
theorem whenQIdle_eq {s : State} (k : Host.Outcome State Fault Refusal) (hs : s.cfg.sched = .free ∨ s.pPhase = .idle)
    (ho : s.qOp = .none) (hp : s.qPhase = .idle) : whenQIdle s k = k := by
  rw [whenQIdle, whenQMayRun, if_neg (not_preempted hs), if_neg (by simp [qBusy, ho, hp])]

/-- IS_EMPTY that Q may begin runs to its return. -/
theorem exec_isEmpty_byQ {s : State} (h : ReadyQ s) :
    exec .isEmpty s = .next (qFinish (samplingBegun .isEmpty s)) := by
  obtain ⟨hop, hi, ho, hp, hs⟩ := h
  have hne : s.issuer ≠ .p := by simp [hi]
  rw [exec, execIsEmpty, beginIsEmpty, admitted_eq _ hop hi (by simp) nofun, if_neg hne, if_neg hne,
    whenQIdle_eq _ hs ho hp]
  rfl

/-- What runs of Q's begins with a sample of `head` or is the row of a byte, and is then the rest of Q's operation. -/
theorem exec_of_q {i : Instr} {s t : State} (hi : s.issuer = .q) (h : exec i s = .next t) :
    (∃ op, t = qFinish (samplingBegun op s) ∧ (op = .ciIter → i = .ciIter)) ∨
    (∃ c, i = .ciStep c ∧ t = qFinish (beginRow c { s with qOp := .ciStep })) := by
  have hissue := issuableBy_of_exec h
  rw [hi] at hissue
  have hsampling : ∀ {op}, thenRun (admitQ s (.next (samplingBegun op s))) Machine.qFinish = .next t →
      t = Machine.qFinish (samplingBegun op s) := fun h => by
    obtain ⟨u, hu, rfl⟩ := thenRun_next h
    obtain ⟨-, -, -, -, -, hu⟩ := admitQ_next hu
    rw [Host.Outcome.next.inj hu]
  cases i with
  | tryPop => exact .inl ⟨.tryPop, hsampling h, nofun⟩
  | isEmpty =>
    have hready : ReadyQ s := (ready_of_isEmpty h).resolve_left fun ⟨_, hp, _⟩ => nomatch hi.symm.trans hp
    rw [exec_isEmpty_byQ hready] at h
    exact .inl ⟨.isEmpty, (Host.Outcome.next.inj h).symm, nofun⟩
  | readByte => exact .inl ⟨.readByte, hsampling h, nofun⟩
  | dataAvailable => exact .inl ⟨.dataAvailable, hsampling h, nofun⟩
  | ciIter => exact .inl ⟨.ciIter, hsampling h, fun _ => rfl⟩
  | ciStep c =>
    obtain ⟨u, hu, rfl⟩ := thenRun_next h
    obtain ⟨-, -, -, -, -, hu⟩ := admitQ_next hu
    exact .inr ⟨c, rfl, by rw [Host.Outcome.next.inj hu]⟩
  | tryPush b => cases hissue
  | rxIrq => cases hissue
  | rxArrive b => cases hissue
  | init => cases hissue

/-- Settles O46: the rest of Q's operation leaves what is not Q's, and outside the interpreter what is the client's. -/
theorem consumerFrame : Obligations.ConsumerFrame := by
  unfold Obligations.ConsumerFrame
  intro i s t hi h
  have hframe : LeftByQ s t ∧
      (i = .tryPop ∨ i = .isEmpty ∨ i = .readByte ∨ i = .dataAvailable → ClientLeft s t) := by
    obtain ⟨op, rfl, hop⟩ | ⟨c, rfl, rfl⟩ := exec_of_q hi h
    · refine ⟨LeftByQ.qFinish (by simp [LeftByQ, samplingBegun]), fun hop' => ClientLeft.qFinish ?_⟩
      have hne : op ≠ .ciIter := fun he => by simp [hop he] at hop'
      simp [ClientLeft, samplingBegun, hne]
    · exact ⟨LeftByQ.qFinish (by simp [LeftByQ, beginRow]), nofun⟩
  obtain ⟨⟨hstorage, hleft⟩, hclient⟩ := hframe
  obtain ⟨hcfg, hlife, hhead, hpushes, hseen, hdata, hready, hie, hfurther, hphase, hbyte, htail, hok, hisr, hstart,
    hsched⟩ := hleft
  refine ⟨fun j => by rw [slotByte, hstorage, slotByte], hcfg, hlife, hhead, hpushes, hseen, hdata, hready, hie, hfurther,
    hphase, hbyte, htail, hok, hisr, hstart, hsched, fun hop => ?_⟩
  obtain ⟨-, hchars, hrest⟩ := hclient hop
  exact ⟨fun j => by rw [charByte, hchars, charByte], hrest⟩

/-! ### Q inside an operation of P (R186, R189; 41_receiver.md R130) -/

/-- Everything of Q's is in `t` what it is in `s`. -/
def QAsItWas (s t : State) : Prop :=
  t.qPhase = s.qPhase ∧ t.qHeadSeen = s.qHeadSeen ∧ t.qByte = s.qByte ∧ t.qOp = s.qOp ∧ t.qWork = s.qWork ∧
  t.tail = s.tail ∧ t.pops = s.pops ∧ t.chars = s.chars ∧ t.length = s.length ∧ t.pin = s.pin ∧ t.txOut = s.txOut

/-- Nothing of Q's is P's to write. -/
theorem pStep_qAsItWas (s : State) : QAsItWas s (pStep s) := by simp [QAsItWas]

theorem pFinish_qAsItWas (s : State) : QAsItWas s (pFinish s) := by simp [QAsItWas]

/-- Nor E's. -/
theorem overrunByte_qAsItWas (b : Byte) (s : State) : QAsItWas s (overrunByte b s) := by
  unfold overrunByte
  dsimp only
  split <;> simp [QAsItWas]

/-- An arrival leaves Q as it was. -/
theorem execRxArrive_qAsItWas {b : Byte} {s t : State} (h : execRxArrive b s = .next t) : QAsItWas s t := by
  obtain ⟨-, -, h⟩ := withLegalShape_next h
  obtain ⟨-, h⟩ := withIssuer_next h
  obtain ⟨-, h⟩ := afterInit_next h
  split at h
  · split at h <;> cases h
    exact overrunByte_qAsItWas b s
  · cases h
    simp [QAsItWas, arriveByte]

/-- `INIT` runs with P idle (70_reset_and_hazards.md R208). -/
theorem idle_of_execInit {s t : State} (h : execInit s = .next t) : s.pPhase = .idle := by
  obtain ⟨-, -, h⟩ := withLegalShape_next h
  obtain ⟨-, h⟩ := withIssuer_next h
  split at h
  · cases h
  · split at h
    · cases h
    next hb =>
      simp only [pBusy, not_or, bne_iff_ne, ne_eq, not_not] at hb
      obtain ⟨hp, -⟩ := hb
      exact hp

section

variable {s t : State} (hs : s.cfg.sched = .preempt) (hp : s.pPhase ≠ .idle)
include hs hp

/-- Under `SCHED = Preempt` Q may begin nothing inside an operation of P (20_memory.md R61). -/
theorem not_readyQ_of_preempted : ¬ ReadyQ s := fun ⟨_, _, _, _, hrun⟩ =>
  hrun.elim (fun hfree => nomatch hs.symm.trans hfree) hp

/-- What begins there is an arrival. -/
theorem begin_of_preempted {i : Instr} (h : begin i s = .next t) : ∃ b, i = .rxArrive b := by
  have hP : ∀ {k}, admitP s k = .next t → ∃ b, i = .rxArrive b := fun h => by
    obtain ⟨-, -, hidle, -⟩ := admitP_next h
    exact absurd hidle hp
  have hQ : ∀ {k}, admitQ s k = .next t → ∃ b, i = .rxArrive b := fun h =>
    absurd (readyQ_of_admitQ h) (not_readyQ_of_preempted hs hp)
  cases i with
  | rxArrive b => exact ⟨b, rfl⟩
  | tryPush b => exact hP h
  | rxIrq => exact hP h
  | tryPop => exact hQ h
  | readByte => exact hQ h
  | dataAvailable => exact hQ h
  | ciIter => exact hQ h
  | ciStep c => exact hQ h
  | isEmpty =>
    have hrun : ∃ u, exec .isEmpty s = .next u := ⟨_, congrArg (thenRun · _) h⟩
    obtain ⟨u, hu⟩ := hrun
    rcases ready_of_isEmpty hu with hready | hready
    · exact absurd (idle_of_readyP hready) hp
    · exact absurd hready (not_readyQ_of_preempted hs hp)
  | init => exact absurd (idle_of_execInit h) hp

/-- Whatever is issued there leaves Q as it was. -/
theorem begin_qAsItWas {i : Instr} (h : begin i s = .next t) : QAsItWas s t := by
  obtain ⟨b, rfl⟩ := begin_of_preempted hs hp h
  exact execRxArrive_qAsItWas h

theorem exec_qAsItWas {i : Instr} (h : exec i s = .next t) : QAsItWas s t := by
  obtain ⟨u, hu⟩ := exec_begins h
  obtain ⟨b, rfl⟩ := begin_of_preempted hs hp hu
  exact execRxArrive_qAsItWas h

/-- What goes on there is P. -/
theorem continueOp_of_preempted {a : Agent} {fp fq : State → State} (h : continueOp a fp fq s = .next t) : t = fp s := by
  cases a with
  | p => exact (continueP_next h).2
  | q =>
    obtain ⟨-, -, h⟩ := withLegalShape_next h
    rw [whenQMayRun_of_preempted hs hp] at h
    cases h
  | e => cases h
  | s => cases h
  | further id => cases h

theorem takeTurn_qAsItWas {turn : Turn} (h : takeTurn turn s = .next t) : QAsItWas s t := by
  cases turn with
  | issue a w =>
    obtain ⟨i, -, h⟩ := issueWord_next h
    exact exec_qAsItWas (s := { s with issuer := a }) hs hp h
  | start a w =>
    obtain ⟨i, -, h⟩ := issueWord_next h
    exact begin_qAsItWas (s := { s with issuer := a }) hs hp h
  | micro a =>
    rw [continueOp_of_preempted hs hp h]
    exact pStep_qAsItWas s
  | resume a =>
    rw [continueOp_of_preempted hs hp h]
    exact pFinish_qAsItWas s
  | interpreterStart =>
    obtain ⟨-, -, h⟩ := withLegalShape_next h
    obtain ⟨-, h⟩ := afterInit_next h
    rw [whenQIdle, whenQMayRun_of_preempted hs hp] at h
    cases h
  | wait =>
    cases h
    simp [QAsItWas]

end

/-- Settles O51: inside an operation of P a step is P's own, an arrival or a wait, and Q is left as it was. -/
theorem qIsFrozenInsideTheHandler : Obligations.QIsFrozenInsideTheHandler := by
  unfold Obligations.QIsFrozenInsideTheHandler
  intro s t h hs hp
  cases hline : s.schedule with
  | cons turn rest =>
    rw [step_of_line hline] at h
    exact takeTurn_qAsItWas (s := { s with schedule := rest }) hs hp h
  | nil =>
    rw [step_of_no_line hline] at h
    exact takeTurn_qAsItWas (s := { s with draw := s.draw + 1 }) hs hp h

/-! ### The machine alone (R179; 00_scope.md R14) -/

/-- The turn can be taken. -/
def Enabled (turn : Turn) (s : State) : Prop := ∃ t, takeTurn turn s = .next t

theorem enabled_wait (s : State) : Enabled .wait s := ⟨s, rfl⟩

/-- The beginning of an operation is a turn that can be taken where the operation may begin. -/
theorem enabled_start {a : Agent} {w : Word} {i : Instr} {s : State} (hw : decode w = .ok i)
    (h : ∃ t, begin i { s with issuer := a } = .next t) : Enabled (.start a w) s := by
  obtain ⟨t, ht⟩ := h
  exact ⟨t, (issueWord_of_ok hw a begin s).trans ht⟩

/-- A legal machine past its startup meets what every operation asks of it. -/
theorem operational_of_legal {s : State} (h : LegalState s) (ha : s.life = .active) : Operational s :=
  ⟨h.params, indicesLegal_iff.mpr ⟨h.headInRange, h.tailInRange, h.lengthInRange⟩, ha⟩

/-- Where no operation of P holds Q out, the interleaving is free or P is idle (20_memory.md R61). -/
theorem free_or_idle_of_not_preempted {s : State} (h : ¬ (s.cfg.sched = .preempt ∧ pBusy s = true)) :
    s.cfg.sched = .free ∨ s.pPhase = .idle := by
  cases hsched : s.cfg.sched with
  | free => exact .inl rfl
  | preempt => exact .inr (by simpa [hsched, pBusy] using h)

/-- The op-word of an arrival carries its byte (30_encoding.md R86). -/
theorem decode_arrivalWord (b : Byte) : decode (0x5000#16 + b.setWidth 16) = .ok (.rxArrive b) := by
  have hw : 0x5000#16 + b.setWidth 16 = encode (.rxArrive b) := by
    revert b
    decide
  rw [hw, decode_encode]

section

variable {s : State} (h : LegalState s) (ha : s.life = .active)
include h ha

/-- P's own next move: the next transition, or the dispatch that is due (41_receiver.md R124, R126). -/
theorem enabled_ownTurnP : Enabled (ownTurnP s) s := by
  have hop := operational_of_legal h ha
  have ⟨hw, hl, _⟩ := hop
  unfold ownTurnP
  split
  next hb => exact ⟨_, continueP_of_busy hw hl pStep (by simpa [pBusy] using hb)⟩
  next hb =>
    split
    next hd =>
      have hp : s.pPhase = .idle := by simpa [pBusy] using hb
      exact enabled_start rfl ⟨_, begin_rxIrq_of_due (s := { s with issuer := .p }) ⟨hop, rfl, hp⟩ hd⟩
    next => exact enabled_wait s

/-- Q's own next move: the next micro-step, an iteration, or the interpreter's start (70_reset_and_hazards.md R212). -/
theorem enabled_ownTurnQ : Enabled (ownTurnQ s) s := by
  have hop := operational_of_legal h ha
  have ⟨hw, hl, _⟩ := hop
  unfold ownTurnQ
  split
  next => exact enabled_wait s
  next hrun =>
    have hs := free_or_idle_of_not_preempted hrun
    split
    next hb => exact ⟨_, continueQ_of_busy hw hl qStep hs (by simpa [qBusy] using hb)⟩
    next hb =>
      simp only [qBusy, Bool.or_eq_true, bne_iff_ne, ne_eq, not_or, not_not] at hb
      obtain ⟨ho, hp⟩ := hb
      split
      next =>
        exact enabled_start rfl ⟨_, admitQ_of_readyQ (s := { s with issuer := .q }) ⟨hop, rfl, ho, hp, hs⟩ _⟩
      next hi =>
        refine ⟨bannerBegun s, (withLegalShape_eq _ hop).trans ((afterInit_eq _ hop).trans ?_)⟩
        rw [whenQIdle_eq _ hs ho hp, if_neg hi]
        rfl

/-- E may deliver any byte that is no overrun, and one that is where overruns are let in (41_receiver.md R120, R122). -/
theorem enabled_arrival (b : Byte) (hroom : ¬ (s.rxReady = true ∧ s.cfg.rxOverrun = .excluded)) :
    Enabled (.start .e (0x5000#16 + b.setWidth 16)) s := by
  have hop := operational_of_legal h ha
  have hready : ReadyE { s with issuer := .e } := ⟨hop, rfl⟩
  refine enabled_start (decode_arrivalWord b) ?_
  show ∃ t, exec (.rxArrive b) { s with issuer := .e } = .next t
  rw [exec_rxArrive hready]
  split
  next hr => exact ⟨_, if_neg fun ho => hroom ⟨hr, ho⟩⟩
  next => exact ⟨_, rfl⟩

end

/-- What a legal machine turns to of itself can be taken, whatever the number of draws made. -/
theorem enabled_ownTurn {s : State} (h : LegalState s) (d : Nat) : Enabled (ownTurn s) { s with draw := d } := by
  have hd : LegalState { s with draw := d } := { h with }
  unfold ownTurn
  split
  next hs =>
    obtain ⟨hp, ho, -⟩ := h.beforeInit hs
    obtain ⟨hq, -⟩ := h.qAtRest ho
    have hindices : indicesLegal s = true := indicesLegal_iff.mpr ⟨h.headInRange, h.tailInRange, h.lengthInRange⟩
    exact enabled_start rfl
      ⟨_, exec_init (s := { s with issuer := .s, draw := d }) ⟨h.params, hindices, hs, rfl, hp, ho, hq⟩⟩
  next ha =>
    split
    · exact enabled_ownTurnP hd ha
    · exact enabled_ownTurnQ hd ha
    · unfold ownTurnE
      split
      next => exact enabled_wait _
      next hroom => exact enabled_arrival hd ha _ hroom
    · exact enabled_wait _

/-- Settles O53: with no line to take, a step is the machine's own turn. -/
theorem machineAloneIsNeverStuck : Obligations.MachineAloneIsNeverStuck := by
  unfold Obligations.MachineAloneIsNeverStuck
  intro s h hline
  rw [step_of_no_line hline]
  exact enabled_ownTurn h _

end Sys2Proof.Machine

/-! ## Process start, INIT and the quiescent state (70_reset_and_hazards.md R205 to R213) -/

namespace Sys2Proof.Machine

open Safety

/-! ### Process start (R205) -/

/-- With the default texts the two reports of the pin can be told apart (43_command_interpreter.md R159;
93_implementation_defined.md U11). -/
theorem default_textsDiffer : Config.default.textsDiffer = true := by
  simp only [Config.textsDiffer, Config.default, bne_iff_ne]
  split
  next he =>
    rw [he]
    exact (List.cons_ne_self _ _).symm
  next hne => exact Ne.symm hne

/-- Settles O4: each value stands in the definition of process start, but for the width of a pointer and the status
texts. -/
theorem resetHoldsTheSpecValues : Obligations.ResetHoldsTheSpecValues := by
  unfold Obligations.ResetHoldsTheSpecValues
  have hW : Config.default.W = 6 := by decide
  exact ⟨rfl, rfl, rfl, rfl, rfl, rfl, rfl, rfl, rfl, rfl, rfl, rfl, rfl, rfl, rfl, rfl, rfl, hW, rfl, rfl, rfl, rfl, rfl,
    default_textsDiffer⟩

/-- Process start is a legal state: the indices are 0, nothing is stored, and neither agent does anything. -/
theorem processStart_legal {c : Config} (hw : c.wf = true) : LegalState (State.processStart c) := by
  obtain ⟨hC, hN⟩ := config_wf_iff.mp hw
  exact {
    params := hw
    headInRange := Nat.zero_lt_of_lt hC
    tailInRange := Nat.zero_lt_of_lt hC
    lengthInRange := hN
    storageForm := ⟨rfl, rfl⟩
    charsForm := ⟨rfl, rfl⟩
    lineWritten := fun i hi => absurd hi (Nat.not_lt_zero i)
    appendFits := nofun
    qAtRest := fun _ => ⟨rfl, rfl⟩
    qSampling := nofun
    qReading := nofun
    qPublishing := nofun
    beforeInit := fun _ => ⟨rfl, rfl, rfl, rfl, rfl⟩
    enabledAfterInit := nofun }

/-- What `INIT` changes of process start is no matter of the FIFO, which is as empty before it as after it (R208). -/
theorem processStart_fifo {c : Config} (hw : c.wf = true) : FifoState (State.processStart c) :=
  { initSequence_fifo (processStart_legal hw) rfl rfl with }

/-- Settles O7: the parameters make room for the index 0, and everything else is empty or idle. -/
theorem processStartIsLegalAndEmpty : Obligations.ProcessStartIsLegalAndEmpty := by
  unfold Obligations.ProcessStartIsLegalAndEmpty
  exact fun c hw => ⟨processStart_legal hw, processStart_fifo hw⟩

/-! ### INIT (R207, R208, R210) -/

/-- Settles O5: INIT is admitted, and the startup sequence writes these fields. -/
theorem initEmptiesAndEnables : Obligations.InitEmptiesAndEnables := by
  unfold Obligations.InitEmptiesAndEnables
  intro s h
  rw [exec_init h, initSequence_eq]

/-- The issuer's check keeps no agent out that the operation is given to (60_exceptions.md R193). -/
theorem withIssuer_of_issuable {i : Instr} {s : State} (k : Host.Outcome State Fault Refusal)
    (h : i.issuableBy s.issuer = true) : withIssuer (issuersOf i) s k = k := by
  have hmem := mem_issuersOf_iff.mpr h
  unfold withIssuer
  split
  next id hi =>
    rw [hi] at h
    cases i <;> cases h
  all_goals exact if_pos (by simp_all)

/-- The test that `INIT` has completed is the next one that every other operation makes (R210). -/
theorem begin_afterInit {i : Instr} (hi : i ≠ .init) (s : State) :
    ∃ k, begin i s = withLegalShape s (withIssuer (issuersOf i) s (afterInit s k)) := by
  cases i with
  | init => exact absurd rfl hi
  | _ => exact ⟨_, rfl⟩

/-- Settles O6: the parameters, the indices and the issuer keep nothing out, so the answer is that of the next test. -/
theorem initComesFirstAndOnce : Obligations.InitComesFirstAndOnce := by
  unfold Obligations.InitComesFirstAndOnce
  intro i s hw hl hissue
  refine ⟨fun hlife hi => ?_, fun hlife hi => ?_⟩
  · obtain ⟨k, hk⟩ := begin_afterInit hi s
    refine exec_of_begin_refused (hk.trans ?_)
    simp [withLegalShape, hw, hl, withIssuer_of_issuable _ hissue, afterInit, hlife]
  · subst hi
    have hinit : exec .init s = withLegalShape s (withIssuer (issuersOf .init) s (.refused .alreadyStarted)) := by
      rw [exec, execInit, hlife]
      rfl
    rw [hinit, withIssuer_of_issuable _ hissue, withLegalShape_eq _ ⟨hw, hl, hlife⟩]

/-! ### Q in the quiescent state (R213; 60_exceptions.md R179) -/

/-- Q has sampled `head` and seen it as it is. -/
def sampledHead (s : State) : State :=
  { s with qPhase := .read, qHeadSeen := s.head, draw := (readHeadFromQ s).2.draw }

/-- Q has recorded an empty poll and goes back to its sample (42_linereader.md R135). -/
def polledNone (s : State) : State := { s with qPhase := .sample, history := s.history ++ [.popNone] }

section

variable {s : State}

/-- On an empty buffer the sample is `head` itself, which Q has seen before: there is no other value to return
(20_memory.md R58). -/
theorem readHeadFromQ_of_empty (h : FifoState s) (he : s.head = s.tail) :
    readHeadFromQ s = (s.head, { s with draw := (readHeadFromQ s).2.draw }) := by
  obtain ⟨-, hpop, hhead, -⟩ := h.chain
  have hcount := (head_eq_tail_iff h).mp he
  have hseen : s.seenHeadN = s.pushes := by omega
  unfold readHeadFromQ
  split
  · rw [← hseen]
  · simp only [hseen, pickNumber_self, ← h.headNumber]

/-- The draw of the sample does not depend on the lines still to come. -/
theorem readHeadFromQ_draw_withSchedule (s : State) (ts : List Turn) :
    (readHeadFromQ { s with schedule := ts }).2.draw = (readHeadFromQ s).2.draw := by
  unfold readHeadFromQ
  cases hv : s.cfg.vis <;> rfl

/-- Where the buffer is empty the sample shows it, and Q keeps it. -/
theorem qSample_of_quiescent (hf : FifoState s) (h : Quiescent s) : qSample s = sampledHead s := by
  obtain ⟨-, -, he, ho, -⟩ := h
  rw [qSample_eq (by tauto), readHeadFromQ_of_empty hf he]
  rfl

/-- A `read_byte` that sees no byte goes back to its sample. -/
theorem popEmpty_of_quiescent (h : Quiescent s) : popEmpty s = polledNone s := by
  obtain ⟨-, -, -, ho, -⟩ := h
  rcases ho with ho | ho <;> rw [popEmpty, ho] <;> rfl

/-- What is left of the poll once `head` has been sampled is one micro-step. -/
theorem qRead_of_quiescent (h : Quiescent s) (hnone : s.qHeadSeen = s.tail) : qRead s = polledNone s := by
  have hback := popEmpty_of_quiescent h
  obtain ⟨-, -, -, ho, -⟩ := h
  rcases ho with ho | ho <;> simp [qRead, ho, popRead, hnone, hback]

/-- It is the same without a break: the poll ends where the next begins. -/
theorem finishWork_finishRead_of_quiescent (h : Quiescent s) (hnone : s.qHeadSeen = s.tail) :
    finishWork (finishRead s) = polledNone s := by
  rw [finishRead, qRead_of_quiescent h hnone]
  rfl

/-- Neither half of a poll ends the quiescence (R213). -/
theorem sampledHead_quiescent (h : Quiescent s) : Quiescent (sampledHead s) := by
  obtain ⟨hready, hidle, he, ho, -⟩ := h
  exact ⟨hready, hidle, he, ho, .inr ⟨rfl, he⟩⟩

theorem polledNone_quiescent (h : Quiescent s) : Quiescent (polledNone s) := by
  obtain ⟨hready, hidle, he, ho, -⟩ := h
  exact ⟨hready, hidle, he, ho, .inl rfl⟩

/-- A whole poll from its sample on. -/
theorem qFinish_of_quiescent_sample (hf : FifoState s) (h : Quiescent s) (hp : s.qPhase = .sample) :
    qFinish s = polledNone (sampledHead s) := by
  have hsample := qSample_of_quiescent hf h
  have hsampled := sampledHead_quiescent h
  obtain ⟨-, -, he, ho, -⟩ := h
  rw [qFinish, finishPop_of_sample hp (by tauto), hsample, finishWork_finishRead_of_quiescent hsampled he]

/-- The rest of a poll after its sample. -/
theorem qFinish_of_quiescent_read (h : Quiescent s) (hp : s.qPhase = .read) (hnone : s.qHeadSeen = s.tail) :
    qFinish s = polledNone s := by
  have hpass : finishPop s = finishRead s := by rw [finishPop, hp]
  rw [qFinish, hpass, finishWork_finishRead_of_quiescent h hnone]

/-- In the quiescent state nothing keeps Q from going on with its poll. -/
theorem continueQ_of_quiescent (hl : LegalState s) (h : Quiescent s) (f : State → State) :
    continueQ f s = .next (f s) := by
  obtain ⟨-, hidle, -, ho, -⟩ := h
  have hindices := indicesLegal_iff.mpr ⟨hl.headInRange, hl.tailInRange, hl.lengthInRange⟩
  have hbusy : s.qOp ≠ .none := by rcases ho with ho | ho <;> simp [ho]
  exact continueQ_of_busy hl.params hindices f (.inr hidle) (.inl hbusy)

/-- From its sample on, a line runs the sample alone or the whole poll. -/
theorem takeTurn_of_quiescent_sample (hl : LegalState s) (hf : FifoState s) (h : Quiescent s)
    (hp : s.qPhase = .sample) :
    takeTurn (.micro .q) s = .next (sampledHead s) ∧ takeTurn (.resume .q) s = .next (polledNone (sampledHead s)) := by
  have hstep : qStep s = sampledHead s := by rw [qStep, hp, ← qSample_of_quiescent hf h]
  constructor
  · exact (continueQ_of_quiescent hl h qStep).trans (by rw [hstep])
  · exact (continueQ_of_quiescent hl h qFinish).trans (by rw [qFinish_of_quiescent_sample hf h hp])

/-- After its sample, either line runs what is left of the poll. -/
theorem takeTurn_of_quiescent_read (hl : LegalState s) (h : Quiescent s) (hp : s.qPhase = .read)
    (hnone : s.qHeadSeen = s.tail) {line : Turn} (hline : line = .micro .q ∨ line = .resume .q) :
    takeTurn line s = .next (polledNone s) := by
  have hstep : qStep s = polledNone s := by rw [qStep, hp, ← qRead_of_quiescent h hnone]
  rcases hline with rfl | rfl
  · exact (continueQ_of_quiescent hl h qStep).trans (by rw [hstep])
  · exact (continueQ_of_quiescent hl h qFinish).trans (by rw [qFinish_of_quiescent_read h hp hnone])

end

/-- Settles O30: by where Q is in its poll and, before its sample, by how much of it the line runs. -/
theorem quiescentPollChangesNothing : Obligations.QuiescentPollChangesNothing := by
  unfold Obligations.QuiescentPollChangesNothing
  intro s rest line hl hf hq hline hkind
  have hlegal : LegalState { s with schedule := rest } := { hl with }
  have hfifo : FifoState { s with schedule := rest } := { hf with }
  have hquiet : Quiescent { s with schedule := rest } := hq
  have hdraw := readHeadFromQ_draw_withSchedule s rest
  rw [step_of_line hline]
  obtain ⟨-, -, -, -, hp | ⟨hp, hnone⟩⟩ := hq
  · obtain ⟨hmicro, hresume⟩ := takeTurn_of_quiescent_sample hlegal hfifo hquiet hp
    have hread : s.qPhase ≠ .read := by simp [hp]
    rcases hkind with rfl | rfl
    · refine ⟨_, hmicro, sampledHead_quiescent hquiet, fun _ _ => ?_, nofun, fun h => absurd h hread⟩
      rw [sampledHead, hdraw]
    · refine ⟨_, hresume, polledNone_quiescent (sampledHead_quiescent hquiet), nofun, fun _ _ => ?_,
        fun h => absurd h hread⟩
      rw [polledNone, sampledHead, hdraw, hp]
  · have hsample : s.qPhase ≠ .sample := by simp [hp]
    exact ⟨_, takeTurn_of_quiescent_read hlegal hquiet hp hnone hkind, polledNone_quiescent hquiet,
      fun h => absurd h hsample, fun h => absurd h hsample, fun _ => rfl⟩

end Sys2Proof.Machine
